-- ==== Sys2Proof/Word.lean ====
section
/-! DEFINITION. The word types of `modular_poly_reducer`: the 32-bit register and command word (R37, R110), the byte of DMEM
(R35) and the byte string (R12). -/

namespace Sys2Proof

/-- A 32-bit MMIO register or command word (R37, R110). -/
abbrev Word := BitVec 32

/-- One byte of DMEM or of a byte string (R12, R35). -/
abbrev Byte := BitVec 8

/-- A byte string, byte 0 first (R12). -/
abbrev Bytes := List Byte

end Sys2Proof
end

