-- ==== Sys2Proof/Machine/Bytes.lean ====
section
/-! DEFINITION. Byte strings, bit strings and their packing, little-endian and LSB-first everywhere (R12, R81, R233). -/

namespace Sys2Proof.Machine

/-- The first `n` entries of a list, with `d` where it has none: a list of length `n`. -/
def fit {α : Type} (n : Nat) (d : α) (l : List α) : List α := (l ++ List.replicate n d).take n

theorem fit_length {α : Type} (n : Nat) (d : α) (l : List α) : (fit n d l).length = n := by
  rw [fit, List.length_take, List.length_append, List.length_replicate]
  omega

/-- The half-open slice B[a..a+n) of a list (R12). -/
def slice {α : Type} (l : List α) (a n : Nat) : List α := (l.drop a).take n

/-- n zero bytes (R12). -/
def zeros (n : Nat) : Bytes := List.replicate n 0

/-- The low `n` bytes of a bit vector, least significant first: LE16 is `leBytes 2`, LE32 is `leBytes 4` (R12). -/
def leBytes {w : Nat} : (n : Nat) → BitVec w → Bytes
  | 0, _ => []
  | n + 1, v => v.setWidth 8 :: leBytes n (v >>> 8)

/-- The number a byte string stands for, least significant byte first (R81). -/
def leNat : Bytes → Nat
  | [] => 0
  | b :: bs => b.toNat + 256 * leNat bs

/-- The eight bits of a byte, bit 0 first. -/
def byteBits (b : Byte) : List Bool := (List.range 8).map b.getLsbD

/-- Bits(B), the bit string of B, LSB-first (R12). -/
def bits (b : Bytes) : List Bool := b.flatMap byteBits

/-- The number a bit string stands for, least significant bit first. -/
def bitsNat : List Bool → Nat
  | [] => 0
  | b :: bs => b.toNat + 2 * bitsNat bs

/-- The first `d` bits of a number, least significant first. -/
def natBits (d v : Nat) : List Bool := (List.range d).map v.testBit

/-- `n` consecutive pieces of `d` entries each. -/
def pieces {α : Type} (d : Nat) : (n : Nat) → List α → List (List α)
  | 0, _ => []
  | n + 1, l => l.take d :: pieces d n (l.drop d)

/-- `n` bytes from a bit string, eight bits each, LSB-first. -/
def bitsBytes (n : Nat) (l : List Bool) : Bytes := (pieces 8 n l).map fun p => BitVec.ofNat 8 (bitsNat p)

/-- Pack_d (R233): 256 values of d bits each in 32·d bytes; value i takes the bit positions d·i to d·i + d − 1. -/
def pack (d : Nat) (v : List Nat) : Bytes := bitsBytes (32 * d) (v.flatMap (natBits d))

/-- Unpack_d (R233): the 256 values of a (32·d)-byte string. -/
def unpack (d : Nat) (b : Bytes) : List Nat := (pieces d 256 (bits b)).map bitsNat

end Sys2Proof.Machine
end

