-- ==== Sys2Proof/Config.lean ====
section
/-! DEFINITION. What is fixed for the block's lifetime and is not state (R62): the parameters of R8 and R9, the parameter
functions the spec leaves open (R10, R61), and the free values (entropy, reads while BUSY, how long the engine takes). -/

namespace Sys2Proof.Config

/-- The ring modulus q (R8). -/
abbrev q : Nat := 3329
/-- Coefficients of a ring element (R8). -/
abbrev n : Nat := 256
/-- DMEM_SIZE (R9, R35). -/
abbrev dmemSize : Nat := 65536
/-- The MMIO aperture (R9, R80). -/
abbrev aperture : Nat := 0x20000
/-- The offset of the DMEM window in the aperture (R37, R82). -/
abbrev windowBase : Nat := 0x10000
/-- PK_LEN, the byte length of a KEM public key (R8, R263). -/
abbrev pkLen : Nat := 1184
/-- SK_LEN, the byte length of a KEM secret key (R9, R263). -/
abbrev skLen : Nat := 2400
/-- CT_LEN, the byte length of a ciphertext (R8, R263). -/
abbrev ctLen : Nat := 1088
/-- SS_LEN, the byte length of a shared secret (R8, R263). -/
abbrev ssLen : Nat := 32
/-- NONCE_LEN (R8). -/
abbrev nonceLen : Nat := 12
/-- TAG_LEN (R8). -/
abbrev tagLen : Nat := 16
/-- The shortest blob, an unsigned one with an empty report: 1088 + 12 + 16 bytes (R321). -/
abbrev blobOverhead : Nat := 1116

/-- The parameter functions and lengths the spec leaves open (R10, R61, R300, R320). Each is total and deterministic and holds no
state; the result types carry the lengths the spec gives. The signature lengths have the widths of their SIGP0 and SIGP1 fields,
since a longer instantiation "does not fit this block" (R43, R44). Arguments to which the spec gives a length are byte strings of any
length here: DESIGN CHOICE (log entry 1). -/
structure Params where
  /-- HASH_PK: bytes → 32 bytes. -/
  hashPk : Bytes → Vector Byte 32
  /-- HASH_G: 32 bytes → 64 bytes. -/
  hashG : Bytes → Vector Byte 64
  /-- XOF_A: 34 bytes → an unbounded byte stream, byte p at index p. -/
  xofA : Bytes → Nat → Byte
  /-- NOISE_STREAM: (bytes, count n) → n bytes. -/
  noiseStream : Bytes → (n : Nat) → Vector Byte n
  /-- KDF: bytes → 32 bytes. -/
  kdf : Bytes → Vector Byte 32
  /-- AEAD_SEAL: the ciphertext with its 16-byte tag (R320). -/
  aeadSeal : (key nonce ad pt : Bytes) → Vector Byte (pt.length + 16)
  /-- AEAD_OPEN: the plaintext, or none for FAIL (R320). -/
  aeadOpen : (key nonce ad c : Bytes) → Option (Vector Byte (c.length - 16))
  /-- SIG_LEN (R43). -/
  sigLen : BitVec 16
  /-- SIG_VK_LEN (R43). -/
  sigVkLen : BitVec 16
  /-- SIG_SK_LEN (R44). -/
  sigSkLen : BitVec 16
  /-- SIG_SEED_LEN (R44). -/
  sigSeedLen : BitVec 8
  /-- SIG_RND_LEN; 0 is allowed (R44, R300). -/
  sigRndLen : BitVec 8
  /-- SIG_KEYGEN_F: seed → (signing key, verifying key) (R300). -/
  sigKeygen : (seed : Bytes) → Vector Byte sigSkLen.toNat × Vector Byte sigVkLen.toNat
  /-- Whether SIG_SIGN_F can use a signing key: it "returns FAIL only for a signing key it cannot use" (R300). -/
  sigUsable : (sk : Bytes) → Bool
  /-- SIG_SIGN_F on a signing key it can use: signing key, message, randomness → signature (R300). -/
  sigSign : (sk msg rnd : Bytes) → Vector Byte sigLen.toNat
  /-- SIG_VERIFY_F: verifying key, message, signature → valid or not (R300). -/
  sigVerify : (vk msg sig : Bytes) → Bool
  deriving Inhabited

/-- The parameters of this block. No body: nothing in the model or in a proof can learn a value of them (R10, R61;
log entry 1). -/
opaque params : Params

/-- FREE VALUE. The entropy input: byte i of everything ever drawn (R60; log entry 2). -/
opaque entropy : Nat → Byte

/-- FREE VALUE. What a host read of a DMEM byte while BUSY = 1 returns (R39, R381; log entry 3). -/
opaque busyByte : Nat → Byte

/-- FREE VALUE. How many of the waiting host accesses the engine lets pass before it takes its step: "an unspecified, finite
number of cycles from acceptance to completion" (R390, R92; log entry 4). -/
opaque engineDelay : Nat → Nat

/-- OPEN. The platform's choice of base address, as a multiple of the aperture (R90; log entry 5). -/
opaque blockIndex : Nat

/-- BLOCK_BASE, a multiple of 0x20000 (R90). -/
def blockBase : Nat := blockIndex * aperture

/-- FREE VALUE. How many 3-byte groups of an XOF stream one engine step of the model looks at before it gives the turn to the host and
goes on in a later step: the loop of R213 has no bound, and neither has the model's (log entry 6). -/
opaque groupsPerStep : Nat

end Sys2Proof.Config
end

