-- ==== Sys2Proof/Syntax.lean ====
section
/-! DEFINITION. The commands of `modular_poly_reducer`: one constructor per row of spec/opcode_table.json (R115), with the fields
R115 lists for it, and the assembler's spelling of a command (R121, R122). -/

namespace Sys2Proof

/-- A polynomial register index, an unsigned 5-bit field: every value names a register (R112). -/
abbrev PReg := Fin 32

/-- A command. IMM4 stands as the 4 bits of its field (R112); which values are legal is `Instr.wf` (R113). `seeded` is the flag S
and `signed` the flag K (R114). -/
inductive Instr where
  /-- R159 -/
  | nop
  /-- R151 -/
  | polyLoad (rd : PReg) (imm4 : BitVec 4)
  /-- R152 -/
  | polyStore (rs1 : PReg)
  /-- R153 -/
  | polyReduce (rd rs1 : PReg)
  /-- R154 -/
  | polyAdd (rd rs1 rs2 : PReg)
  /-- R155 -/
  | polySub (rd rs1 rs2 : PReg)
  /-- R156 -/
  | polyEq (rs1 rs2 : PReg)
  /-- R157 -/
  | polyClear (rd : PReg)
  /-- R158 -/
  | zeroize
  /-- R184 -/
  | nttFwd (rd rs1 : PReg)
  /-- R185 -/
  | nttInv (rd rs1 : PReg)
  /-- R200 -/
  | pmul (rd rs1 rs2 : PReg)
  /-- R211 -/
  | cbdSample (rd : PReg)
  /-- R215 -/
  | rejSample (rd : PReg)
  /-- R235 -/
  | polyCompress (rs1 : PReg) (imm4 : BitVec 4)
  /-- R236 -/
  | polyDecompress (rd : PReg) (imm4 : BitVec 4)
  /-- R237 -/
  | polyPack12 (rs1 : PReg)
  /-- R238 -/
  | polyUnpack12 (rd : PReg) (imm4 : BitVec 4)
  /-- R266 -/
  | kemKeygen (seeded : Bool)
  /-- R268 -/
  | kemEncaps (seeded : Bool)
  /-- R270 -/
  | kemDecaps
  /-- R305 -/
  | sigKeygen (seeded : Bool)
  /-- R306 -/
  | sigSign (seeded : Bool)
  /-- R307 -/
  | sigVerify
  /-- R325 -/
  | blobBuild (seeded signed : Bool)
  /-- R326 -/
  | blobOpen (signed : Bool)
  deriving DecidableEq, Repr

namespace Instr

/-- The pseudo-instruction POLY_MOV pd, ps (R122): another spelling of POLY_REDUCE pd, ps. -/
abbrev polyMov (pd ps : PReg) : Instr := .polyReduce pd ps

/-- A register operand, p0 to p31 (R121). -/
def asmReg (r : PReg) : String := "p" ++ toString r.val

/-- An immediate operand #d (R121). -/
def asmImm (d : BitVec 4) : String := "#" ++ toString d.toNat

/-- The flag suffix: nothing for a 0 (R121). -/
def asmFlag (name : String) (b : Bool) : String := if b then "." ++ name else ""

/-- The assembler syntax of a command, `MNEMONIC[.S][.K] operands`, operands in the order RD, RS1, RS2, IMM4 (R121). -/
def asm : Instr → String
  | nop => "NOP"
  | polyLoad rd d => "POLY_LOAD " ++ asmReg rd ++ ", " ++ asmImm d
  | polyStore rs1 => "POLY_STORE " ++ asmReg rs1
  | polyReduce rd rs1 => "POLY_REDUCE " ++ asmReg rd ++ ", " ++ asmReg rs1
  | polyAdd rd rs1 rs2 => "POLY_ADD " ++ asmReg rd ++ ", " ++ asmReg rs1 ++ ", " ++ asmReg rs2
  | polySub rd rs1 rs2 => "POLY_SUB " ++ asmReg rd ++ ", " ++ asmReg rs1 ++ ", " ++ asmReg rs2
  | polyEq rs1 rs2 => "POLY_EQ " ++ asmReg rs1 ++ ", " ++ asmReg rs2
  | polyClear rd => "POLY_CLEAR " ++ asmReg rd
  | zeroize => "ZEROIZE"
  | nttFwd rd rs1 => "NTT_FWD " ++ asmReg rd ++ ", " ++ asmReg rs1
  | nttInv rd rs1 => "NTT_INV " ++ asmReg rd ++ ", " ++ asmReg rs1
  | pmul rd rs1 rs2 => "PMUL " ++ asmReg rd ++ ", " ++ asmReg rs1 ++ ", " ++ asmReg rs2
  | cbdSample rd => "CBD_SAMPLE " ++ asmReg rd
  | rejSample rd => "REJ_SAMPLE " ++ asmReg rd
  | polyCompress rs1 d => "POLY_COMPRESS " ++ asmReg rs1 ++ ", " ++ asmImm d
  | polyDecompress rd d => "POLY_DECOMPRESS " ++ asmReg rd ++ ", " ++ asmImm d
  | polyPack12 rs1 => "POLY_PACK12 " ++ asmReg rs1
  | polyUnpack12 rd d => "POLY_UNPACK12 " ++ asmReg rd ++ ", " ++ asmImm d
  | kemKeygen s => "KEM_KEYGEN" ++ asmFlag "S" s
  | kemEncaps s => "KEM_ENCAPS" ++ asmFlag "S" s
  | kemDecaps => "KEM_DECAPS"
  | sigKeygen s => "SIG_KEYGEN" ++ asmFlag "S" s
  | sigSign s => "SIG_SIGN" ++ asmFlag "S" s
  | sigVerify => "SIG_VERIFY"
  | blobBuild s k => "BLOB_BUILD" ++ asmFlag "S" s ++ asmFlag "K" k
  | blobOpen k => "BLOB_OPEN" ++ asmFlag "K" k

end Instr

end Sys2Proof
end

