-- ==== Sys2Proof/Machine/State.lean ====
section
/-! DEFINITION. The state of the block, as plain data (R30 to R60), the reasons a step can stop, and the state after reset (R63). The
last fields of `State` are the model's own: the host's accesses waiting at the port, what the host has read, and the counters that
index the free values. -/

namespace Sys2Proof.Machine

/-! ## The polynomial registers -/

/-- The domain tag of a polynomial register (R31). The value 3 "is never stored", so it has no constructor. -/
inductive Tag where
  /-- 0: the register holds no value. -/
  | empty
  /-- 1: a coefficient-domain ring element. -/
  | coeff
  /-- 2: a transform-domain representation. -/
  | ntt
  deriving DecidableEq, Repr

/-- 256 coefficients of 12-bit two's complement (R30). -/
structure Poly where
  cells : List (BitVec 12)
  size : cells.length = 256
  deriving DecidableEq, Repr

/-- All coefficients 0. -/
def Poly.zero : Poly := ⟨List.replicate 256 0, List.length_replicate⟩

/-- A polynomial register: coefficients and domain tag (R30). -/
structure PolyReg where
  poly : Poly
  tag : Tag
  deriving DecidableEq, Repr

/-- A cleared register: zeros, EMPTY (R34, R157). -/
def PolyReg.cleared : PolyReg := ⟨Poly.zero, .empty⟩

/-- The polynomial register file, PR[0] to PR[31] (R30). -/
structure RegFile where
  regs : List PolyReg
  size : regs.length = 32
  deriving DecidableEq, Repr

/-- Every register cleared (R34). -/
def RegFile.cleared : RegFile := ⟨List.replicate 32 PolyReg.cleared, List.length_replicate⟩

/-! ## Data memory -/

/-- DMEM (R35): its bytes that are not 0, by rising address. A byte that is not listed is 0x00, DMEM's reset value (R36). -/
abbrev Memory := List Host.Cell

/-! ## Status -/

/-- The completion codes of STATUS.ERR; codes 8 to 15 are never written (R340). -/
inductive Code where
  /-- 0: the command completed; includes implicit rejection. -/
  | ok
  /-- 1: the command word fails R116. -/
  | illegal
  /-- 2: a source register has tag EMPTY. -/
  | uninit
  /-- 3: a source register has the wrong domain tag. -/
  | domain
  /-- 4: a region leaves DMEM. -/
  | bounds
  /-- 5: FormatError: a wrong length, a non-canonical value, an unusable key. -/
  | format
  /-- 6: AuthenticationFailure. -/
  | auth
  /-- 7: SignatureInvalid. -/
  | sigInv
  deriving DecidableEq, Repr

/-- STATUS.KST, the KEM state record (R56). -/
inductive Kst where
  /-- 0 -/
  | uninitialized
  /-- 1 -/
  | keyGenerated
  /-- 2 -/
  | encapsulated
  /-- 3 -/
  | decapsulated
  deriving DecidableEq, Repr

/-- A ring element f[0..255] as integers (R13). -/
abbrev Elem := List Int

/-- Engine scratch (R58): one place for each kind of secret and intermediate value the rule names. The spec gives scratch no size or
layout; an empty list stands for locations that are all zero (log entry 11). -/
structure Scratch where
  /-- The expanded matrix Â (R216, R260), row by row. -/
  matrix : List (List Elem) := []
  /-- The noise and secret vectors (R261, R262). -/
  vectors : List Elem := []
  /-- The decoded keys: s and t of the parsed keys (R267, R269). -/
  keys : List Elem := []
  /-- Intermediate polynomials (R261, R262, R264). -/
  polys : List Elem := []
  /-- The derived symmetric key (R325, R326). -/
  aeadKey : Bytes := []
  /-- The shared-secret candidates (R264). -/
  secrets : List Bytes := []
  /-- The copy of the signing key (R304 (d)). -/
  signingKey : Bytes := []
  /-- How far the sampling loop of the pending command has got (R213): how many more 3-byte groups of each XOF stream than at first
  it looks at next (log entry 6). -/
  groups : Nat := 0
  deriving DecidableEq, Repr

/-- Scratch with every location overwritten with zero (R58). -/
def Scratch.zero : Scratch := {}

/-! ## The host's side -/

/-- What the host does at the block's port. Offsets are from the block's base (R37, R80), sizes are in bytes; sizes and offsets
the bus refuses can be written down too (R83). -/
inductive BusAction where
  /-- Reads `bytes` bytes at an offset. -/
  | read (bytes offset : Nat)
  /-- Writes the low `bytes` bytes of a value at an offset. -/
  | write (bytes offset : Nat) (value : Word)
  /-- The pseudo-instruction WAIT (R122): reads STATUS until BUSY = 0. -/
  | wait
  deriving DecidableEq, Repr

/-- What a host read returned, zero-extended to 32 bits. -/
structure BusRead where
  bytes : Nat
  offset : Nat
  value : Word
  deriving DecidableEq, Repr

/-! ## The whole state -/

/-- The state of the machine. The read-only registers ID, PARAM0, PARAM1, SIGP0, SIGP1 and DMSIZE are configuration (R62) and CTRL
always reads 0 (R46), so none of them is a field. The pending command of R59 is there exactly while `busy`. -/
structure State where
  /-- PR (R30). -/
  pr : RegFile
  /-- DMEM (R35). -/
  dmem : Memory
  /-- STATUS.BUSY (R53): the latched command is pending (R59). -/
  busy : Bool
  /-- STATUS.DONE (R53). -/
  done : Bool
  /-- STATUS.ERR (R54). -/
  err : Code
  /-- STATUS.EQ (R52). -/
  eq : Bool
  /-- STATUS.HZ, the flag itself (R55). -/
  hz : Bool
  /-- HZ as it was at the last acceptance: what a read of STATUS returns for it while BUSY (R381; log entry 15). -/
  hzl : Bool
  /-- STATUS.KST (R56). -/
  kst : Kst
  /-- CMDL, read through CMD (R48, R57). -/
  cmdl : Word
  /-- ARG0 to ARG7 (R51). -/
  args : Vector Word 8
  /-- ARGL (R57). -/
  argl : Vector Word 8
  /-- RESULT0 (R49). -/
  result0 : Word
  /-- RESULT1 (R49). -/
  result1 : Word
  /-- Engine scratch (R58). -/
  scratch : Scratch
  /-- MODEL'S OWN. The host's accesses that have not taken effect yet, the next one first (log entry 7). -/
  port : List BusAction
  /-- MODEL'S OWN. What the host's reads have returned, the latest last (log entry 7). -/
  seen : List BusRead
  /-- MODEL'S OWN. How many waiting host accesses still go before the engine's next step (log entry 4). -/
  delay : Nat
  /-- MODEL'S OWN. How many entropy bytes have been drawn: the index of the next free value of `Config.entropy` (log entry 2). -/
  drawn : Nat
  /-- MODEL'S OWN. The index of the next free value of `Config.busyByte` and `Config.engineDelay` (log entries 3 and 4). -/
  choices : Nat
  deriving DecidableEq, Repr

/-- Why a step stops with a fault: the host made an access the block refuses. -/
inductive Fault where
  /-- Raised by a host access of an illegal width or alignment (R83): the bus answers SLVERR and "a model treats it as a fault of
  the host program" (R347). Safe: the block's state would be unchanged and the host would go on. -/
  | busError (bytes offset : Nat)
  /-- Raised by a host access at or above offset 0x20000, which is "outside the block" (R83). Safe: the block is not addressed. -/
  | outsideBlock (offset : Nat)
  deriving DecidableEq, Repr

/-- Why a step is refused. -/
inductive Refusal where
  /-- Raised by an arm of `exec` for a command that has no meaning yet; no arm raises it any more. Safe: the machine stops. -/
  | notModelled (mnemonic : String)
  deriving DecidableEq, Repr

/-- The state right after a reset (R63, R370): nothing is left unspecified by the spec. The model's own fields start empty and at 0
(log entries 2, 3, 4 and 7), and so does the HZ value latched at acceptance (log entry 15). -/
def State.reset : State where
  pr := RegFile.cleared
  dmem := []
  busy := false
  done := false
  err := .ok
  eq := false
  hz := false
  hzl := false
  kst := .uninitialized
  cmdl := 0
  args := Vector.replicate 8 0
  argl := Vector.replicate 8 0
  result0 := 0
  result1 := 0
  scratch := Scratch.zero
  port := []
  seen := []
  delay := 0
  drawn := 0
  choices := 0

end Sys2Proof.Machine
end

