-- ==== Sys2Proof/Machine/Ops.lean ====
section
/-! DEFINITION. The named operations over memory, registers and the state: reading and writing DMEM and PR (R14, R30, R35), drawing
entropy (R60), completing a command and raising an error (R53, R342), and going on with a sampling loop (R215, R348). -/

namespace Sys2Proof.Machine

/-- What `exec` and `step` answer. -/
abbrev Result := Host.Outcome State Fault Refusal

/-! ## DMEM -/

/-- The byte at an address; a byte that is not listed is 0x00 (R36). -/
def Memory.read : Memory → Nat → Byte
  | [], _ => 0
  | c :: cs, a => if c.1 = a then c.2 else Memory.read cs a

/-- MemRead(addr, n): DMEM[addr..addr+n) (R14). -/
def Memory.readBytes (m : Memory) (a n : Nat) : Bytes := (List.range n).map fun j => Memory.read m (a + j)

/-- The cells that hold a byte string from an address on: its bytes that are not 0. -/
def Memory.cells : (a : Nat) → Bytes → Memory
  | _, [] => []
  | a, b :: bs => if b = 0 then Memory.cells (a + 1) bs else (a, b) :: Memory.cells (a + 1) bs

/-- MemWrite(addr, n, B) with n = len(B): DMEM[addr + j] ← B[j] (R14). -/
def Memory.write (m : Memory) (a : Nat) (b : Bytes) : Memory :=
  m.filter (fun c => decide (c.1 < a)) ++ Memory.cells a b ++ m.filter (fun c => decide (a + b.length ≤ c.1))

/-- The canonical form of DMEM: addresses strictly rising and inside DMEM (R35), and no byte listed that reads 0 anyway. -/
abbrev Memory.wf (m : Memory) : Prop :=
  m.Pairwise (fun c d => c.1 < d.1) ∧ ∀ c ∈ m, c.1 < Config.dmemSize ∧ c.2 ≠ 0

/-- The byte of DMEM at an address. -/
def State.byte (s : State) (a : Nat) : Byte := Memory.read s.dmem a

/-- MemRead on the state's DMEM (R14). -/
def State.readMem (s : State) (a n : Nat) : Bytes := Memory.readBytes s.dmem a n

/-- MemWrite on the state's DMEM (R14). -/
def State.writeMem (s : State) (a : Nat) (b : Bytes) : State := { s with dmem := Memory.write s.dmem a b }

/-! ## PR -/

/-- The coefficients of a register as integers (R30: two's complement). -/
def Poly.elem (p : Poly) : Elem := p.cells.map BitVec.toInt

/-- The 12-bit storage form of a ring element (R30). -/
def Poly.ofElem (f : Elem) : Poly :=
  ⟨fit 256 0 (f.map (BitVec.ofInt 12)), fit_length 256 0 _⟩

/-- PR[r]. -/
def RegFile.get (f : RegFile) (r : PReg) : PolyReg := f.regs[r.val]'(by rw [f.size]; exact r.isLt)

/-- PR with register r replaced. -/
def RegFile.set (f : RegFile) (r : PReg) (v : PolyReg) : RegFile := ⟨f.regs.set r.val v, by rw [List.length_set, f.size]⟩

/-- The domain tag of PR[r] (R31). -/
def State.tag (s : State) (r : PReg) : Tag := (s.pr.get r).tag

/-- The ring element in PR[r] (R14). -/
def State.elem (s : State) (r : PReg) : Elem := (s.pr.get r).poly.elem

/-- Coefficient i of PR[r]. -/
def State.coeff (s : State) (r : PReg) (i : Nat) : Int := (s.elem r).getD i 0

/-- PR[r] ← (f, tag) (R14). -/
def State.setReg (s : State) (r : PReg) (f : Elem) (t : Tag) : State :=
  { s with pr := s.pr.set r ⟨Poly.ofElem f, t⟩ }

/-- PR[r] ← (zeros, EMPTY) (R157). -/
def State.clearReg (s : State) (r : PReg) : State := { s with pr := s.pr.set r PolyReg.cleared }

/-! ## Latched arguments and entropy -/

/-- ARGL[j] as a number: the engine reads the latched value, never the live register (R57). -/
def State.arg (s : State) (j : Fin 8) : Nat := (s.argl[j]).toNat

/-- The bytes Draw(n) yields next (R60). -/
def State.drawBytes (s : State) (n : Nat) : Bytes := (List.range n).map fun i => Config.entropy (s.drawn + i)

/-- The state after Draw(n): the bytes are used up (R60). -/
def State.afterDraw (s : State) (n : Nat) : State := { s with drawn := s.drawn + n }

/-! ## The end of a command -/

/-- What the command holds in scratch as it computes (R58); how far its sampling loop has got is kept. -/
def State.holding (s : State) (w : Scratch) : State := { s with scratch := { w with groups := s.scratch.groups } }

/-- Completion (R53, R54, R58): ERR takes the completion code, BUSY = 0, DONE = 1, and every scratch location is overwritten with
zero. -/
def State.complete (s : State) (c : Code) : State :=
  { s with err := c, busy := false, done := true, scratch := Scratch.zero }

/-- `raise Err(code)` (R14, R342): THE shared operation of taking an error. The step ends at once with the code in STATUS.ERR;
RESULT0, RESULT1, EQ, KST, PR and DMEM stay as they are. There is no handler and no return from an error (R345, R346): the host
issues its next command. -/
abbrev State.raise (s : State) (c : Code) : State := s.complete c

/-- A command whose XOF streams have not yielded their 256 values yet stays pending: nothing of it is visible, BUSY stays 1, scratch
holds what the command had computed before it expands the matrix, and the loop goes on in a later step (R213, R215, R348; log entry
6). At least one waiting access of the host goes first, so that the host, and with it a soft reset, is never kept out (R371). The entropy
bytes it uses count as drawn only when it ends (log entries 2 and 10). -/
def State.keepSampling (s : State) (held : Scratch) : State :=
  { s with
    scratch := { held with groups := s.scratch.groups + 1 }
    delay := Config.engineDelay s.choices + 1
    choices := s.choices + 1 }

/-- How many groups of an XOF stream the pending command looks at in this step. -/
def State.groups (s : State) : Nat := Config.groupsPerStep + s.scratch.groups

/-- The first failing check (R343): the checks are pairs of "it fails" and the code it raises, in order. -/
def firstError : List (Bool × Code) → Option Code
  | [] => none
  | (fails, c) :: rest => if fails then some c else firstError rest

/-- What a command leaves: the error of the first failing check raised in `s`, or the state `t` of the rest of the command. -/
def State.checked (s : State) (checks : List (Bool × Code)) (t : State) : State :=
  match firstError checks with
  | some c => s.raise c
  | none => t

/-- The outcome of a command with static checks. Every command has one, whatever its word and operands: an error is a completion,
not a stop (R342, R345). -/
def guarded (s : State) (checks : List (Bool × Code)) (t : State) : Result := .next (s.checked checks t)

/-- The outcome of a command that samples: its state if the streams yielded their values, or the loop going on with `held` in
scratch. -/
def sampled {α : Type} (s : State) (held : Scratch) (r : Option α) (t : α → State) : State :=
  match r with
  | some a => t a
  | none => s.keepSampling held

end Sys2Proof.Machine
end

