-- ==== Sys2Proof/Machine/Flags.lean ====
section
/-! DEFINITION. STATUS and the flags and result registers a command writes: EQ (R52), KST (R56), HZ (R55), RESULT0 and RESULT1 (R49),
and the layout of the STATUS word (R47). -/

namespace Sys2Proof.Machine

/-- The number of a completion code (R340). -/
def Code.bits : Code → BitVec 4
  | .ok => 0
  | .illegal => 1
  | .uninit => 2
  | .domain => 3
  | .bounds => 4
  | .format => 5
  | .auth => 6
  | .sigInv => 7

/-- The number of a KEM state (R56). -/
def Kst.bits : Kst → BitVec 2
  | .uninitialized => 0
  | .keyGenerated => 1
  | .encapsulated => 2
  | .decapsulated => 3

/-- The number of a domain tag (R31). -/
def Tag.bits : Tag → BitVec 2
  | .empty => 0
  | .coeff => 1
  | .ntt => 2

/-- The HZ bit that STATUS shows: "from before the command" while BUSY (R381), else the flag (R55). A write dropped and an HZCLR taken
while BUSY change the flag, and show when the command is over (log entry 15). -/
def State.shownHz (s : State) : Bool := if s.busy then s.hzl else s.hz

/-- STATUS (R47): BUSY [0], DONE [1], ERR [7:4], EQ [8], HZ [9], KST [13:12], every other bit 0. While
BUSY the HZ bit is the value from before the command (R381). -/
def State.status (s : State) : Word :=
  (BitVec.ofBool s.busy).setWidth 32 ||| (BitVec.ofBool s.done).setWidth 32 <<< 1 ||| s.err.bits.setWidth 32 <<< 4
    ||| (BitVec.ofBool s.eq).setWidth 32 <<< 8 ||| (BitVec.ofBool s.shownHz).setWidth 32 <<< 9 ||| s.kst.bits.setWidth 32 <<< 12

/-- RES0 ← v (R14, R49). -/
def State.setResult0 (s : State) (v : Word) : State := { s with result0 := v }

/-- RES1 ← v (R14, R49). -/
def State.setResult1 (s : State) (v : Word) : State := { s with result1 := v }

/-- STATUS.EQ ← b (R52). -/
def State.setEq (s : State) (b : Bool) : State := { s with eq := b }

/-- STATUS.KST ← k (R56). -/
def State.setKst (s : State) (k : Kst) : State := { s with kst := k }

/-- STATUS.HZ ← b (R55). -/
def State.setHz (s : State) (b : Bool) : State := { s with hz := b }

/-- The accumulator of the constant-time comparison: every pair is XOR-ed and the results are OR-ed, with no early exit
(R156, R265). -/
def xorAccumulate {w : Nat} : List (BitVec w) → List (BitVec w) → BitVec w
  | a :: as, b :: bs => (a ^^^ b) ||| xorAccumulate as bs
  | _, _ => 0

/-- The comparison's result: 1 exactly when the accumulator is 0 (R156, R265). -/
def allEqual {w : Nat} (a b : List (BitVec w)) : Bool := xorAccumulate a b == 0

end Sys2Proof.Machine
end

