-- ==== Sys2Proof/WellFormed.lean ====
section
/-! DEFINITION. Which commands are well formed: IMM4 is one of the values R113 makes legal for the opcode. The other legality
conditions of R116 hold of every `Instr` by its form. -/

namespace Sys2Proof

/-- The legal compression depths: 1, 4 and 10 (R113). -/
def legalDepth (imm4 : BitVec 4) : Bool := imm4 == 1 || imm4 == 4 || imm4 == 10

/-- The legal domain-tag selects: 0 for COEFF and 1 for NTT (R113). -/
def legalTagSelect (imm4 : BitVec 4) : Bool := imm4 == 0 || imm4 == 1

/-- Well-formedness of a command: R116 (d). -/
def Instr.wf : Instr → Bool
  | .nop => true
  | .polyLoad _ imm4 => legalTagSelect imm4
  | .polyStore _ => true
  | .polyReduce _ _ => true
  | .polyAdd _ _ _ => true
  | .polySub _ _ _ => true
  | .polyEq _ _ => true
  | .polyClear _ => true
  | .zeroize => true
  | .nttFwd _ _ => true
  | .nttInv _ _ => true
  | .pmul _ _ _ => true
  | .cbdSample _ => true
  | .rejSample _ => true
  | .polyCompress _ imm4 => legalDepth imm4
  | .polyDecompress _ imm4 => legalDepth imm4
  | .polyPack12 _ => true
  | .polyUnpack12 _ imm4 => legalTagSelect imm4
  | .kemKeygen _ => true
  | .kemEncaps _ => true
  | .kemDecaps => true
  | .sigKeygen _ => true
  | .sigSign _ => true
  | .sigVerify => true
  | .blobBuild _ _ => true
  | .blobOpen _ => true

end Sys2Proof
end

