-- ==== Sys2Proof/Machine/Operands.lean ====
section
/-! DEFINITION. The operand forms: regions (R84, R119), 8-bit indices (R119), immediates (R113), the random inputs of seeded and
unseeded commands (R114), and the static checks on operands in the forms R343 lists. -/

namespace Sys2Proof.Machine

/-- The region [addr, addr+len) is in bounds, computed without wrap-around; an empty region needs addr ≤ DMEM_SIZE (R84). -/
def inBounds (addr len : Nat) : Bool := decide (addr + len ≤ Config.dmemSize)

/-- `idx8`: bits [7:0] of an ARG value (R119). -/
def idx8 (v : Nat) : Nat := v % 256

/-- The domain tag IMM4 selects: 0 → COEFF, 1 → NTT (R113). -/
def tagSelect (imm4 : BitVec 4) : Tag := if imm4 = 0 then .coeff else .ntt

/-- The random bytes of a command: from a DMEM region in seeded mode, else drawn (R114). -/
def State.randomBytes (s : State) (seeded : Bool) (addr n : Nat) : Bytes :=
  if seeded then s.readMem addr n else s.drawBytes n

/-- A command in seeded mode makes no draw (R60). -/
def State.afterRandom (s : State) (seeded : Bool) (n : Nat) : State := if seeded then s else s.afterDraw n

/-! ## Checks: what fails, and the code it raises -/

/-- Step 1 of R343: an IMM4 value that is not legal (R113). -/
def chkImmediate (legal : Bool) : Bool × Code := (!legal, .illegal)

/-- Step 2 of R343: the register has tag EMPTY (R341). -/
def chkWritten (s : State) (r : PReg) : Bool × Code := (s.tag r == .empty, .uninit)

/-- Step 3 of R343: the register's tag is not the one the command needs (R341). -/
def chkTag (s : State) (r : PReg) (t : Tag) : Bool × Code := (s.tag r != t, .domain)

/-- Step 3 of R343, for the commands that need equal tags (R154). -/
def chkSameTag (s : State) (a b : PReg) : Bool × Code := (s.tag a != s.tag b, .domain)

/-- Step 4 of R343: a region leaves DMEM (R84). -/
def chkRegion (addr len : Nat) : Bool × Code := (!inBounds addr len, .bounds)

/-- Step 4 of R343: a region that is there only when its condition holds. -/
def chkRegionIf (cond : Bool) (addr len : Nat) : Bool × Code := (cond && !inBounds addr len, .bounds)

/-- Step 5 of R343: a length that must have one value. -/
def chkLength (len want : Nat) : Bool × Code := (len != want, .format)

/-- Step 5 of R343, for a length read only when its condition holds. -/
def chkLengthIf (cond : Bool) (len want : Nat) : Bool × Code := (cond && len != want, .format)

/-- Step 6 of R343: the blob is too short (R326). -/
def chkBlob (len least : Nat) : Bool × Code := (decide (len < least), .auth)

end Sys2Proof.Machine
end

