-- ==== Sys2Proof/Machine/RingArith.lean ====
section
/-! DEFINITION. The reducer, ring addition and subtraction, the int16 image of a ring element, and the commands of
40_ring_arith.md: POLY_LOAD, POLY_STORE, POLY_REDUCE, POLY_ADD, POLY_SUB, POLY_EQ, POLY_CLEAR, ZEROIZE and NOP. -/

namespace Sys2Proof.Machine

/-- Reduce(x), the centred reduction: the y with y ≡ x (mod q) and −1664 ≤ y ≤ 1664 (R150). -/
def reduce (x : Int) : Int :=
  let r := x % Config.q
  if r > 1664 then r - Config.q else r

/-- Canon(x) = x mod q, in [0, q) (R13). -/
def canon (x : Int) : Nat := (x % Config.q).toNat

/-- Coefficient-wise addition mod q (R154). -/
def elemAdd (f g : Elem) : Elem := List.zipWith (fun a b => reduce (a + b)) f g

/-- Coefficient-wise subtraction mod q (R155). -/
def elemSub (f g : Elem) : Elem := List.zipWith (fun a b => reduce (a - b)) f g

/-- The zero ring element. -/
def elemZero : Elem := List.replicate 256 0

/-- The int16 little-endian image of a ring element (R152). -/
def int16Bytes (f : Elem) : Bytes := f.flatMap fun c => leBytes 2 (BitVec.ofInt 16 c)

/-- Reads 256 little-endian int16 values and reduces each (R151). -/
def int16Elem (b : Bytes) : Elem := (pieces 2 256 b).map fun p => reduce (BitVec.ofNat 16 (leNat p)).toInt

/-- POLY_LOAD (R151). -/
def execPolyLoad (rd : PReg) (imm4 : BitVec 4) (s : State) : Result :=
  guarded s [chkImmediate (legalTagSelect imm4), chkRegion (s.arg 0) 512]
    ((s.setReg rd (int16Elem (s.readMem (s.arg 0) 512)) (tagSelect imm4)).complete .ok)

/-- POLY_STORE (R152): the tag is not stored. -/
def execPolyStore (rs1 : PReg) (s : State) : Result :=
  guarded s [chkWritten s rs1, chkRegion (s.arg 0) 512]
    ((s.writeMem (s.arg 0) (int16Bytes (s.elem rs1))).complete .ok)

/-- POLY_REDUCE (R153); POLY_MOV is another name for it (R122). -/
def execPolyReduce (rd rs1 : PReg) (s : State) : Result :=
  guarded s [chkWritten s rs1]
    ((s.setReg rd ((s.elem rs1).map reduce) (s.tag rs1)).complete .ok)

/-- POLY_ADD (R154). -/
def execPolyAdd (rd rs1 rs2 : PReg) (s : State) : Result :=
  guarded s [chkWritten s rs1, chkWritten s rs2, chkSameTag s rs1 rs2]
    ((s.setReg rd (elemAdd (s.elem rs1) (s.elem rs2)) (s.tag rs1)).complete .ok)

/-- POLY_SUB (R155). -/
def execPolySub (rd rs1 rs2 : PReg) (s : State) : Result :=
  guarded s [chkWritten s rs1, chkWritten s rs2, chkSameTag s rs1 rs2]
    ((s.setReg rd (elemSub (s.elem rs1) (s.elem rs2)) (s.tag rs1)).complete .ok)

/-- The equality POLY_EQ computes on the stored coefficients (R156). -/
def polyEqual (s : State) (rs1 rs2 : PReg) : Bool := allEqual (s.pr.get rs1).poly.cells (s.pr.get rs2).poly.cells

/-- POLY_EQ (R156): STATUS.EQ and RESULT0 take the result. -/
def execPolyEq (rs1 rs2 : PReg) (s : State) : Result :=
  guarded s [chkWritten s rs1, chkWritten s rs2, chkSameTag s rs1 rs2]
    (((s.setEq (polyEqual s rs1 rs2)).setResult0 (if polyEqual s rs1 rs2 then 1 else 0)).complete .ok)

/-- POLY_CLEAR (R157). -/
def execPolyClear (rd : PReg) (s : State) : Result := guarded s [] ((s.clearReg rd).complete .ok)

/-- Every DMEM byte and every PR register cleared (R158). -/
def State.wipe (s : State) : State := { s with dmem := [], pr := RegFile.cleared }

/-- ZEROIZE (R158): the ARG registers and CMDL are not cleared, and HZ is kept. -/
def execZeroize (s : State) : Result := guarded s [] ((s.wipe.setKst .uninitialized).complete .ok)

/-- NOP (R159): a full command with no effect of its own. -/
def execNop (s : State) : Result := guarded s [] (s.complete .ok)

end Sys2Proof.Machine
end

