-- ==== Sys2Proof/Machine/Ntt.lean ====
section
/-! DEFINITION. The number-theoretic transform and its inverse (R180 to R183), and the commands NTT_FWD and NTT_INV. -/

namespace Sys2Proof.Machine

/-- ZETAS[0..127] (R180): ZETAS[i] = 17^BitRev7(i) mod q. -/
def zetas : List Int :=
  [1, 1729, 2580, 3289, 2642, 630, 1897, 848] ++
  [1062, 1919, 193, 797, 2786, 3260, 569, 1746] ++
  [296, 2447, 1339, 1476, 3046, 56, 2240, 1333] ++
  [1426, 2094, 535, 2882, 2393, 2879, 1974, 821] ++
  [289, 331, 3253, 1756, 1197, 2304, 2277, 2055] ++
  [650, 1977, 2513, 632, 2865, 33, 1320, 1915] ++
  [2319, 1435, 807, 452, 1438, 2868, 1534, 2402] ++
  [2647, 2617, 1481, 648, 2474, 3110, 1227, 910] ++
  [17, 2761, 583, 2649, 1637, 723, 2288, 1100] ++
  [1409, 2662, 3281, 233, 756, 2156, 3015, 3050] ++
  [1703, 1651, 2789, 1789, 1847, 952, 1461, 2687] ++
  [939, 2308, 2437, 2388, 733, 2337, 268, 641] ++
  [1584, 2298, 2037, 3220, 375, 2549, 2090, 1645] ++
  [1063, 319, 2773, 757, 2099, 561, 2466, 2594] ++
  [2804, 1092, 403, 1026, 1143, 2150, 2775, 886] ++
  [1722, 1212, 1874, 1029, 2110, 2935, 885, 2154]

/-- BitRev7(i): the 7-bit binary form of i reversed (R180). -/
def bitRev7 (i : Nat) : Nat := bitsNat (natBits 7 i).reverse

/-- The two output halves of one block of the forward transform: f[j] ← Reduce(a + t) and f[j+len] ← Reduce(a − t) with
t = Reduce(z·b) (R182). -/
def butterflyLo (z : Int) (lo hi : Elem) : Elem := List.zipWith (fun a b => reduce (a + reduce (z * b))) lo hi
@[inherit_doc butterflyLo]
def butterflyHi (z : Int) (lo hi : Elem) : Elem := List.zipWith (fun a b => reduce (a - reduce (z * b))) lo hi

/-- One layer of the forward transform: blocks of 2·len coefficients, one table entry each (R181). -/
def nttLayer (len : Nat) : (table : List Int) → Elem → Elem
  | [], f => f
  | z :: zs, f =>
    let lo := slice f 0 len
    let hi := slice f len len
    butterflyLo z lo hi ++ butterflyHi z lo hi ++ nttLayer len zs (f.drop (2 * len))

/-- The layers of the forward transform: the block length, the first table index k and the number of blocks (R181). The table
entries ZETAS[1] to ZETAS[127] are used in increasing order. -/
def nttPlan : List (Nat × Nat × Nat) := [(128, 1, 1), (64, 2, 2), (32, 4, 4), (16, 8, 8), (8, 16, 16), (4, 32, 32), (2, 64, 64)]

/-- NTT(f), 7 layers (R181). -/
def ntt (f : Elem) : Elem := nttPlan.foldl (fun g p => nttLayer p.1 (slice zetas p.2.1 p.2.2) g) f

/-- The two output halves of one block of the inverse transform: f[j] ← Reduce(a + b) and f[j+len] ← Reduce(z·(b − a)) (R183). -/
def invButterflyLo (lo hi : Elem) : Elem := List.zipWith (fun a b => reduce (a + b)) lo hi
@[inherit_doc invButterflyLo]
def invButterflyHi (z : Int) (lo hi : Elem) : Elem := List.zipWith (fun a b => reduce (z * (b - a))) lo hi

/-- One layer of the inverse transform (R183). -/
def inttLayer (len : Nat) : (table : List Int) → Elem → Elem
  | [], f => f
  | z :: zs, f =>
    let lo := slice f 0 len
    let hi := slice f len len
    invButterflyLo lo hi ++ invButterflyHi z lo hi ++ inttLayer len zs (f.drop (2 * len))

/-- The layers of the inverse transform: the block length, the last table index of the layer's block of entries, that is its
smallest k, and the number of blocks (R183). Within a layer k counts down. -/
def inttPlan : List (Nat × Nat × Nat) := [(2, 64, 64), (4, 32, 32), (8, 16, 16), (16, 8, 8), (32, 4, 4), (64, 2, 2), (128, 1, 1)]

/-- 128⁻¹ mod q (R183). -/
def inttScale : Int := 3303

/-- INTT(f), 7 layers and the final scaling (R183). -/
def intt (f : Elem) : Elem :=
  (inttPlan.foldl (fun g p => inttLayer p.1 (slice zetas p.2.1 p.2.2).reverse g) f).map fun c => reduce (c * inttScale)

/-- NTT_FWD (R184). -/
def execNttFwd (rd rs1 : PReg) (s : State) : Result :=
  guarded s [chkWritten s rs1, chkTag s rs1 .coeff] ((s.setReg rd (ntt (s.elem rs1)) .ntt).complete .ok)

/-- NTT_INV (R185). -/
def execNttInv (rd rs1 : PReg) (s : State) : Result :=
  guarded s [chkWritten s rs1, chkTag s rs1 .ntt] ((s.setReg rd (intt (s.elem rs1)) .coeff).complete .ok)

end Sys2Proof.Machine
end

