-- ==== Sys2Proof/Machine/Pointwise.lean ====
section
/-! DEFINITION. Pointwise multiplication (R200), the sums of products the KEM builds from it (R203), and the command PMUL. -/

namespace Sys2Proof.Machine

/-- The per-coefficient product mod q (R200). -/
def elemMul (f g : Elem) : Elem := List.zipWith (fun a b => reduce (a * b)) f g

/-- Σ PMUL(a[i], b[i]), index ascending, reduced after each addition (R203). -/
def dotNtt (a b : List Elem) : Elem := (List.zipWith elemMul a b).foldl elemAdd elemZero

/-- The product a ⊛ b of coefficient-domain elements (R201, R202). -/
def ringMul (a b : Elem) : Elem := intt (elemMul (ntt a) (ntt b))

/-- PMUL (R200). -/
def execPmul (rd rs1 rs2 : PReg) (s : State) : Result :=
  guarded s [chkWritten s rs1, chkWritten s rs2, chkTag s rs1 .ntt, chkTag s rs2 .ntt]
    ((s.setReg rd (elemMul (s.elem rs1) (s.elem rs2)) .ntt).complete .ok)

end Sys2Proof.Machine
end

