-- ==== Sys2Proof/Machine/Samplers.lean ====
section
/-! DEFINITION. The centred-binomial sampler (R210), rejection sampling from the XOF (R213), the noise vectors (R217) and the
commands CBD_SAMPLE and REJ_SAMPLE. -/

namespace Sys2Proof.Machine

/-- One coefficient from its four bits: the first two added, the last two subtracted (R210). -/
def cbdCoeff (b : List Bool) : Int :=
  ((b.getD 0 false).toNat + (b.getD 1 false).toNat : Int) - ((b.getD 2 false).toNat + (b.getD 3 false).toNat : Int)

/-- CBD(B) on a 128-byte string (R210): coefficient i uses bits 4i to 4i + 3. -/
def cbd (b : Bytes) : Elem := (pieces 4 256 (bits b)).map cbdCoeff

/-- CBDVec(S, off, n): CBD of n consecutive 128-byte slices of a stream (R217). -/
def cbdVec (str : Bytes) (off n : Nat) : List Elem := (List.range n).map fun i => cbd (slice str (off + 128 * i) 128)

/-- The two 12-bit values of the 3-byte group at position p of a stream: d1 the low and d2 the high twelve bits (R213). -/
def groupLo (str : Nat → Byte) (p : Nat) : Nat := (str p).toNat + 256 * ((str (p + 1)).toNat % 16)
@[inherit_doc groupLo]
def groupHi (str : Nat → Byte) (p : Nat) : Nat := (str (p + 1)).toNat / 16 + 16 * (str (p + 2)).toNat

/-- Accepts a 12-bit value while fewer than 256 are accepted and it is below q (R213); the accepted values stand latest first. -/
def accept (d : Nat) (got : Elem) : Elem := if d < Config.q ∧ got.length < 256 then reduce d :: got else got

/-- The loop of R213 from position p with `got` accepted so far, looking at no more than `fuel` groups: the 256 values, or none if
that many groups do not hold them. -/
def rejLoop (str : Nat → Byte) : (fuel p : Nat) → (got : Elem) → Option Elem
  | 0, _, got => if got.length < 256 then none else some got.reverse
  | fuel + 1, p, got =>
    if got.length < 256 then rejLoop str fuel (p + 3) (accept (groupHi str p) (accept (groupLo str p) got))
    else some got.reverse

/-- Rej(ρ, row, col) as far as the first `fuel` groups of its stream decide it: XOF input ρ ‖ col ‖ row (R213). -/
def rej (P : Config.Params) (fuel : Nat) (rho : Bytes) (row col : Nat) : Option Elem :=
  rejLoop (P.xofA (rho ++ [BitVec.ofNat 8 col, BitVec.ofNat 8 row])) fuel 0 []

/-- CBD_SAMPLE (R211). -/
def execCbdSample (rd : PReg) (s : State) : Result :=
  guarded s [chkRegion (s.arg 0) 128] ((s.setReg rd (cbd (s.readMem (s.arg 0) 128)) .coeff).complete .ok)

/-- REJ_SAMPLE (R215): the command completes in the step that finds the 256th value, and never if the stream does not hold them. -/
def execRejSample (rd : PReg) (s : State) : Result :=
  guarded s [chkRegion (s.arg 0) 32]
    (sampled s Scratch.zero (rej Config.params s.groups (s.readMem (s.arg 0) 32) (idx8 (s.arg 1)) (idx8 (s.arg 2))) fun f =>
      (s.setReg rd f .coeff).complete .ok)

end Sys2Proof.Machine
end

