-- ==== Sys2Proof/Machine/Codec.lean ====
section
/-! DEFINITION. Compression, decompression and 12-bit packing (R230 to R239), and the commands POLY_COMPRESS, POLY_DECOMPRESS,
POLY_PACK12 and POLY_UNPACK12. -/

namespace Sys2Proof.Machine

/-- Compress_d(x), rounding half up and wrapping to 0 at 2^d (R230). -/
def compressCoeff (d : Nat) (x : Int) : Nat := (canon x * 2 ^ d * 2 + Config.q) / (2 * Config.q) % 2 ^ d

/-- Decompress_d(y), rounding half up (R230). -/
def decompressCoeff (d y : Nat) : Int := reduce ((y * Config.q * 2 + 2 ^ d) / 2 ^ (d + 1) : Nat)

/-- Compress(f, d): 32·d bytes (R234). -/
def compress (f : Elem) (d : Nat) : Bytes := pack d (f.map (compressCoeff d))

/-- Decompress(B, d) on a (32·d)-byte string (R234). -/
def decompress (b : Bytes) (d : Nat) : Elem := (unpack d b).map (decompressCoeff d)

/-- Pack12(f): 384 bytes of canonical values (R234). -/
def pack12 (f : Elem) : Bytes := pack 12 (f.map canon)

/-- Unpack12(B) on a 384-byte string: none, that is FORMAT, if a 12-bit value is q or more (R234). -/
def unpack12 (b : Bytes) : Option Elem :=
  if (unpack 12 b).any (fun v => decide (Config.q ≤ v)) then none
  else some ((unpack 12 b).map fun (v : Nat) => reduce v)

/-- POLY_COMPRESS (R235). -/
def execPolyCompress (rs1 : PReg) (imm4 : BitVec 4) (s : State) : Result :=
  guarded s [chkImmediate (legalDepth imm4), chkWritten s rs1, chkTag s rs1 .coeff, chkRegion (s.arg 0) (32 * imm4.toNat)]
    ((s.writeMem (s.arg 0) (compress (s.elem rs1) imm4.toNat)).complete .ok)

/-- POLY_DECOMPRESS (R236). -/
def execPolyDecompress (rd : PReg) (imm4 : BitVec 4) (s : State) : Result :=
  guarded s [chkImmediate (legalDepth imm4), chkRegion (s.arg 0) (s.arg 1), chkLength (s.arg 1) (32 * imm4.toNat)]
    ((s.setReg rd (decompress (s.readMem (s.arg 0) (32 * imm4.toNat)) imm4.toNat) .coeff).complete .ok)

/-- POLY_PACK12 (R237): either tag will do, and it is not stored. -/
def execPolyPack12 (rs1 : PReg) (s : State) : Result :=
  guarded s [chkWritten s rs1, chkRegion (s.arg 0) 384]
    ((s.writeMem (s.arg 0) (pack12 (s.elem rs1))).complete .ok)

/-- POLY_UNPACK12 (R238): a value of q or more is the dynamic error FORMAT, and the register is unchanged. -/
def execPolyUnpack12 (rd : PReg) (imm4 : BitVec 4) (s : State) : Result :=
  guarded s [chkImmediate (legalTagSelect imm4), chkRegion (s.arg 0) (s.arg 1), chkLength (s.arg 1) 384]
    (match unpack12 (s.readMem (s.arg 0) 384) with
      | none => s.raise .format
      | some f => (s.setReg rd f (tagSelect imm4)).complete .ok)

end Sys2Proof.Machine
end

