-- ==== Sys2Proof/Machine/Kem.lean ====
section
/-! DEFINITION. The KEM engine: the internal functions KeyGen, Encaps and Decaps (R260 to R265), the parses (R267, R269) and the
commands KEM_KEYGEN, KEM_ENCAPS and KEM_DECAPS. A function that expands the matrix answers none while the XOF streams have not
yielded their values within `fuel` groups (R348). `P` is the block's parameter functions (R10); the commands take
`Config.params`. -/

namespace Sys2Proof.Machine

/-- All the values, if every one is there. -/
def allSome {α : Type} : List (Option α) → Option (List α)
  | [] => some []
  | none :: _ => none
  | some a :: rest => (allSome rest).map (a :: ·)

/-- ExpandA(ρ): Â[i][j] = NTT(Rej(ρ, i, j)) (R216, R260). -/
def expandA (P : Config.Params) (fuel : Nat) (rho : Bytes) : Option (List (List Elem)) :=
  allSome ((List.range 3).map fun i => allSome ((List.range 3).map fun j => (rej P fuel rho i j).map ntt))

/-- VecNTT (R260). -/
def vecNtt (v : List Elem) : List Elem := v.map ntt

/-- VecAdd (R260). -/
def vecAdd (a b : List Elem) : List Elem := List.zipWith elemAdd a b

/-- MatVec (R260): the rows of Â with v̂, then INTT. -/
def matVec (a : List (List Elem)) (v : List Elem) : List Elem := a.map fun row => intt (dotNtt row v)

/-- MatTVec (R260): the columns of Â with v̂, then INTT. -/
def matTVec (a : List (List Elem)) (v : List Elem) : List Elem :=
  (List.range 3).map fun j => intt (dotNtt (a.map fun row => row.getD j elemZero) v)

/-- Dot (R260). -/
def dot (a b : List Elem) : Elem := intt (dotNtt a b)

/-- A parsed public key: ρ and t (R267). -/
structure PublicKey where
  rho : Bytes
  t : List Elem
  deriving DecidableEq, Repr

/-- A parsed secret key: s, pk, h and z (R269). -/
structure SecretKey where
  s : List Elem
  pk : PublicKey
  h : Bytes
  z : Bytes
  deriving DecidableEq, Repr

/-- Three consecutive Pack12 images from an offset on (R263). -/
def unpackVec (b : Bytes) (off : Nat) : Option (List Elem) :=
  allSome ((List.range 3).map fun i => unpack12 (slice b (off + 384 * i) 384))

/-- ParsePK(B): none for FORMAT (R267). -/
def parsePk (b : Bytes) : Option PublicKey :=
  if b.length ≠ Config.pkLen then none
  else (unpackVec b 32).map fun t => ⟨slice b 0 32, t⟩

/-- ParseSK(B): none for FORMAT; the stored h is taken as it stands (R269). -/
def parseSk (b : Bytes) : Option SecretKey :=
  if b.length ≠ Config.skLen then none
  else match unpackVec b 0, parsePk (slice b 1152 1184) with
    | some s, some pk => some ⟨s, pk, slice b 2336 32, slice b 2368 32⟩
    | _, _ => none

/-- The layout of a public key: ρ, then Pack12 of t[0], t[1], t[2] (R263). -/
def pkBytes (rho : Bytes) (t : List Elem) : Bytes := rho ++ t.flatMap pack12

/-- The layout of a secret key: Pack12 of s[0], s[1], s[2], then pk, h and z (R263). -/
def skBytes (s : List Elem) (pk h z : Bytes) : Bytes := s.flatMap pack12 ++ pk ++ h ++ z

/-- The layout of a ciphertext: u at 10 bits, then v at 4 (R263). -/
def ctBytes (u : List Elem) (v : Elem) : Bytes := u.flatMap (fun f => compress f 10) ++ compress v 4

/-- HASH_PK of a byte string (R10). -/
def hashPk (P : Config.Params) (b : Bytes) : Bytes := (P.hashPk b).toList

/-- KDF of a byte string (R10). -/
def kdf (P : Config.Params) (b : Bytes) : Bytes := (P.kdf b).toList

/-- The values of KeyGen_internal (R261). -/
structure KeygenWork where
  a : List (List Elem)
  rho : Bytes
  s : List Elem
  e : List Elem
  t : List Elem
  deriving DecidableEq, Repr

/-- KeyGen_internal up to t (R261). -/
def keygenWork (P : Config.Params) (fuel : Nat) (d : Bytes) : Option KeygenWork :=
  let g := (P.hashG d).toList
  let rho := slice g 0 32
  (expandA P fuel rho).map fun a =>
    let str := (P.noiseStream (slice g 32 32) 768).toList
    let s := cbdVec str 0 3
    let e := cbdVec str 384 3
    ⟨a, rho, s, e, vecAdd (matVec a (vecNtt s)) e⟩

/-- The key pair of these values: (pk, sk) (R261). -/
def KeygenWork.keys (P : Config.Params) (z : Bytes) (w : KeygenWork) : Bytes × Bytes :=
  let pk := pkBytes w.rho w.t
  (pk, skBytes w.s pk (hashPk P pk) z)

/-- What key generation holds in scratch (R58). -/
def KeygenWork.scratch (w : KeygenWork) : Scratch := { matrix := w.a, vectors := w.s ++ w.e, polys := w.t }

/-- KeyGen_internal(d, z): (pk, sk) (R261). -/
def keygenInternal (P : Config.Params) (fuel : Nat) (d z : Bytes) : Option (Bytes × Bytes) :=
  (keygenWork P fuel d).map (KeygenWork.keys P z)

/-- The values of Encaps_internal (R262). -/
structure EncapsWork where
  a : List (List Elem)
  r : List Elem
  e1 : List Elem
  e2 : Elem
  mu : Elem
  u : List Elem
  v : Elem
  deriving DecidableEq, Repr

/-- Encaps_internal up to u and v (R262). -/
def encapsWork (P : Config.Params) (fuel : Nat) (pk : PublicKey) (m h : Bytes) : Option EncapsWork :=
  (expandA P fuel pk.rho).map fun a =>
    let str := (P.noiseStream (m ++ h) 896).toList
    let r := cbdVec str 0 3
    let e1 := cbdVec str 384 3
    let e2 := cbd (slice str 768 128)
    let rHat := vecNtt r
    let mu := decompress m 1
    ⟨a, r, e1, e2, mu, vecAdd (matTVec a rHat) e1, elemAdd (elemAdd (dot (vecNtt pk.t) rHat) e2) mu⟩

/-- The ciphertext and the shared secret of these values: (ct, ss) (R262). -/
def EncapsWork.output (P : Config.Params) (m h : Bytes) (w : EncapsWork) : Bytes × Bytes :=
  let ct := ctBytes w.u w.v
  (ct, kdf P (m ++ h ++ ct))

/-- What encapsulation holds in scratch: its values, beside the decoded public key and the shared secret (R58). -/
def EncapsWork.scratch (w : EncapsWork) (pk : PublicKey) (ss : Bytes) : Scratch where
  matrix := w.a
  vectors := w.r ++ w.e1 ++ [w.e2]
  keys := pk.t
  polys := w.u ++ [w.mu, w.v]
  secrets := [ss]

/-- Encaps_internal(pk, m, h): (ct, ss) (R262). -/
def encapsInternal (P : Config.Params) (fuel : Nat) (pk : PublicKey) (m h : Bytes) : Option (Bytes × Bytes) :=
  (encapsWork P fuel pk m h).map (EncapsWork.output P m h)

/-- CTSelect(eq, x, y), by masks (R265). -/
def ctSelect (eq : Bool) (x y : Bytes) : Bytes :=
  let mask : Byte := if eq then 0xFF else 0x00
  List.zipWith (fun a b => (a &&& mask) ||| (b &&& ~~~mask)) x y

/-- The values of Decaps_internal up to w (R264). -/
structure DecodeWork where
  u : List Elem
  v : Elem
  w : Elem
  deriving DecidableEq, Repr

/-- u, v and w = v − sᵗ·u of a ciphertext (R264). -/
def decodeWork (sk : SecretKey) (ct : Bytes) : DecodeWork :=
  let u := (List.range 3).map fun j => decompress (slice ct (320 * j) 320) 10
  let v := decompress (slice ct 960 128) 4
  ⟨u, v, elemSub v (dot (vecNtt sk.s) (vecNtt u))⟩

/-- The candidate message m′ of a ciphertext (R264). -/
def decodeMessage (sk : SecretKey) (ct : Bytes) : Bytes := compress (decodeWork sk ct).w 1

/-- What decapsulation holds in scratch before it encapsulates again: the decoded keys and u, v and w (R58). -/
def decodeScratch (sk : SecretKey) (ct : Bytes) : Scratch :=
  let d := decodeWork sk ct
  { keys := sk.s ++ sk.pk.t, polys := d.u ++ [d.v, d.w] }

/-- The values of Decaps_internal: those of the second encapsulation, the two candidates and the one selected (R264). -/
structure DecapsWork where
  again : EncapsWork
  accepted : Bytes
  rejected : Bytes
  ss : Bytes
  deriving DecidableEq, Repr

/-- Decaps_internal with its values: both candidates are computed, and one is selected (R264, R265). -/
def decapsWork (P : Config.Params) (fuel : Nat) (sk : SecretKey) (ct : Bytes) : Option DecapsWork :=
  let m' := decodeMessage sk ct
  (encapsWork P fuel sk.pk m' sk.h).map fun again =>
    let accepted := kdf P (m' ++ sk.h ++ ct)
    let rejected := kdf P (sk.z ++ ct)
    ⟨again, accepted, rejected, ctSelect (allEqual ct (again.output P m' sk.h).1) accepted rejected⟩

/-- What decapsulation holds in scratch (R58). -/
def DecapsWork.scratch (w : DecapsWork) (sk : SecretKey) (ct : Bytes) : Scratch :=
  let d := decodeScratch sk ct
  { w.again.scratch sk.pk w.ss with
    keys := d.keys
    polys := d.polys ++ w.again.u ++ [w.again.mu, w.again.v]
    secrets := [w.accepted, w.rejected, w.ss] }

/-- Decaps_internal(sk, ct): the shared secret, with implicit rejection (R264). -/
def decapsInternal (P : Config.Params) (fuel : Nat) (sk : SecretKey) (ct : Bytes) : Option Bytes :=
  (decapsWork P fuel sk ct).map DecapsWork.ss

/-- KEM_KEYGEN (R266): d, then z. -/
def execKemKeygen (seeded : Bool) (s : State) : Result :=
  let rnd := s.randomBytes seeded (s.arg 2) 64
  guarded s [chkRegion (s.arg 0) Config.pkLen, chkRegion (s.arg 1) Config.skLen, chkRegionIf seeded (s.arg 2) 64]
    (sampled s Scratch.zero (keygenWork Config.params s.groups (slice rnd 0 32)) fun w =>
      let k := w.keys Config.params (slice rnd 32 32)
      (((((s.holding w.scratch).afterRandom seeded 64).writeMem (s.arg 0) k.1).writeMem (s.arg 1) k.2).setKst
        .keyGenerated).complete .ok)

/-- KEM_ENCAPS (R268). -/
def execKemEncaps (seeded : Bool) (s : State) : Result :=
  let b := s.readMem (s.arg 0) Config.pkLen
  let m := s.randomBytes seeded (s.arg 4) 32
  let h := hashPk Config.params b
  guarded s [chkRegion (s.arg 0) (s.arg 1), chkRegion (s.arg 2) Config.ctLen, chkRegion (s.arg 3) Config.ssLen,
      chkRegionIf seeded (s.arg 4) 32, chkLength (s.arg 1) Config.pkLen]
    (match parsePk b with
      | none => s.raise .format
      | some pk =>
        sampled s { keys := pk.t } (encapsWork Config.params s.groups pk m h) fun w =>
          let k := w.output Config.params m h
          (((((s.holding (w.scratch pk k.2)).afterRandom seeded 32).writeMem (s.arg 2) k.1).writeMem (s.arg 3) k.2).setKst
            .encapsulated).complete .ok)

/-- KEM_DECAPS (R270): the two branches of implicit rejection complete alike. -/
def execKemDecaps (s : State) : Result :=
  let ct := s.readMem (s.arg 2) Config.ctLen
  guarded s [chkRegion (s.arg 0) (s.arg 1), chkRegion (s.arg 2) (s.arg 3), chkRegion (s.arg 4) Config.ssLen,
      chkLength (s.arg 1) Config.skLen, chkLength (s.arg 3) Config.ctLen]
    (match parseSk (s.readMem (s.arg 0) Config.skLen) with
      | none => s.raise .format
      | some sk =>
        sampled s (decodeScratch sk ct) (decapsWork Config.params s.groups sk ct) fun w =>
          (((s.holding (w.scratch sk ct)).writeMem (s.arg 4) w.ss).setKst .decapsulated).complete .ok)

end Sys2Proof.Machine
end

