-- ==== Sys2Proof/Machine/Signature.lean ====
section
/-! DEFINITION. The signature engine around the black-box primitive (R300), the clearing of the signing key (R304), and the commands
SIG_KEYGEN, SIG_SIGN and SIG_VERIFY. -/

namespace Sys2Proof.Machine

/-- SIG_SIGN_F as a byte string, or none for FAIL (R300). -/
def signMessage (P : Config.Params) (sk msg rnd : Bytes) : Option Bytes :=
  if P.sigUsable sk then some (P.sigSign sk msg rnd).toList else none

/-- SIG_LEN (R43). -/
def sigLen : Nat := Config.params.sigLen.toNat
/-- SIG_VK_LEN (R43). -/
def sigVkLen : Nat := Config.params.sigVkLen.toNat
/-- SIG_SK_LEN (R44). -/
def sigSkLen : Nat := Config.params.sigSkLen.toNat
/-- SIG_SEED_LEN (R44). -/
def sigSeedLen : Nat := Config.params.sigSeedLen.toNat
/-- SIG_RND_LEN (R44). -/
def sigRndLen : Nat := Config.params.sigRndLen.toNat

/-- The signing-key clear: zero to every byte of [addr, addr + len), whatever the length (R304 (b)). -/
def State.clearKey (s : State) (addr len : Nat) : State := s.writeMem addr (zeros len)

/-- SIG_KEYGEN (R305). -/
def execSigKeygen (seeded : Bool) (s : State) : Result :=
  let k := Config.params.sigKeygen (s.randomBytes seeded (s.arg 2) sigSeedLen)
  guarded s [chkRegion (s.arg 0) sigSkLen, chkRegion (s.arg 1) sigVkLen, chkRegionIf seeded (s.arg 2) sigSeedLen]
    (((((s.holding { signingKey := k.1.toList }).afterRandom seeded sigSeedLen).writeMem (s.arg 0) k.1.toList).writeMem (s.arg 1)
      k.2.toList).complete .ok)

/-- SIG_SIGN (R306). The inputs are read from the state as it was; once the key region's own BOUNDS check has passed, every exit
path leaves the region cleared (R304 (a)), and the clear comes before the output (R88, R304 (c)). The copy of the key in scratch is
overwritten at completion (R304 (d)). -/
def execSigSign (seeded : Bool) (s : State) : Result :=
  let cleared := s.clearKey (s.arg 0) (s.arg 1)
  let key := s.readMem (s.arg 0) sigSkLen
  let used := (cleared.holding { signingKey := key }).afterRandom seeded sigRndLen
  guarded s [chkRegion (s.arg 0) (s.arg 1)]
    (cleared.checked [chkRegion (s.arg 2) (s.arg 3), chkRegion (s.arg 4) sigLen, chkRegionIf seeded (s.arg 5) sigRndLen,
        chkLength (s.arg 1) sigSkLen]
      (match signMessage Config.params key (s.readMem (s.arg 2) (s.arg 3)) (s.randomBytes seeded (s.arg 5) sigRndLen) with
        | none => used.raise .format
        | some sig => (used.writeMem (s.arg 4) sig).complete .ok))

/-- SIG_VERIFY (R307): an invalid signature is RESULT0 = 0, not an error. -/
def execSigVerify (s : State) : Result :=
  let valid := Config.params.sigVerify (s.readMem (s.arg 0) sigVkLen) (s.readMem (s.arg 2) (s.arg 3)) (s.readMem (s.arg 4) sigLen)
  guarded s [chkRegion (s.arg 0) (s.arg 1), chkRegion (s.arg 2) (s.arg 3), chkRegion (s.arg 4) (s.arg 5),
      chkLength (s.arg 1) sigVkLen, chkLength (s.arg 5) sigLen]
    ((s.setResult0 (if valid then 1 else 0)).complete .ok)

end Sys2Proof.Machine
end

