-- ==== Sys2Proof/Machine/Blob.lean ====
section
/-! DEFINITION. The blob protocol (R320 to R322) and the commands BLOB_BUILD and BLOB_OPEN. -/

namespace Sys2Proof.Machine

/-- L, the length of the blob BLOB_BUILD makes from a report of `len` bytes (R321, R325). -/
def blobLen (signed : Bool) (len : Nat) : Nat := Config.blobOverhead + len + if signed then sigLen else 0

/-- SIG_RND_LEN where the command signs, else 0: the randomness of signing that BLOB_BUILD needs (R325). -/
def blobRndLen (signed : Bool) : Nat := if signed then sigRndLen else 0

/-- The random inputs of BLOB_BUILD (R325). -/
structure BlobRandom where
  m : Bytes
  nonce : Bytes
  rnd : Bytes
  deriving DecidableEq, Repr

/-- Seeded: m, nonce and rnd from the seed region in this order; drawn: rnd, m and nonce in this order (R325). -/
def State.blobRandom (s : State) (seeded signed : Bool) : BlobRandom :=
  let r := blobRndLen signed
  let d := s.randomBytes seeded (s.arg 7) (44 + r)
  if seeded then ⟨slice d 0 32, slice d 32 12, slice d 44 r⟩ else ⟨slice d r 32, slice d (r + 32) 12, slice d 0 r⟩

/-- The payload: the report, with its signature appended where the command signs; none for a FAIL of SIG_SIGN_F (R321, R325). -/
def blobPayload (P : Config.Params) (signed : Bool) (key report rnd : Bytes) : Option Bytes :=
  if signed then (signMessage P key report rnd).map (report ++ ·) else some report

/-- The blob ct ‖ nonce ‖ AEAD_SEAL(ss, nonce, "", payload) (R321). -/
def blobBytes (P : Config.Params) (ct ss nonce payload : Bytes) : Bytes := ct ++ nonce ++ (P.aeadSeal ss nonce [] payload).toList

/-- What building a blob holds in scratch: the values of the encapsulation, the derived symmetric key and the copy of the signing key,
if there is one (R58). -/
def buildScratch (w : EncapsWork) (pk : PublicKey) (ss key : Bytes) : Scratch :=
  { w.scratch pk ss with aeadKey := ss, signingKey := key }

/-- What opening a blob holds in scratch: the values of the decapsulation and the derived symmetric key (R58). -/
def openScratch (w : DecapsWork) (sk : SecretKey) (ct : Bytes) : Scratch := { w.scratch sk ct with aeadKey := w.ss }

/-- Steps 2 to 5 of building a blob: encapsulate, seal and put together (R325). -/
def buildBlob (P : Config.Params) (fuel : Nat) (pk : PublicKey) (h m nonce payload : Bytes) : Option Bytes :=
  (encapsInternal P fuel pk m h).map fun k => blobBytes P k.1 k.2 nonce payload

/-- BLOB_BUILD (R325). With K = 1 the signing key is cleared on every path once its own BOUNDS check has passed (R304). -/
def execBlobBuild (seeded signed : Bool) (s : State) : Result :=
  let used := 44 + blobRndLen signed
  let total := blobLen signed (s.arg 1)
  let cleared := if signed then s.clearKey (s.arg 4) (s.arg 5) else s
  let b := s.readMem (s.arg 2) Config.pkLen
  let h := hashPk Config.params b
  let key := if signed then s.readMem (s.arg 4) sigSkLen else []
  let r := s.blobRandom seeded signed
  guarded s [chkRegion (s.arg 0) (s.arg 1), chkRegion (s.arg 2) (s.arg 3), chkRegionIf signed (s.arg 4) (s.arg 5)]
    (cleared.checked [chkRegion (s.arg 6) total, chkRegionIf seeded (s.arg 7) used, chkLength (s.arg 3) Config.pkLen,
        chkLengthIf signed (s.arg 5) sigSkLen]
      (match parsePk b, blobPayload Config.params signed key (s.readMem (s.arg 0) (s.arg 1)) r.rnd with
        | some pk, some payload =>
          sampled s { keys := pk.t, signingKey := key } (encapsWork Config.params s.groups pk r.m h) fun w =>
            let k := w.output Config.params r.m h
            ((((cleared.holding (buildScratch w pk k.2 key)).afterRandom seeded used).writeMem (s.arg 6)
              (blobBytes Config.params k.1 k.2 r.nonce payload)).setResult0 (BitVec.ofNat 32 total)).complete .ok
        | _, _ => ((cleared.holding { signingKey := key }).afterRandom seeded used).raise .format))

/-- What BLOB_OPEN makes of the decrypted payload: the report, or the error FORMAT or SIGINV (R326, R322). -/
def openPayload (P : Config.Params) (signed : Bool) (off : Nat) (payload : Bytes) : Except Code Bytes :=
  if signed then
    if payload.length < P.sigLen.toNat then .error .format
    else
      let report := slice payload 0 (payload.length - P.sigLen.toNat)
      if off + P.sigVkLen.toNat > report.length then .error .format
      else if P.sigVerify (slice report off P.sigVkLen.toNat) report (payload.drop report.length) then .ok report
      else .error .sigInv
  else .ok payload

/-- Steps 3 to 5 of opening a blob with a shared secret: open the AEAD and, signed, verify (R326). -/
def openSealed (P : Config.Params) (signed : Bool) (off : Nat) (ss blob : Bytes) : Except Code Bytes :=
  match P.aeadOpen ss (slice blob 1088 12) [] (blob.drop 1100) with
  | none => .error .auth
  | some payload => openPayload P signed off payload.toList

/-- Steps 1 to 5 of opening a blob: split, decapsulate, open the AEAD and, signed, verify (R326). -/
def openBlob (P : Config.Params) (fuel : Nat) (signed : Bool) (off : Nat) (sk : SecretKey) (blob : Bytes) :
    Option (Except Code Bytes) :=
  (decapsInternal P fuel sk (slice blob 0 Config.ctLen)).map fun ss => openSealed P signed off ss blob

/-- BLOB_OPEN (R326). -/
def execBlobOpen (signed : Bool) (s : State) : Result :=
  let blob := s.readMem (s.arg 0) (s.arg 1)
  let ct := slice blob 0 Config.ctLen
  guarded s [chkRegion (s.arg 0) (s.arg 1), chkRegion (s.arg 2) (s.arg 3), chkRegion (s.arg 4) (s.arg 1 - Config.blobOverhead),
      chkLength (s.arg 3) Config.skLen, chkBlob (s.arg 1) Config.blobOverhead]
    (match parseSk (s.readMem (s.arg 2) Config.skLen) with
      | none => s.raise .format
      | some sk =>
        sampled s (decodeScratch sk ct) (decapsWork Config.params s.groups sk ct) fun w =>
          let used := s.holding (openScratch w sk ct)
          match openSealed Config.params signed (s.arg 5) w.ss blob with
          | .error c => used.raise c
          | .ok report =>
            (((used.writeMem (s.arg 4) report).setResult0 (BitVec.ofNat 32 report.length)).setResult1
              (if signed then 1 else 0)).complete .ok)

end Sys2Proof.Machine
end

