-- ==== Sys2Proof/Machine/Dispatch.lean ====
section
/-! DEFINITION. The one match over the commands: each arm calls the command's own meaning. -/

namespace Sys2Proof.Machine

def exec (i : Instr) (s : State) : Host.Outcome State Fault Refusal :=
  match i with
  | .nop => Sys2Proof.Machine.execNop s
  | .polyLoad rd imm4 => Sys2Proof.Machine.execPolyLoad rd imm4 s
  | .polyStore rs1 => Sys2Proof.Machine.execPolyStore rs1 s
  | .polyReduce rd rs1 => Sys2Proof.Machine.execPolyReduce rd rs1 s
  | .polyAdd rd rs1 rs2 => Sys2Proof.Machine.execPolyAdd rd rs1 rs2 s
  | .polySub rd rs1 rs2 => Sys2Proof.Machine.execPolySub rd rs1 rs2 s
  | .polyEq rs1 rs2 => Sys2Proof.Machine.execPolyEq rs1 rs2 s
  | .polyClear rd => Sys2Proof.Machine.execPolyClear rd s
  | .zeroize => Sys2Proof.Machine.execZeroize s
  | .nttFwd rd rs1 => Sys2Proof.Machine.execNttFwd rd rs1 s
  | .nttInv rd rs1 => Sys2Proof.Machine.execNttInv rd rs1 s
  | .pmul rd rs1 rs2 => Sys2Proof.Machine.execPmul rd rs1 rs2 s
  | .cbdSample rd => Sys2Proof.Machine.execCbdSample rd s
  | .rejSample rd => Sys2Proof.Machine.execRejSample rd s
  | .polyCompress rs1 imm4 => Sys2Proof.Machine.execPolyCompress rs1 imm4 s
  | .polyDecompress rd imm4 => Sys2Proof.Machine.execPolyDecompress rd imm4 s
  | .polyPack12 rs1 => Sys2Proof.Machine.execPolyPack12 rs1 s
  | .polyUnpack12 rd imm4 => Sys2Proof.Machine.execPolyUnpack12 rd imm4 s
  | .kemKeygen seeded => Sys2Proof.Machine.execKemKeygen seeded s
  | .kemEncaps seeded => Sys2Proof.Machine.execKemEncaps seeded s
  | .kemDecaps => Sys2Proof.Machine.execKemDecaps s
  | .sigKeygen seeded => Sys2Proof.Machine.execSigKeygen seeded s
  | .sigSign seeded => Sys2Proof.Machine.execSigSign seeded s
  | .sigVerify => Sys2Proof.Machine.execSigVerify s
  | .blobBuild seeded signed => Sys2Proof.Machine.execBlobBuild seeded signed s
  | .blobOpen signed => Sys2Proof.Machine.execBlobOpen signed s

end Sys2Proof.Machine
end

