-- ==== Sys2Proof/Decode.lean ====
section
/-! DEFINITION. The command decoder (R111 to R118), total on every 32-bit word and refusing by name, and after it the encoder
written from the same field layout. -/

namespace Sys2Proof

/-- The fields of a command word (R111). -/
structure Fields where
  /-- OPC, bits [7:0]. -/
  opc : BitVec 8
  /-- RD, bits [12:8]. -/
  rd : PReg := 0
  /-- RS1, bits [17:13]. -/
  rs1 : PReg := 0
  /-- RS2, bits [22:18]. -/
  rs2 : PReg := 0
  /-- IMM4, bits [26:23]. -/
  imm4 : BitVec 4 := 0
  /-- S, bit [27]. -/
  s : Bool := false
  /-- K, bit [28]. -/
  k : Bool := false
  /-- RES, bits [31:29]. -/
  res : BitVec 3 := 0
  deriving DecidableEq, Repr

/-- Takes a command word apart (R111, R112). -/
def Fields.ofWord (w : Word) : Fields where
  opc := w.extractLsb' 0 8
  rd := (w.extractLsb' 8 5).toFin
  rs1 := (w.extractLsb' 13 5).toFin
  rs2 := (w.extractLsb' 18 5).toFin
  imm4 := w.extractLsb' 23 4
  s := w.getLsbD 27
  k := w.getLsbD 28
  res := w.extractLsb' 29 3

/-- Which of the fields an opcode uses (the column "fields" of R115). -/
structure Uses where
  rd : Bool := false
  rs1 : Bool := false
  rs2 : Bool := false
  imm4 : Bool := false
  s : Bool := false
  k : Bool := false
  deriving DecidableEq, Repr

/-- Why a word is illegal (R117). -/
inductive IllegalWord where
  /-- One of the 230 unassigned opcode values. -/
  | unassignedOpcode
  /-- W[31:29] ≠ 0 (R116 (b)). -/
  | reservedBits
  /-- RD, RS1, RS2 or IMM4 is not 0 and the opcode does not use it (R116 (c)). -/
  | unusedField
  /-- S or K is 1 on an opcode that does not take it (R116 (e)). -/
  | strayFlag
  /-- IMM4 is not a legal value for the opcode (R116 (d)). -/
  | illegalImmediate
  deriving DecidableEq, Repr

/-- What the decoder answers: a command, or the reason the word is illegal. -/
inductive Decoded where
  | instr (i : Instr)
  | illegal (why : IllegalWord)
  deriving DecidableEq, Repr

/-- The command of a decoded word, if it is legal. -/
def Decoded.toOption : Decoded → Option Instr
  | .instr i => some i
  | .illegal _ => none

/-- The opcode map of R115: the fields the opcode uses and the command they make. -/
def opcodeMap (opc : BitVec 8) : Option (Uses × (Fields → Instr)) :=
  match opc.toNat with
  | 0x00 => some ({}, fun _ => .nop)
  | 0x01 => some ({ rd := true, imm4 := true }, fun f => .polyLoad f.rd f.imm4)
  | 0x02 => some ({ rs1 := true }, fun f => .polyStore f.rs1)
  | 0x03 => some ({ rd := true, rs1 := true }, fun f => .polyReduce f.rd f.rs1)
  | 0x04 => some ({ rd := true, rs1 := true, rs2 := true }, fun f => .polyAdd f.rd f.rs1 f.rs2)
  | 0x05 => some ({ rd := true, rs1 := true, rs2 := true }, fun f => .polySub f.rd f.rs1 f.rs2)
  | 0x06 => some ({ rs1 := true, rs2 := true }, fun f => .polyEq f.rs1 f.rs2)
  | 0x07 => some ({ rd := true }, fun f => .polyClear f.rd)
  | 0x0F => some ({}, fun _ => .zeroize)
  | 0x10 => some ({ rd := true, rs1 := true }, fun f => .nttFwd f.rd f.rs1)
  | 0x11 => some ({ rd := true, rs1 := true }, fun f => .nttInv f.rd f.rs1)
  | 0x18 => some ({ rd := true, rs1 := true, rs2 := true }, fun f => .pmul f.rd f.rs1 f.rs2)
  | 0x20 => some ({ rd := true }, fun f => .cbdSample f.rd)
  | 0x21 => some ({ rd := true }, fun f => .rejSample f.rd)
  | 0x28 => some ({ rs1 := true, imm4 := true }, fun f => .polyCompress f.rs1 f.imm4)
  | 0x29 => some ({ rd := true, imm4 := true }, fun f => .polyDecompress f.rd f.imm4)
  | 0x2A => some ({ rs1 := true }, fun f => .polyPack12 f.rs1)
  | 0x2B => some ({ rd := true, imm4 := true }, fun f => .polyUnpack12 f.rd f.imm4)
  | 0x30 => some ({ s := true }, fun f => .kemKeygen f.s)
  | 0x31 => some ({ s := true }, fun f => .kemEncaps f.s)
  | 0x32 => some ({}, fun _ => .kemDecaps)
  | 0x38 => some ({ s := true }, fun f => .sigKeygen f.s)
  | 0x39 => some ({ s := true }, fun f => .sigSign f.s)
  | 0x3A => some ({}, fun _ => .sigVerify)
  | 0x40 => some ({ s := true, k := true }, fun f => .blobBuild f.s f.k)
  | 0x41 => some ({ k := true }, fun f => .blobOpen f.k)
  | _ => none

/-- R116 (c): every operand field the opcode does not use is 0. -/
def Fields.unusedZero (f : Fields) (u : Uses) : Bool :=
  (u.rd || f.rd == 0) && (u.rs1 || f.rs1 == 0) && (u.rs2 || f.rs2 == 0) && (u.imm4 || f.imm4 == 0)

/-- R116 (e): S and K are 0 unless the opcode lists them. -/
def Fields.flagsTaken (f : Fields) (u : Uses) : Bool := (u.s || !f.s) && (u.k || !f.k)

/-- The decoder (R116): a word is legal when it passes every test, and is refused by the name of the first it fails. -/
def decode (w : Word) : Decoded :=
  let f := Fields.ofWord w
  match opcodeMap f.opc with
  | none => .illegal .unassignedOpcode
  | some (u, make) =>
    if f.res != 0 then .illegal .reservedBits
    else if !f.unusedZero u then .illegal .unusedField
    else if !f.flagsTaken u then .illegal .strayFlag
    else if !(make f).wf then .illegal .illegalImmediate
    else .instr (make f)

/-- The command the decoder reads from the word whose bits are `w`, numbered as the opcode table numbers them; every bit above
`nbits` is 0. -/
def decodeTableWord (nbits w : Nat) : Option Instr := (decode (BitVec.ofNat 32 (w % 2 ^ nbits))).toOption

/-- The fields of a command: its opcode (R115), its operands, and 0 in every field it does not use (R112). -/
def Instr.fields : Instr → Fields
  | .nop => { opc := 0x00 }
  | .polyLoad rd imm4 => { opc := 0x01, rd := rd, imm4 := imm4 }
  | .polyStore rs1 => { opc := 0x02, rs1 := rs1 }
  | .polyReduce rd rs1 => { opc := 0x03, rd := rd, rs1 := rs1 }
  | .polyAdd rd rs1 rs2 => { opc := 0x04, rd := rd, rs1 := rs1, rs2 := rs2 }
  | .polySub rd rs1 rs2 => { opc := 0x05, rd := rd, rs1 := rs1, rs2 := rs2 }
  | .polyEq rs1 rs2 => { opc := 0x06, rs1 := rs1, rs2 := rs2 }
  | .polyClear rd => { opc := 0x07, rd := rd }
  | .zeroize => { opc := 0x0F }
  | .nttFwd rd rs1 => { opc := 0x10, rd := rd, rs1 := rs1 }
  | .nttInv rd rs1 => { opc := 0x11, rd := rd, rs1 := rs1 }
  | .pmul rd rs1 rs2 => { opc := 0x18, rd := rd, rs1 := rs1, rs2 := rs2 }
  | .cbdSample rd => { opc := 0x20, rd := rd }
  | .rejSample rd => { opc := 0x21, rd := rd }
  | .polyCompress rs1 imm4 => { opc := 0x28, rs1 := rs1, imm4 := imm4 }
  | .polyDecompress rd imm4 => { opc := 0x29, rd := rd, imm4 := imm4 }
  | .polyPack12 rs1 => { opc := 0x2A, rs1 := rs1 }
  | .polyUnpack12 rd imm4 => { opc := 0x2B, rd := rd, imm4 := imm4 }
  | .kemKeygen s => { opc := 0x30, s := s }
  | .kemEncaps s => { opc := 0x31, s := s }
  | .kemDecaps => { opc := 0x32 }
  | .sigKeygen s => { opc := 0x38, s := s }
  | .sigSign s => { opc := 0x39, s := s }
  | .sigVerify => { opc := 0x3A }
  | .blobBuild s k => { opc := 0x40, s := s, k := k }
  | .blobOpen k => { opc := 0x41, k := k }

/-- Assembles a command word: OPC | RD<<8 | RS1<<13 | RS2<<18 | IMM4<<23 | S<<27 | K<<28, and RES in [31:29] (R111). -/
def Fields.toWord (f : Fields) : Word :=
  f.opc.setWidth 32 ||| (BitVec.ofFin f.rd : BitVec 5).setWidth 32 <<< 8 ||| (BitVec.ofFin f.rs1 : BitVec 5).setWidth 32 <<< 13
    ||| (BitVec.ofFin f.rs2 : BitVec 5).setWidth 32 <<< 18 ||| f.imm4.setWidth 32 <<< 23
    ||| (BitVec.ofBool f.s).setWidth 32 <<< 27 ||| (BitVec.ofBool f.k).setWidth 32 <<< 28 ||| f.res.setWidth 32 <<< 29

/-- The encoder: the word of a command (R111). -/
def encode (i : Instr) : Word := i.fields.toWord

end Sys2Proof
end

