-- ==== Sys2Proof/Machine/Port.lean ====
section
/-! DEFINITION. The host's port: the MMIO register map (R37 to R51), the DMEM window (R82), which accesses are legal (R83), what a host
access does (R38, R48, R51, R55, R371, R381), and whose turn it is (R86, R92). -/

namespace Sys2Proof.Machine

/-! ## Where the block stands in the host's map -/

/-- The offset at the block's port of an address of the host's bus, if the block is addressed (R83, R90). -/
def portOffset (busAddr : Nat) : Option Nat :=
  if Config.blockBase ≤ busAddr ∧ busAddr < Config.blockBase + Config.aperture then some (busAddr - Config.blockBase) else none

/-! ## Registers -/

/-- ID: MAGIC 0x4D50, K 3, REV 1 (R40). -/
def regId : Word := 0x4D50#16 ++ 3#8 ++ 1#8

/-- PARAM0: N [31:16], Q [15:0] (R41). -/
def regParam0 : Word := BitVec.ofNat 16 Config.n ++ BitVec.ofNat 16 Config.q

/-- PARAM1: NPR [23:16], DV [15:12], DU [11:8], ETA [7:4], K [3:0] (R42). -/
def regParam1 : Word := 0#8 ++ 32#8 ++ 4#4 ++ 10#4 ++ 2#4 ++ 3#4

/-- SIGP0: SIG_VK_LEN [31:16], SIG_LEN [15:0] (R43). -/
def regSigp0 : Word := Config.params.sigVkLen ++ Config.params.sigLen

/-- SIGP1: SIG_RND_LEN [31:24], SIG_SEED_LEN [23:16], SIG_SK_LEN [15:0] (R44). -/
def regSigp1 : Word := Config.params.sigRndLen ++ Config.params.sigSeedLen ++ Config.params.sigSkLen

/-- DMSIZE (R45). -/
def regDmsize : Word := BitVec.ofNat 32 Config.dmemSize

/-- Which of ARG0 to ARG7 stands at an offset: 0x040 + 4j (R51). -/
def argIndex (off : Nat) : Option (Fin 8) :=
  if h : 0x040 ≤ off ∧ off < 0x060 then some ⟨(off - 0x040) / 4, by omega⟩ else none

/-- What a 32-bit read of the register area returns (R37): a reserved offset and CTRL read 0 (R46, R83). -/
def State.readReg (s : State) (off : Nat) : Word :=
  match off with
  | 0x000 => regId
  | 0x004 => regParam0
  | 0x008 => regParam1
  | 0x00C => regSigp0
  | 0x010 => regSigp1
  | 0x014 => regDmsize
  | 0x024 => s.status
  | 0x028 => s.cmdl
  | 0x02C => s.result0
  | 0x030 => s.result1
  | _ =>
    match argIndex off with
    | some j => s.args[j]
    | none => 0

/-- What acceptance latches and clears (R48, R57): CMDL, ARGL and the HZ value STATUS shows while BUSY (R381) are taken, BUSY = 1, DONE = 0, EQ, RESULT0 and RESULT1 are 0;
ERR, HZ and KST are kept. -/
def State.latch (s : State) (w : Word) : State :=
  { s with cmdl := w, argl := s.args, hzl := s.hz, busy := true, done := false, eq := false, result0 := 0, result1 := 0 }

/-- Acceptance of a command word, whatever its value (R48). How long the engine then takes is free (R390; log entry 4). -/
def State.accept (s : State) (w : Word) : State :=
  { s.latch w with delay := Config.engineDelay s.choices, choices := s.choices + 1 }

/-- The reset (R370, R371): every piece of the block's state takes its reset value, and a pending command is discarded. What is the
host's and the free values' own place goes on. DESIGN CHOICE (log entry 10): the entropy bytes that a discarded command still sampling
had used do not count as drawn. -/
def State.softReset (s : State) : State :=
  { State.reset with port := s.port, seen := s.seen, drawn := s.drawn, choices := s.choices }

/-- A write to CTRL: SRST [0] wins over HZCLR [1]; both are taken even while BUSY (R46, R371). -/
def State.writeCtrl (s : State) (v : Word) : State :=
  if v.getLsbD 0 then s.softReset else if v.getLsbD 1 then s.setHz false else s

/-- A write to CMD: accepted when BUSY = 0, else dropped with HZ set (R48, R55). -/
def State.writeCmd (s : State) (w : Word) : State := if s.busy then s.setHz true else s.accept w

/-- A write to ARG j: dropped with HZ set while BUSY (R51, R55). -/
def State.writeArg (s : State) (j : Fin 8) (v : Word) : State :=
  if s.busy then s.setHz true else { s with args := s.args.set j v }

/-- A 32-bit write to the register area: read-only registers and reserved offsets ignore it (R38, R83). -/
def State.writeReg (s : State) (off : Nat) (v : Word) : State :=
  match off with
  | 0x020 => s.writeCtrl v
  | 0x028 => s.writeCmd v
  | _ =>
    match argIndex off with
    | some j => s.writeArg j v
    | none => s

/-! ## The DMEM window -/

/-- A host read of `bytes` bytes of DMEM, little-endian (R82); a free value while BUSY (R381). -/
def State.readWindow (s : State) (bytes a : Nat) : Word :=
  BitVec.ofNat 32 (leNat (if s.busy then (List.range bytes).map fun i => Config.busyByte (s.choices + i) else s.readMem a bytes))

/-- The free values a DMEM read while BUSY returns are used up (R381). -/
def State.afterWindowRead (s : State) (bytes : Nat) : State := if s.busy then { s with choices := s.choices + bytes } else s

/-- A host write of `bytes` bytes of DMEM, little-endian (R82): dropped with HZ set while BUSY (R55). -/
def State.writeWindow (s : State) (bytes a : Nat) (v : Word) : State :=
  if s.busy then s.setHz true else s.writeMem a (leBytes bytes v)

/-! ## Accesses -/

/-- Which accesses inside the aperture are legal (R83): in the register area a 32-bit access at an offset ≡ 0 mod 4; in the window an
8-, 16- or 32-bit access that is naturally aligned. -/
def legalAccess (bytes off : Nat) : Bool :=
  if off < Config.windowBase then bytes == 4 && off % 4 == 0
  else (bytes == 1 || bytes == 2 || bytes == 4) && off % bytes == 0

/-- What the host reads at a legal offset. -/
def State.busValue (s : State) (bytes off : Nat) : Word :=
  if off < Config.windowBase then s.readReg off else s.readWindow bytes (off - Config.windowBase)

/-- A read has no side effect on the block (R39, R89); the host has seen the value. -/
def State.afterRead (s : State) (bytes off : Nat) : State :=
  { (if off < Config.windowBase then s else s.afterWindowRead bytes) with
    seen := s.seen ++ [⟨bytes, off, s.busValue bytes off⟩] }

/-- What a legal write does. -/
def State.afterWrite (s : State) (bytes off : Nat) (v : Word) : State :=
  if off < Config.windowBase then s.writeReg off v else s.writeWindow bytes (off - Config.windowBase) v

/-- The block's answer to an access: a refused access is a fault of the host program (R83, R347). -/
def access (bytes off : Nat) (t : State) : Result :=
  if Config.aperture ≤ off then .fault (.outsideBlock off)
  else if !legalAccess bytes off then .fault (.busError bytes off)
  else .next t

/-- One turn of the host: its next access takes effect (R87, R92). WAIT is a read of STATUS that is made again while BUSY = 1
(R122). With no access waiting nothing happens: the block waits (R372, R358). -/
def hostTurn (s : State) : Result :=
  match s.port with
  | [] => .next s
  | .read bytes off :: rest => access bytes off ({ s with port := rest }.afterRead bytes off)
  | .write bytes off v :: rest => access bytes off ({ s with port := rest }.afterWrite bytes off v)
  | .wait :: rest => .next (if s.busy then s else { s with port := rest })

/-- The engine goes next: a command is pending (R86), and the host has no access waiting or has had its turns before it
(R92; log entry 4). -/
def State.engineNext (s : State) : Bool := s.busy && (s.port.isEmpty || s.delay == 0)

/-- The host goes next while a command may be pending: one turn less before the engine's (log entry 4). -/
def State.hostPasses (s : State) : State := { s with delay := s.delay - 1 }

/-- What the engine executes: the word latched in CMDL (R57, R95). -/
def State.command (s : State) : Decoded := decode s.cmdl

/-! ## Host programs (R122, R123) -/

namespace BusAction

/-- `WR off, v`. -/
abbrev wr (off : Nat) (v : Word) : BusAction := .write 4 off v

/-- `RD off`. -/
abbrev rd (off : Nat) : BusAction := .read 4 off

/-- `SETARG j, v`: a write to offset 0x040 + 4j. -/
abbrev setArg (j : Nat) (v : Word) : BusAction := wr (0x040 + 4 * j) v

/-- `ISSUE cmd`: a write of the word to CMD, then WAIT. -/
abbrev issue (w : Word) : List BusAction := [wr 0x028 w, .wait]

/-- `WRB a, bytes`: writes bytes to DMEM[a..]. One 8-bit access for each byte, by rising address: DESIGN CHOICE (log entry 7). -/
def wrb (a : Nat) : Bytes → List BusAction
  | [] => []
  | b :: bs => .write 1 (Config.windowBase + a) (b.setWidth 32) :: wrb (a + 1) bs

/-- `RDB a, n`: reads n DMEM bytes. One 8-bit access for each byte, by rising address: DESIGN CHOICE (log entry 7). -/
def rdb (a n : Nat) : List BusAction := (List.range n).map fun i => .read 1 (Config.windowBase + a + i)

end BusAction

end Sys2Proof.Machine
end

