-- ==== Sys2Proof/Machine/Step.lean ====
section
/-! DEFINITION. One step of the machine: one event of the total order of R92, that is one host access or the engine's step of the
pending command. -/

namespace Sys2Proof.Machine

/-- The engine's step (R86): the latched command is executed; an illegal word completes with ERR = ILLEGAL and no other effect
(R118, R341). -/
def engineTurn (s : State) : Host.Outcome State Fault Refusal :=
  match s.command with
  | .instr i => exec i s
  | .illegal _ => .next (s.raise .illegal)

/-- One step. -/
def step (s : State) : Host.Outcome State Fault Refusal :=
  if s.engineNext then engineTurn s else hostTurn s.hostPasses

/-- `s` with the command word accepted (R48) as the pending command, its ARG values latched, scratch zero, and the engine next: the
very next step executes it (log entry 8). The bits of the word above `nbits` are 0. -/
def State.withFetchWord (s : State) (nbits w : Nat) : State :=
  { s.latch (BitVec.ofNat 32 (w % 2 ^ nbits)) with delay := 0, scratch := Scratch.zero }

end Sys2Proof.Machine
end

