-- ==== Sys2Proof/Safety.lean ====
section
/-! DEFINITION. The terms the statements use: the invariant of the block's state (R32, R48, R49, R53, R57, R58), what the end of a
command leaves (R53, R342), what a command may not touch, and the named premises on the parameter functions (R301, R320). -/

namespace Sys2Proof.Machine

/-! ## The invariant -/

/-- A value in the centred range (R13, R32). -/
abbrev Centred (x : Int) : Prop := -1664 ≤ x ∧ x ≤ 1664

/-- A ring element: 256 centred coefficients (R13). -/
structure IsElem (f : Elem) : Prop where
  length : f.length = 256
  centred : ∀ x ∈ f, Centred x

/-- A map of ring elements that commutes with addition and with multiplication by a constant, mod q (R187). -/
def Linear (T : Elem → Elem) : Prop :=
  ∀ f g : Elem, IsElem f → IsElem g → T (elemAdd f g) = elemAdd (T f) (T g) ∧
    ∀ c : Int, T (f.map fun x => reduce (c * x)) = (T f).map fun x => reduce (c * x)

/-- A register holds centred coefficients (R32), and zeros where it is EMPTY (R34, R157). -/
structure PolyReg.Ok (r : PolyReg) : Prop where
  range : r.tag ≠ .empty → ∀ c ∈ r.poly.elem, Centred c
  zero : r.tag = .empty → r.poly = Poly.zero

/-- What holds in every state the machine reaches. -/
structure State.Inv (s : State) : Prop where
  /-- DMEM is in its canonical form, with every listed address inside DMEM (R35). -/
  mem : Memory.wf s.dmem
  /-- R32. -/
  regs : ∀ r, (s.pr.get r).Ok
  /-- "BUSY = 1 and DONE = 1 never hold together" (R53). -/
  busyDone : ¬ (s.busy = true ∧ s.done = true)
  /-- "Scratch therefore holds only zeros whenever BUSY = 0" (R58). -/
  scratchZero : s.busy = false → s.scratch = Scratch.zero
  /-- ARGL "equals ARG0..ARG7 because those cannot change while BUSY" (R57). -/
  latched : s.busy = true → s.argl = s.args
  /-- EQ, RESULT0 and RESULT1 are 0 while a command is pending (R48, R381). -/
  pendingZero : s.busy = true → s.eq = false ∧ s.result0 = 0 ∧ s.result1 = 0
  /-- "A command that completes with ERR ≠ 0 leaves both at 0" (R49), and EQ with them (R342). -/
  errorZero : s.busy = false → s.err ≠ .ok → s.eq = false ∧ s.result0 = 0 ∧ s.result1 = 0

/-! ## What a command leaves -/

/-- What no command ever changes: CMDL, the ARG registers and ARGL, HZ and its latched value, and the host's side (R51, R55, R57,
R381). -/
structure Kept (s t : State) : Prop where
  cmdl : t.cmdl = s.cmdl
  args : t.args = s.args
  argl : t.argl = s.argl
  hz : t.hz = s.hz
  hzl : t.hzl = s.hzl
  port : t.port = s.port
  seen : t.seen = s.seen

/-- The command is over with a completion code (R53, R54, R58). -/
structure Ended (s t : State) (c : Code) : Prop where
  err : t.err = c
  busy : t.busy = false
  done : t.done = true
  scratch : t.scratch = Scratch.zero
  kept : Kept s t

/-- EQ, KST, RESULT0 and RESULT1 are as they were. -/
structure FlagsKept (s t : State) : Prop where
  eq : t.eq = s.eq
  kst : t.kst = s.kst
  result0 : t.result0 = s.result0
  result1 : t.result1 = s.result1

/-- Every byte of DMEM reads as it did. -/
def BytesKept (s t : State) : Prop := ∀ a, t.byte a = s.byte a

/-- The command ended with code OK and changed at most one polynomial register. -/
structure OnlyReg (rd : PReg) (s t : State) : Prop where
  ended : Ended s t .ok
  regs : ∀ r, r ≠ rd → t.pr.get r = s.pr.get r
  bytes : BytesKept s t
  flags : FlagsKept s t
  drawn : t.drawn = s.drawn

/-- The command ended with code OK and changed no polynomial register and none of EQ, KST, RESULT0 and RESULT1. -/
structure OnlyMem (s t : State) : Prop where
  ended : Ended s t .ok
  regs : t.pr = s.pr
  flags : FlagsKept s t

/-- A precise error (R342): "the state after an error is the state before the command, plus ERR". -/
structure Failed (s t : State) (c : Code) : Prop where
  ended : Ended s t c
  regs : t.pr = s.pr
  bytes : BytesKept s t
  flags : FlagsKept s t

/-- The command is still pending and nothing of it is visible (R86, R215, R348). -/
structure Waits (s t : State) : Prop where
  busy : t.busy = s.busy
  done : t.done = s.done
  err : t.err = s.err
  regs : t.pr = s.pr
  bytes : BytesKept s t
  flags : FlagsKept s t
  kept : Kept s t
  drawn : t.drawn = s.drawn
  goesOn : t.groups = s.groups + 1

/-- What a byte reads after a byte string is written from an address on: the string's byte inside the region, the old one outside. -/
def written (addr : Nat) (b : Bytes) (old : Nat → Byte) (a : Nat) : Byte :=
  if addr ≤ a ∧ a < addr + b.length then b.getD (a - addr) 0 else old a

/-- DMEM after a byte string is written from an address on. -/
def Wrote (s t : State) (addr : Nat) (b : Bytes) : Prop := ∀ a, t.byte a = written addr b s.byte a

/-- A precise error of a command that signs: its key region reads zero, everything else is as before (R304, R342). -/
structure FailedCleared (s t : State) (c : Code) (addr len : Nat) : Prop where
  ended : Ended s t c
  regs : t.pr = s.pr
  bytes : Wrote s t addr (zeros len)
  flags : FlagsKept s t

/-- The end of BLOB_OPEN with a report (R326): the report is written, RESULT0 is its length and RESULT1 says whether a signature
was verified. -/
structure Opened (s t : State) (addr : Nat) (report : Bytes) (verified : Word) : Prop where
  ended : Ended s t .ok
  regs : t.pr = s.pr
  bytes : Wrote s t addr report
  eq : t.eq = s.eq
  kst : t.kst = s.kst
  result0 : t.result0 = BitVec.ofNat 32 report.length
  result1 : t.result1 = verified
  drawn : t.drawn = s.drawn

/-! ## What a statement reads off a state -/

/-- The region leaves DMEM (R84). -/
abbrev OutOf (addr len : Nat) : Prop := Config.dmemSize < addr + len

/-- Bit `p` of the bit string of DMEM from an address on, LSB-first (R12). -/
def State.bit (s : State) (addr p : Nat) : Bool := (s.byte (addr + p / 8)).getLsbD (p % 8)

/-- Value `i` of the values of `d` bits packed in DMEM from an address on (R233). -/
def State.packed (s : State) (d addr i : Nat) : Nat :=
  ((List.range d).map fun t => (s.bit addr (d * i + t)).toNat * 2 ^ t).sum

/-- The little-endian int16 number `i` in DMEM from an address on (R81, R151). -/
def State.int16 (s : State) (addr i : Nat) : BitVec 16 := s.byte (addr + (2 * i + 1)) ++ s.byte (addr + 2 * i)

/-- `n` bytes of the entropy still to be drawn, from byte `k` of it on (R60). -/
def State.entropyBytes (s : State) (k n : Nat) : Bytes := (List.range n).map fun i => Config.entropy (s.drawn + (k + i))

/-- Every coefficient of a polynomial register is given by a formula, and the register's tag is `tag`. -/
def Holds (t : State) (rd : PReg) (tag : Tag) (c : Nat → Int) : Prop := t.tag rd = tag ∧ ∀ i < 256, t.coeff rd i = c i

/-- The accesses R83 makes legal. -/
def LegalAccess (bytes off : Nat) : Prop :=
  (off < 0x10000 ∧ bytes = 4 ∧ off % 4 = 0) ∨
  (0x10000 ≤ off ∧ off < 0x20000 ∧ (bytes = 1 ∨ bytes = 2 ∨ bytes = 4) ∧ off % bytes = 0)

/-- The host's next access reads or writes `bytes` bytes at an offset. -/
def State.Accesses (s : State) (bytes off : Nat) : Prop :=
  (∃ rest, s.port = .read bytes off :: rest) ∨ ∃ v rest, s.port = .write bytes off v :: rest

/-! ## The command set as a table -/

/-- A row of the opcode table: a word is legal when `word &&& mask = value` and IMM4 is one of `imms` (R113, R116). -/
structure OpcodeRow where
  value : Word
  mask : Word
  imms : List (BitVec 4)
  deriving DecidableEq, Repr

/-- The rows of spec/opcode_table.json, in its order (R115). -/
def opcodeRows : List OpcodeRow :=
  [⟨0x00000000, 0xFFFFFFFF, [0]⟩, ⟨0x00000001, 0xF87FE0FF, [0, 1]⟩,
   ⟨0x00000002, 0xFFFC1FFF, [0]⟩, ⟨0x00000003, 0xFFFC00FF, [0]⟩,
   ⟨0x00000004, 0xFF8000FF, [0]⟩, ⟨0x00000005, 0xFF8000FF, [0]⟩,
   ⟨0x00000006, 0xFF801FFF, [0]⟩] ++
  [⟨0x00000007, 0xFFFFE0FF, [0]⟩, ⟨0x0000000F, 0xFFFFFFFF, [0]⟩,
   ⟨0x00000010, 0xFFFC00FF, [0]⟩, ⟨0x00000011, 0xFFFC00FF, [0]⟩,
   ⟨0x00000018, 0xFF8000FF, [0]⟩, ⟨0x00000020, 0xFFFFE0FF, [0]⟩,
   ⟨0x00000021, 0xFFFFE0FF, [0]⟩] ++
  [⟨0x00000028, 0xF87C1FFF, [1, 4, 10]⟩, ⟨0x00000029, 0xF87FE0FF, [1, 4, 10]⟩,
   ⟨0x0000002A, 0xFFFC1FFF, [0]⟩, ⟨0x0000002B, 0xF87FE0FF, [0, 1]⟩,
   ⟨0x00000030, 0xF7FFFFFF, [0]⟩, ⟨0x00000031, 0xF7FFFFFF, [0]⟩,
   ⟨0x00000032, 0xFFFFFFFF, [0]⟩] ++
  [⟨0x00000038, 0xF7FFFFFF, [0]⟩, ⟨0x00000039, 0xF7FFFFFF, [0]⟩,
   ⟨0x0000003A, 0xFFFFFFFF, [0]⟩, ⟨0x00000040, 0xE7FFFFFF, [0]⟩,
   ⟨0x00000041, 0xEFFFFFFF, [0]⟩]

/-- The command is one of the KEM, signature and blob commands (R33). -/
def usesScratchOnly : Instr → Bool
  | .kemKeygen _ | .kemEncaps _ | .kemDecaps | .sigKeygen _ | .sigSign _ | .sigVerify | .blobBuild _ _ | .blobOpen _ => true
  | .nop | .polyLoad _ _ | .polyStore _ | .polyReduce _ _ | .polyAdd _ _ _ | .polySub _ _ _ | .polyEq _ _ | .polyClear _ | .zeroize
  | .nttFwd _ _ | .nttInv _ _ | .pmul _ _ _ | .cbdSample _ | .rejSample _ | .polyCompress _ _ | .polyDecompress _ _
  | .polyPack12 _ | .polyUnpack12 _ _ => false

/-- The command makes draws: a command with random inputs, in its unseeded form (R60, R114). -/
def draws : Instr → Bool
  | .kemKeygen seeded | .kemEncaps seeded | .sigKeygen seeded | .sigSign seeded | .blobBuild seeded _ => !seeded
  | .kemDecaps | .sigVerify | .blobOpen _ | .nop | .polyLoad _ _ | .polyStore _ | .polyReduce _ _ | .polyAdd _ _ _
  | .polySub _ _ _ | .polyEq _ _ | .polyClear _ | .zeroize | .nttFwd _ _ | .nttInv _ _ | .pmul _ _ _ | .cbdSample _ | .rejSample _
  | .polyCompress _ _ | .polyDecompress _ _ | .polyPack12 _ | .polyUnpack12 _ _ => false

/-! ## The static checks, as the command rules list them -/

/-- The source registers of a command, in the order R343 reads them. -/
def sources : Instr → List PReg
  | .polyStore r | .polyReduce _ r | .nttFwd _ r | .nttInv _ r | .polyCompress r _ | .polyPack12 r => [r]
  | .polyAdd _ a b | .polySub _ a b | .polyEq a b | .pmul _ a b => [a, b]
  | .nop | .polyLoad _ _ | .polyClear _ | .zeroize | .cbdSample _ | .rejSample _ | .polyDecompress _ _ | .polyUnpack12 _ _
  | .kemKeygen _ | .kemEncaps _ | .kemDecaps | .sigKeygen _ | .sigSign _ | .sigVerify | .blobBuild _ _ | .blobOpen _ => []

/-- A source register has a domain tag the command does not take (R341). -/
def wrongDomain (s : State) : Instr → Bool
  | .polyAdd _ a b | .polySub _ a b | .polyEq a b => s.tag a != s.tag b
  | .nttFwd _ r | .polyCompress r _ => s.tag r != .coeff
  | .nttInv _ r => s.tag r != .ntt
  | .pmul _ a b => s.tag a != .ntt || s.tag b != .ntt
  | .polyStore _ | .polyReduce _ _ | .polyPack12 _
  | .nop | .polyLoad _ _ | .polyClear _ | .zeroize | .cbdSample _ | .rejSample _ | .polyDecompress _ _ | .polyUnpack12 _ _
  | .kemKeygen _ | .kemEncaps _ | .kemDecaps | .sigKeygen _ | .sigSign _ | .sigVerify | .blobBuild _ _ | .blobOpen _ => false

/-- The region table of a command: address and length of each region (R120). -/
def regions (s : State) : Instr → List (Nat × Nat)
  | .nop | .polyReduce _ _ | .polyAdd _ _ _ | .polySub _ _ _ | .polyEq _ _ | .polyClear _ | .zeroize | .nttFwd _ _ | .nttInv _ _
  | .pmul _ _ _ => []
  | .polyLoad _ _ | .polyStore _ => [(s.arg 0, 512)]
  | .cbdSample _ => [(s.arg 0, 128)]
  | .rejSample _ => [(s.arg 0, 32)]
  | .polyCompress _ imm4 => [(s.arg 0, 32 * imm4.toNat)]
  | .polyDecompress _ _ | .polyUnpack12 _ _ => [(s.arg 0, s.arg 1)]
  | .polyPack12 _ => [(s.arg 0, 384)]
  | .kemKeygen seeded => [(s.arg 0, 1184), (s.arg 1, 2400)] ++ if seeded then [(s.arg 2, 64)] else []
  | .kemEncaps seeded => [(s.arg 0, s.arg 1), (s.arg 2, 1088), (s.arg 3, 32)] ++ if seeded then [(s.arg 4, 32)] else []
  | .kemDecaps => [(s.arg 0, s.arg 1), (s.arg 2, s.arg 3), (s.arg 4, 32)]
  | .sigKeygen seeded => [(s.arg 0, sigSkLen), (s.arg 1, sigVkLen)] ++ if seeded then [(s.arg 2, sigSeedLen)] else []
  | .sigSign seeded => [(s.arg 0, s.arg 1), (s.arg 2, s.arg 3), (s.arg 4, sigLen)] ++ if seeded then [(s.arg 5, sigRndLen)] else []
  | .sigVerify => [(s.arg 0, s.arg 1), (s.arg 2, s.arg 3), (s.arg 4, s.arg 5)]
  | .blobBuild seeded signed =>
    [(s.arg 0, s.arg 1), (s.arg 2, s.arg 3)] ++ (if signed then [(s.arg 4, s.arg 5)] else []) ++
      [(s.arg 6, 1116 + s.arg 1 + if signed then sigLen else 0)] ++
      if seeded then [(s.arg 7, 44 + if signed then sigRndLen else 0)] else []
  | .blobOpen _ => [(s.arg 0, s.arg 1), (s.arg 2, s.arg 3), (s.arg 4, s.arg 1 - 1116)]

/-- The length checks of a command: a length and the value it must have. -/
def lengths (s : State) : Instr → List (Nat × Nat)
  | .polyDecompress _ imm4 => [(s.arg 1, 32 * imm4.toNat)]
  | .polyUnpack12 _ _ => [(s.arg 1, 384)]
  | .kemEncaps _ => [(s.arg 1, 1184)]
  | .kemDecaps => [(s.arg 1, 2400), (s.arg 3, 1088)]
  | .sigSign _ => [(s.arg 1, sigSkLen)]
  | .sigVerify => [(s.arg 1, sigVkLen), (s.arg 5, sigLen)]
  | .blobBuild _ signed => [(s.arg 3, 1184)] ++ if signed then [(s.arg 5, sigSkLen)] else []
  | .blobOpen _ => [(s.arg 3, 2400)]
  | .nop | .polyLoad _ _ | .polyStore _ | .polyReduce _ _ | .polyAdd _ _ _ | .polySub _ _ _ | .polyEq _ _ | .polyClear _ | .zeroize
  | .nttFwd _ _ | .nttInv _ _ | .pmul _ _ _ | .cbdSample _ | .rejSample _ | .polyCompress _ _ | .polyPack12 _ | .kemKeygen _
  | .sigKeygen _ => []

/-- The blob is too short to hold its ciphertext, nonce and tag (R343 step 6). -/
def shortBlob (s : State) : Instr → Bool
  | .blobOpen _ => decide (s.arg 1 < 1116)
  | .nop | .polyLoad _ _ | .polyStore _ | .polyReduce _ _ | .polyAdd _ _ _ | .polySub _ _ _ | .polyEq _ _ | .polyClear _ | .zeroize
  | .nttFwd _ _ | .nttInv _ _ | .pmul _ _ _ | .cbdSample _ | .rejSample _ | .polyCompress _ _ | .polyDecompress _ _
  | .polyPack12 _ | .polyUnpack12 _ _ | .kemKeygen _ | .kemEncaps _ | .kemDecaps | .sigKeygen _ | .sigSign _ | .sigVerify
  | .blobBuild _ _ => false

/-- The first failing static check after ILLEGAL: steps 2 to 6 of R343, in their order. -/
def staticError (s : State) (i : Instr) : Option Code :=
  firstError ((sources i).map (fun r => (s.tag r == .empty, .uninit)) ++ [(wrongDomain s i, .domain)] ++
    (regions s i).map (fun r => (decide (OutOf r.1 r.2), .bounds)) ++ (lengths s i).map (fun p => (p.1 != p.2, .format)) ++
    [(shortBlob s i, .auth)])

/-- The codes a command's dynamic checks raise (R343 step 7). -/
def dynamicErrors : Instr → List Code
  | .polyUnpack12 _ _ | .kemEncaps _ | .kemDecaps | .sigSign _ | .blobBuild _ _ => [.format]
  | .blobOpen signed => if signed then [.auth, .format, .sigInv] else [.format, .auth]
  | .nop | .polyLoad _ _ | .polyStore _ | .polyReduce _ _ | .polyAdd _ _ _ | .polySub _ _ _ | .polyEq _ _ | .polyClear _ | .zeroize
  | .nttFwd _ _ | .nttInv _ _ | .pmul _ _ _ | .cbdSample _ | .rejSample _ | .polyCompress _ _ | .polyDecompress _ _
  | .polyPack12 _ | .kemKeygen _ | .sigKeygen _ | .sigVerify => []

/-! ## Signing keys -/

/-- The signing-key region of a command that signs: address and length (R304). -/
def signingKey (i : Instr) (s : State) : Option (Nat × Nat) :=
  match i with
  | .sigSign _ => some (s.arg 0, s.arg 1)
  | .blobBuild _ true => some (s.arg 4, s.arg 5)
  | _ => none

/-- The regions that come before the signing key in the command's region table (R306, R325). -/
def beforeKey (i : Instr) (s : State) : List (Nat × Nat) :=
  match i with
  | .blobBuild _ true => [(s.arg 0, s.arg 1), (s.arg 2, s.arg 3)]
  | _ => []

/-- The output region of a command that signs: address and length (R306, R325). -/
def signedOutput (i : Instr) (s : State) : Nat × Nat :=
  match i with
  | .blobBuild _ true => (s.arg 6, 1116 + s.arg 1 + sigLen)
  | _ => (s.arg 4, sigLen)

/-! ## Products of vectors -/

/-- Σ f[k] ⊛ g[k] over the three entries of two vectors of coefficient-domain elements (R201, R260). -/
def ringDot (f g : Nat → Elem) : Elem :=
  elemAdd (elemAdd (ringMul (f 0) (g 0)) (ringMul (f 1) (g 1))) (ringMul (f 2) (g 2))

/-! ## Sampling that never ends -/

/-- "If the stream holds fewer than 256 twelve-bit values below q, the loop never ends" (R215). -/
def RejHangs (str : Nat → Byte) : Prop := ∀ fuel, rejLoop str fuel 0 [] = none

/-- The XOF streams of the nine entries of the matrix of a seed: row i, column j from ρ ‖ j ‖ i (R216). -/
def matrixStreams (rho : Bytes) : List (Nat → Byte) :=
  (List.range 3).flatMap fun i => (List.range 3).map fun j => Config.params.xofA (rho ++ [BitVec.ofNat 8 j, BitVec.ofNat 8 i])

/-- The XOF streams a command samples from (R215, R261, R262). -/
def streams (s : State) : Instr → List (Nat → Byte)
  | .rejSample _ => [Config.params.xofA (s.readMem (s.arg 0) 32 ++ [BitVec.ofNat 8 (s.arg 2), BitVec.ofNat 8 (s.arg 1)])]
  | .kemKeygen seeded =>
    matrixStreams ((Config.params.hashG (if seeded then s.readMem (s.arg 2) 32 else s.entropyBytes 0 32)).toList.take 32)
  | .kemEncaps _ => matrixStreams (s.readMem (s.arg 0) 32)
  | .kemDecaps => matrixStreams (s.readMem (s.arg 0 + 1152) 32)
  | .blobBuild _ _ => matrixStreams (s.readMem (s.arg 2) 32)
  | .blobOpen _ => matrixStreams (s.readMem (s.arg 2 + 1152) 32)
  | .nop | .polyLoad _ _ | .polyStore _ | .polyReduce _ _ | .polyAdd _ _ _ | .polySub _ _ _ | .polyEq _ _ | .polyClear _ | .zeroize
  | .nttFwd _ _ | .nttInv _ _ | .pmul _ _ _ | .cbdSample _ | .polyCompress _ _ | .polyDecompress _ _ | .polyPack12 _
  | .polyUnpack12 _ _ | .sigKeygen _ | .sigSign _ | .sigVerify => []

/-- The dynamic checks a command makes before it samples pass: its keys parse, and its signing key can be used (R267, R269, R300). -/
def reachesSampling (s : State) : Instr → Bool
  | .rejSample _ | .kemKeygen _ => true
  | .kemEncaps _ => (parsePk (s.readMem (s.arg 0) 1184)).isSome
  | .kemDecaps => (parseSk (s.readMem (s.arg 0) 2400)).isSome
  | .blobBuild _ signed =>
    (parsePk (s.readMem (s.arg 2) 1184)).isSome && (!signed || Config.params.sigUsable (s.readMem (s.arg 4) sigSkLen))
  | .blobOpen _ => (parseSk (s.readMem (s.arg 2) 2400)).isSome
  | .nop | .polyLoad _ _ | .polyStore _ | .polyReduce _ _ | .polyAdd _ _ _ | .polySub _ _ _ | .polyEq _ _ | .polyClear _ | .zeroize
  | .nttFwd _ _ | .nttInv _ _ | .pmul _ _ _ | .cbdSample _ | .polyCompress _ _ | .polyDecompress _ _ | .polyPack12 _
  | .polyUnpack12 _ _ | .sigKeygen _ | .sigSign _ | .sigVerify => false

/-- A hung command (R348): it is pending, none of its checks fails, and one of its streams never holds 256 values. -/
structure Hangs (s : State) (i : Instr) : Prop where
  busy : s.busy = true
  command : decode s.cmdl = .instr i
  static : staticError s i = none
  dynamic : reachesSampling s i = true
  stream : ∃ str ∈ streams s i, RejHangs str

/-- The next step is the host's, and it writes 1 to CTRL.SRST (R371). -/
def State.ResetsNext (s : State) : Prop := s.delay ≠ 0 ∧ ∃ (v : Word) (rest : List BusAction),
  s.port = .write 4 0x020 v :: rest ∧ v.getLsbD 0 = true

/-! ## Named premises on the parameter functions -/

/-- AEAD-CORRECT (R320). -/
def AeadCorrect (P : Config.Params) : Prop :=
  ∀ k n a p, (P.aeadOpen k n a (P.aeadSeal k n a p).toList).map Vector.toList = some p

/-- SIG-CORRECT (R301). The seed and the randomness range over byte strings of every length, as the functions do: DESIGN CHOICE (log
entry 1). -/
def SigCorrect (P : Config.Params) : Prop :=
  ∀ seed msg rnd, ∃ sig, signMessage P (P.sigKeygen seed).1.toList msg rnd = some sig ∧
    P.sigVerify (P.sigKeygen seed).2.toList msg sig = true

end Sys2Proof.Machine
end

