-- ==== Sys2Proof/Certificates/Slice0/Obligations.lean ====
section
/-! DEFINITION. The statements about the machine, for the provers. Each docstring names the rules of spec/ a statement formalises.
A statement about the free values or the parameter functions holds whatever they are. -/

open Sys2Proof Sys2Proof.Machine

/-! ## Encoding -/

/-- Decoding undoes encoding, for every well-formed command and every value of its operands (R111, R112, R116). -/
def Obligations.DecodeOfEncode : Prop := ∀ i : Instr, i.wf = true → decode (encode i) = .instr i

/-- A legal word is the word of the command it decodes to, and that command is well formed: no word means two things and no bit of
a legal word is dropped (R111, R116). -/
def Obligations.EncodeOfDecode : Prop := ∀ (w : Word) (i : Instr), decode w = .instr i → i.wf = true ∧ encode i = w

/-- The decoder accepts exactly the words of the opcode table: those that match a row's mask with a legal IMM4 (R113, R116). -/
def Obligations.LegalWordsAreTheTable : Prop :=
  ∀ w : Word, (∃ i, decode w = .instr i) ↔ ∃ r ∈ opcodeRows, w &&& r.mask = r.value ∧ w.extractLsb' 23 4 ∈ r.imms

/-- The words R128 writes out decode to the commands it names, and its illegal examples are refused; with them two words that V7 of the
test vectors writes out, REJ_SAMPLE p7 and SIG_VERIFY. -/
def Obligations.SpecWordsDecode : Prop :=
  decode 0x00000000 = .instr .nop ∧ decode 0x00000101 = .instr (.polyLoad 1 0) ∧ decode 0x00800101 = .instr (.polyLoad 1 1) ∧
  decode 0x00006002 = .instr (.polyStore 3) ∧ decode 0x00082304 = .instr (.polyAdd 3 1 2) ∧
  decode 0x000C2006 = .instr (.polyEq 1 3) ∧ decode 0x00002210 = .instr (.nttFwd 2 1) ∧
  decode 0x00004311 = .instr (.nttInv 3 2) ∧ decode 0x000C4418 = .instr (.pmul 4 2 3) ∧
  decode 0x05008028 = .instr (.polyCompress 4 10) ∧ decode 0x02000529 = .instr (.polyDecompress 5 4) ∧
  decode 0x08000030 = .instr (.kemKeygen true) ∧ decode 0x08000031 = .instr (.kemEncaps true) ∧
  decode 0x00000032 = .instr .kemDecaps ∧ decode 0x18000040 = .instr (.blobBuild true true) ∧
  decode 0x10000041 = .instr (.blobOpen true) ∧ decode 0x00000104 = .instr (.polyAdd 1 0 0) ∧
  decode 0x00000721 = .instr (.rejSample 7) ∧ decode 0x0000003A = .instr .sigVerify ∧
  decode 0x00000008 = .illegal .unassignedOpcode ∧ decode 0x20000000 = .illegal .reservedBits ∧
  decode 0x00000100 = .illegal .unusedField ∧ decode 0x01008028 = .illegal .illegalImmediate ∧
  decode 0x08000032 = .illegal .strayFlag

/-! ## The step -/

/-- Where a command is pending and the engine goes next, a step is the execution of the command the latched word decodes to; else a
step is the host's turn, after which the engine is one turn nearer (R57, R86, R92; whose turn it is follows log entry 4). -/
def Obligations.StepRunsThePendingCommand : Prop :=
  (∀ (s : State) (i : Instr), s.busy = true → s.port = [] ∨ s.delay = 0 → decode s.cmdl = .instr i → step s = exec i s) ∧
  ∀ s : State, s.busy = false ∨ s.port ≠ [] ∧ s.delay ≠ 0 → step s = hostTurn { s with delay := s.delay - 1 }

/-- An illegal word completes with code ILLEGAL and no other effect (R118, R341). -/
def Obligations.IllegalWordCompletes : Prop :=
  ∀ (s : State) (why : IllegalWord), s.busy = true → s.port = [] ∨ s.delay = 0 → decode s.cmdl = .illegal why →
    ∃ t, step s = .next t ∧ Failed s t .illegal ∧ t.drawn = s.drawn

/-- A step that executes a well-formed command reports the first failing static check in the order of R343: UNINIT, DOMAIN, BOUNDS,
FORMAT, AUTH. Where none fails, the command ends with OK or with one of the codes of its own dynamic checks, or it is still
sampling. It never stops the machine (R342, R343, R345). That a command goes on sampling in a later step, and at which pace, is the
model's choice (log entry 6). -/
def Obligations.CheckOrder : Prop :=
  ∀ (s : State) (i : Instr), i.wf = true → ∃ t, exec i s = .next t ∧
    match staticError s i with
    | some c => Ended s t c
    | none => Waits s t ∨ Ended s t .ok ∨ ∃ c ∈ dynamicErrors i, Ended s t c

/-- A command that ends with an error zeroises scratch, leaves RESULT0, RESULT1, EQ, KST and every polynomial register as they were at its start, and
changes at most bytes of its signing key's region, which then read 0 (R342, R304). That the region is cleared, and when, is the matter of
SigningKeyIsCleared. -/
def Obligations.ErrorsArePrecise : Prop :=
  ∀ (i : Instr) (s t : State), exec i s = .next t → s.busy = true → t.busy = false → t.err ≠ .ok →
    Ended s t t.err ∧ t.pr = s.pr ∧ FlagsKept s t ∧
    ∀ a, t.byte a ≠ s.byte a → t.byte a = 0 ∧ ∃ addr len, signingKey i s = some (addr, len) ∧ addr ≤ a ∧ a < addr + len

/-- Once the regions up to and including the signing key's are in bounds, a command that signs leaves its key region zero however it
ends, but for bytes its output was written to; where the key region leaves DMEM nothing is cleared (R304). What happens where an
earlier region of BLOB_BUILD leaves DMEM is not part of this statement (log entry 9). -/
def Obligations.SigningKeyIsCleared : Prop :=
  ∀ (i : Instr) (s t : State) (addr len : Nat), signingKey i s = some (addr, len) →
    (∀ r ∈ beforeKey i s, ¬ OutOf r.1 r.2) → exec i s = .next t → s.busy = true → t.busy = false →
    if OutOf addr len then BytesKept s t
    else ∀ a, addr ≤ a → a < addr + len →
      t.byte a = 0 ∨ t.err = .ok ∧ (signedOutput i s).1 ≤ a ∧ a < (signedOutput i s).1 + (signedOutput i s).2

/-- KST is changed only by the KEM commands and ZEROIZE, and EQ only by POLY_EQ, when they end with OK (R52, R56). -/
def Obligations.WhoWritesKstAndEq : Prop :=
  ∀ (i : Instr) (s t : State), exec i s = .next t → s.busy = true →
    (t.kst = if t.busy = false ∧ t.err = .ok then
        match i with
        | .kemKeygen _ => .keyGenerated
        | .kemEncaps _ => .encapsulated
        | .kemDecaps => .decapsulated
        | .zeroize => .uninitialized
        | _ => s.kst
      else s.kst) ∧
    t.eq = if t.busy = false ∧ t.err = .ok then
        match i with
        | .polyEq rs1 rs2 => decide (s.elem rs1 = s.elem rs2)
        | _ => s.eq
      else s.eq

/-- No KEM, signature or blob command reads or writes a polynomial register (R33). -/
def Obligations.ByteCommandsIgnoreRegisters : Prop :=
  ∀ (i : Instr) (s t : State) (f : RegFile), usesScratchOnly i = true → exec i s = .next t →
    t.pr = s.pr ∧ exec i { s with pr := f } = .next { t with pr := f }

/-- A command that makes no draw leaves the entropy as it is and does not depend on it; a seeded command makes none (R60, R114). -/
def Obligations.SeededCommandsDrawNothing : Prop :=
  ∀ (i : Instr) (s t : State) (k : Nat), draws i = false → exec i s = .next t →
    t.drawn = s.drawn ∧ exec i { s with drawn := k } = .next { t with drawn := k }

/-- The engine reads the latched argument values, never the live CMD and ARG registers, and no command writes these (R51, R57). -/
def Obligations.EngineReadsLatchedArguments : Prop :=
  ∀ (i : Instr) (s t : State) (w : Word) (a : Vector Word 8), exec i s = .next t →
    t.cmdl = s.cmdl ∧ t.args = s.args ∧ t.argl = s.argl ∧
    exec i { s with cmdl := w, args := a } = .next { t with cmdl := w, args := a }

/-! ## Reset and the invariant -/

/-- The reset values of all state (R63, R370). -/
def Obligations.ResetValues : Prop :=
  (∀ r : PReg, State.reset.tag r = .empty ∧ ∀ i < 256, State.reset.coeff r i = 0) ∧ (∀ a, State.reset.byte a = 0) ∧
  State.reset.status = 0 ∧ State.reset.cmdl = 0 ∧ (∀ j : Fin 8, State.reset.args[j] = 0 ∧ State.reset.argl[j] = 0) ∧
  State.reset.result0 = 0 ∧ State.reset.result1 = 0 ∧ State.reset.scratch = Scratch.zero ∧ State.reset.busy = false ∧
  State.reset.readReg 0x020 = 0 ∧ State.reset.readReg 0x000 = 0x4D500301 ∧ State.reset.readReg 0x004 = 0x01000D01 ∧
  State.reset.readReg 0x008 = 0x00204A23 ∧ State.reset.readReg 0x014 = 0x00010000 ∧
  State.reset.readReg 0x00C = Config.params.sigVkLen ++ Config.params.sigLen ∧
  State.reset.readReg 0x010 = Config.params.sigRndLen ++ Config.params.sigSeedLen ++ Config.params.sigSkLen

/-- The invariant holds after reset. -/
def Obligations.InvariantAtReset : Prop := State.reset.Inv

/-- Every step keeps the invariant: DMEM stays canonical, every register that is not EMPTY stays centred and every EMPTY one zero
(R32), BUSY and DONE never hold together (R53), every location of scratch is zero while idle (R58), the latched arguments equal the ARG registers while
a command is pending (R57), and the results of a pending or failed command are 0 (R48, R49). -/
def Obligations.InvariantKept : Prop := ∀ s t : State, s.Inv → step s = .next t → t.Inv

/-! ## The host's port -/

/-- A CMD write: accepted when BUSY = 0, whatever the word; dropped, with HZ set, when BUSY = 1; and CMD reads the last accepted
word (R48). That an acceptance latches the HZ flag in `hzl` is log entry 15, and whose turn it is follows log entry 4. -/
def Obligations.CommandAcceptance : Prop :=
  (∀ (s : State) (w : Word) (rest : List BusAction), s.port = .write 4 0x028 w :: rest → s.busy = false →
    ∃ t, step s = .next t ∧ t.cmdl = w ∧ t.argl = s.args ∧ t.busy = true ∧ t.done = false ∧ t.eq = false ∧ t.result0 = 0 ∧
      t.result1 = 0 ∧ t.err = s.err ∧ t.hz = s.hz ∧ t.hzl = s.hz ∧ t.kst = s.kst ∧ t.args = s.args ∧ t.pr = s.pr ∧ t.dmem = s.dmem ∧
      t.scratch = s.scratch ∧ t.port = rest ∧ t.seen = s.seen ∧ t.drawn = s.drawn) ∧
  (∀ (s : State) (w : Word) (rest : List BusAction), s.port = .write 4 0x028 w :: rest → s.busy = true → s.delay ≠ 0 →
    step s = .next { s with hz := true, port := rest, delay := s.delay - 1 }) ∧
  ∀ s : State, s.readReg 0x028 = s.cmdl

/-- HZ: a write to CMD, ARG or DMEM while BUSY is dropped and sets it; nothing else sets it; and only HZCLR or a soft reset clears
it (R55). Register reads while BUSY show the values from before the command (R381): right after an acceptance STATUS reads BUSY = 1,
DONE = 0, EQ = 0 and the ERR, HZ and KST of before it, RESULT0 and RESULT1 read 0 and CMD reads the word; and a step after which the
command is still pending leaves what every register reads as it was. So a write dropped or an HZCLR taken while BUSY changes the flag
(R48, R55, R371) and shows when the command is over (log entry 15). -/
def Obligations.HazardFlag : Prop :=
  (∀ (s : State) (bytes off : Nat) (v : Word) (rest : List BusAction), s.port = .write bytes off v :: rest → s.busy = true →
    s.delay ≠ 0 → LegalAccess bytes off → (off = 0x028 ∨ 0x040 ≤ off ∧ off < 0x060 ∨ 0x10000 ≤ off) →
    step s = .next { s with hz := true, port := rest, delay := s.delay - 1 }) ∧
  (∀ s t : State, step s = .next t → s.hz = false → t.hz = true →
    s.busy = true ∧ ∃ bytes off v rest, s.port = .write bytes off v :: rest ∧ LegalAccess bytes off ∧
      (off = 0x028 ∨ 0x040 ≤ off ∧ off < 0x060 ∨ 0x10000 ≤ off)) ∧
  (∀ s t : State, step s = .next t → s.hz = true → t.hz = false →
    ∃ (v : Word) (rest : List BusAction), s.port = .write 4 0x020 v :: rest ∧ (v.getLsbD 0 = true ∨ v.getLsbD 1 = true)) ∧
  (∀ (s : State) (w : Word) (rest : List BusAction), s.port = .write 4 0x028 w :: rest → s.busy = false →
    ∃ t, step s = .next t ∧ t.busy = true ∧ t.readReg 0x028 = w ∧ t.readReg 0x02C = 0 ∧ t.readReg 0x030 = 0 ∧
      t.readReg 0x024 = (0 : BitVec 18) ++ s.kst.bits ++ (0 : BitVec 2) ++ BitVec.ofBool s.hz ++ BitVec.ofBool false ++ s.err.bits ++
        (0 : BitVec 2) ++ BitVec.ofBool false ++ BitVec.ofBool true) ∧
  (∀ s t : State, step s = .next t → s.busy = true → t.busy = true → ∀ off, t.readReg off = s.readReg off) ∧
  ∀ (s t : State) (i : Instr), s.busy = true → exec i s = .next t → t.busy = false →
    ((t.readReg 0x024).getLsbD 9 = true ↔ s.hz = true)

/-- A CTRL write, taken whatever BUSY is: bit 0 resets the whole block and discards a pending command; else bit 1 clears HZ and does
nothing else; else nothing happens (R46, R371). What the host still waits to do, what it has read and the indices of the free values
are not the block's state and are kept (log entry 10). -/
def Obligations.ControlWrites : Prop :=
  ∀ (s : State) (v : Word) (rest : List BusAction), s.port = .write 4 0x020 v :: rest → s.busy = false ∨ s.delay ≠ 0 →
    step s = .next (if v.getLsbD 0 then
        { State.reset with port := rest, seen := s.seen, drawn := s.drawn, choices := s.choices }
      else { s with hz := s.hz && !v.getLsbD 1, port := rest, delay := s.delay - 1 })

/-- The register map: what an aligned 32-bit read of each offset of the register area returns, pending command or not; a reserved
offset and CTRL read 0 (R37, R40 to R49, R51, R83, R381). STATUS shows the HZ flag while idle and, while BUSY, the
one latched at acceptance: the model's reading of R381, under which a flag changed while BUSY shows when the command is over (log entry
15). A read changes nothing of the block (R39). Whose turn it is follows log entry 4. -/
def Obligations.RegisterMap : Prop :=
  (∀ s : State, s.readReg 0x000 = 0x4D500301 ∧ s.readReg 0x004 = 0x01000D01 ∧ s.readReg 0x008 = 0x00204A23 ∧
    s.readReg 0x00C = Config.params.sigVkLen ++ Config.params.sigLen ∧
    s.readReg 0x010 = Config.params.sigRndLen ++ Config.params.sigSeedLen ++ Config.params.sigSkLen ∧
    s.readReg 0x014 = 0x00010000 ∧ s.readReg 0x020 = 0 ∧ s.readReg 0x028 = s.cmdl ∧ s.readReg 0x02C = s.result0 ∧
    s.readReg 0x030 = s.result1 ∧ (∀ j : Fin 8, s.readReg (0x040 + 4 * j.val) = s.args[j]) ∧
    s.readReg 0x024 = (0 : BitVec 18) ++ s.kst.bits ++ (0 : BitVec 2) ++ BitVec.ofBool (if s.busy then s.hzl else s.hz) ++ BitVec.ofBool s.eq ++ s.err.bits ++
      (0 : BitVec 2) ++ BitVec.ofBool s.done ++ BitVec.ofBool s.busy) ∧
  (∀ (s : State) (off : Nat), off ∈ [0x018, 0x01C, 0x034, 0x038, 0x03C] ∨ 0x060 ≤ off → s.readReg off = 0) ∧
  ∀ (s : State) (off : Nat) (rest : List BusAction), s.port = .read 4 off :: rest → off < 0x10000 → off % 4 = 0 →
    s.busy = false ∨ s.delay ≠ 0 →
    step s = .next { s with port := rest, delay := s.delay - 1, seen := s.seen ++ [⟨4, off, s.readReg off⟩] }

/-- An aligned 32-bit write: an ARG register takes the value when BUSY = 0 (R51), and a read-only register or a reserved offset
ignores it and sets no flag, even while BUSY (R38, R83). -/
def Obligations.RegisterWrites : Prop :=
  (∀ (s : State) (j : Fin 8) (v : Word) (rest : List BusAction), s.port = .write 4 (0x040 + 4 * j.val) v :: rest → s.busy = false →
    step s = .next { s with args := s.args.set j v, port := rest, delay := s.delay - 1 }) ∧
  ∀ (s : State) (off : Nat) (v : Word) (rest : List BusAction), s.port = .write 4 off v :: rest → off < 0x10000 → off % 4 = 0 →
    off ≠ 0x020 → off ≠ 0x028 → off < 0x040 ∨ 0x060 ≤ off → s.busy = false ∨ s.delay ≠ 0 →
    step s = .next { s with port := rest, delay := s.delay - 1 }

/-- The DMEM window, for 8-, 16- and 32-bit accesses. When BUSY = 0 a write stores the value's bytes, least significant first, and
changes no other byte and no other state, and a read returns the bytes in the same order (R82, R87). When BUSY = 1 a read returns some
value of its width and changes nothing of the block (R39, R89, R381); the value is free (log entry 3), and whose turn it is follows log
entry 4. A write while BUSY = 1 is dropped: HazardFlag. -/
def Obligations.DmemWindow : Prop :=
  (∀ (s : State) (bytes a : Nat) (v : Word) (rest : List BusAction), s.port = .write bytes (0x10000 + a) v :: rest →
    s.busy = false → LegalAccess bytes (0x10000 + a) →
    ∃ m, step s = .next { s with dmem := m, port := rest, delay := s.delay - 1 } ∧
      (∀ j < bytes, Memory.read m (a + j) = v.extractLsb' (8 * j) 8) ∧
      ∀ x, x < a ∨ a + bytes ≤ x → Memory.read m x = s.byte x) ∧
  (∀ (s : State) (bytes a : Nat) (rest : List BusAction), s.port = .read bytes (0x10000 + a) :: rest → s.busy = false →
    LegalAccess bytes (0x10000 + a) →
    ∃ v : Word, v.toNat = ((List.range bytes).map fun j => (s.byte (a + j)).toNat * 256 ^ j).sum ∧
      step s = .next { s with port := rest, delay := s.delay - 1, seen := s.seen ++ [⟨bytes, 0x10000 + a, v⟩] }) ∧
  ∀ (s : State) (bytes a : Nat) (rest : List BusAction), s.port = .read bytes (0x10000 + a) :: rest → s.busy = true → s.delay ≠ 0 →
    LegalAccess bytes (0x10000 + a) →
    ∃ (v : Word) (k : Nat), v.toNat < 256 ^ bytes ∧
      step s = .next { s with
        port := rest, delay := s.delay - 1, choices := k, seen := s.seen ++ [⟨bytes, 0x10000 + a, v⟩] }

/-- A step stops exactly when it is the host's turn and its access is one R83 refuses or one outside the block, and it never refuses. That
such an access ends the run is the model's reading of "a model treats it as a fault of the host program" (R83, R347; log entry 12), and
whose turn it is follows log entry 4. -/
def Obligations.OnlyRefusedAccessesStop : Prop :=
  (∀ s : State, (∃ f, step s = .fault f) ↔
    (s.busy = false ∨ s.delay ≠ 0) ∧ ∃ bytes off, s.Accesses bytes off ∧ ¬ LegalAccess bytes off) ∧
  ∀ (s : State) (r : Refusal), step s ≠ .refused r

/-! ## Ring arithmetic and control commands -/

/-- Reduce(x) is the one y with y ≡ x (mod q) and −1664 ≤ y ≤ 1664 (R150), and sums and products may be reduced in any order (R161). -/
def Obligations.ReduceIsCentred : Prop :=
  (∀ x : Int, reduce x % 3329 = x % 3329 ∧ -1664 ≤ reduce x ∧ reduce x ≤ 1664 ∧
    ∀ y : Int, y % 3329 = x % 3329 → -1664 ≤ y → y ≤ 1664 → y = reduce x) ∧
  ∀ a b : Int, reduce (reduce a + reduce b) = reduce (a + b) ∧ reduce (reduce a * reduce b) = reduce (a * b)

/-- POLY_LOAD reduces 256 little-endian int16 values into RD (R151). -/
def Obligations.PolyLoadReducesInt16 : Prop :=
  ∀ (s : State) (rd : PReg) (imm4 : BitVec 4), ∃ t, exec (.polyLoad rd imm4) s = .next t ∧
    if imm4 ≠ 0 ∧ imm4 ≠ 1 then Failed s t .illegal
    else if OutOf (s.arg 0) 512 then Failed s t .bounds
    else OnlyReg rd s t ∧ Holds t rd (if imm4 = 0 then .coeff else .ntt) fun i => reduce (s.int16 (s.arg 0) i).toInt

/-- POLY_STORE writes the 256 coefficients of RS1 as little-endian int16 values (R152). -/
def Obligations.PolyStoreWritesInt16 : Prop :=
  ∀ (s : State) (rs1 : PReg), ∃ t, exec (.polyStore rs1) s = .next t ∧
    if s.tag rs1 = .empty then Failed s t .uninit
    else if OutOf (s.arg 0) 512 then Failed s t .bounds
    else OnlyMem s t ∧ t.drawn = s.drawn ∧ (∀ a, a < s.arg 0 ∨ s.arg 0 + 512 ≤ a → t.byte a = s.byte a) ∧
      ∀ i < 256, t.int16 (s.arg 0) i = BitVec.ofInt 16 (s.coeff rs1 i)

/-- POLY_REDUCE writes the reduced coefficients of RS1 and its tag to RD (R153); where RS1 is centred that is a copy (R32). -/
def Obligations.PolyReduceCopies : Prop :=
  ∀ (s : State) (rd rs1 : PReg), ∃ t, exec (.polyReduce rd rs1) s = .next t ∧
    if s.tag rs1 = .empty then Failed s t .uninit
    else OnlyReg rd s t ∧ Holds t rd (s.tag rs1) (fun i => reduce (s.coeff rs1 i)) ∧
      ((s.pr.get rs1).Ok → t.pr.get rd = s.pr.get rs1)

/-- POLY_ADD and POLY_SUB: coefficient-wise sum and difference mod q, with the operands' tag (R154, R155). -/
def Obligations.PolyAddAndSub : Prop :=
  ∀ (s : State) (rd rs1 rs2 : PReg),
    (∃ t, exec (.polyAdd rd rs1 rs2) s = .next t ∧
      if s.tag rs1 = .empty ∨ s.tag rs2 = .empty then Failed s t .uninit
      else if s.tag rs1 ≠ s.tag rs2 then Failed s t .domain
      else OnlyReg rd s t ∧ Holds t rd (s.tag rs1) fun i => reduce (s.coeff rs1 i + s.coeff rs2 i)) ∧
    ∃ t, exec (.polySub rd rs1 rs2) s = .next t ∧
      if s.tag rs1 = .empty ∨ s.tag rs2 = .empty then Failed s t .uninit
      else if s.tag rs1 ≠ s.tag rs2 then Failed s t .domain
      else OnlyReg rd s t ∧ Holds t rd (s.tag rs1) fun i => reduce (s.coeff rs1 i - s.coeff rs2 i)

/-- POLY_EQ: EQ and RESULT0 say whether all 256 coefficients are equal, and nothing else changes (R156). -/
def Obligations.PolyEqCompares : Prop :=
  ∀ (s : State) (rs1 rs2 : PReg), ∃ t, exec (.polyEq rs1 rs2) s = .next t ∧
    if s.tag rs1 = .empty ∨ s.tag rs2 = .empty then Failed s t .uninit
    else if s.tag rs1 ≠ s.tag rs2 then Failed s t .domain
    else Ended s t .ok ∧ t.pr = s.pr ∧ BytesKept s t ∧ t.kst = s.kst ∧ t.result1 = s.result1 ∧ t.drawn = s.drawn ∧
      (t.eq = true ↔ ∀ i < 256, s.coeff rs1 i = s.coeff rs2 i) ∧ t.result0 = if t.eq then 1 else 0

/-- NOP completes with code OK and changes nothing else (R159); POLY_CLEAR zeroes RD and marks it EMPTY (R157); ZEROIZE zeroes every
DMEM byte, empties every register and sets KST = 0, while ARG, CMDL and HZ are kept (R158). -/
def Obligations.NopClearAndZeroize : Prop :=
  ∀ s : State,
    (∃ t, exec .nop s = .next t ∧ OnlyMem s t ∧ BytesKept s t ∧ t.drawn = s.drawn) ∧
    (∀ rd, ∃ t, exec (.polyClear rd) s = .next t ∧ OnlyReg rd s t ∧ Holds t rd .empty fun _ => 0) ∧
    ∃ t, exec .zeroize s = .next t ∧ Ended s t .ok ∧ (∀ a, t.byte a = 0) ∧ (∀ r, Holds t r .empty fun _ => 0) ∧
      t.kst = .uninitialized ∧ t.eq = s.eq ∧ t.result0 = s.result0 ∧ t.result1 = s.result1 ∧ t.drawn = s.drawn

/-! ## The transform and the product -/

/-- NTT_FWD writes NTT(RS1), tagged NTT, and NTT_INV writes INTT(RS1), tagged COEFF, each from a register of the other domain
(R184, R185). -/
def Obligations.NttCommands : Prop :=
  ∀ (s : State) (rd rs1 : PReg),
    (∃ t, exec (.nttFwd rd rs1) s = .next t ∧
      if s.tag rs1 = .empty then Failed s t .uninit
      else if s.tag rs1 ≠ .coeff then Failed s t .domain
      else OnlyReg rd s t ∧ t.tag rd = .ntt ∧ t.elem rd = ntt (s.elem rs1)) ∧
    ∃ t, exec (.nttInv rd rs1) s = .next t ∧
      if s.tag rs1 = .empty then Failed s t .uninit
      else if s.tag rs1 ≠ .ntt then Failed s t .domain
      else OnlyReg rd s t ∧ t.tag rd = .coeff ∧ t.elem rd = intt (s.elem rs1)

/-- PMUL: the per-coefficient product mod q of two transform-domain registers (R200). -/
def Obligations.PmulMultiplies : Prop :=
  ∀ (s : State) (rd rs1 rs2 : PReg), ∃ t, exec (.pmul rd rs1 rs2) s = .next t ∧
    if s.tag rs1 = .empty ∨ s.tag rs2 = .empty then Failed s t .uninit
    else if s.tag rs1 ≠ .ntt ∨ s.tag rs2 ≠ .ntt then Failed s t .domain
    else OnlyReg rd s t ∧ Holds t rd .ntt fun i => reduce (s.coeff rs1 i * s.coeff rs2 i)

/-- The two transforms undo each other on every ring element, and each is a linear map mod q (R186, R187). -/
def Obligations.NttRoundTrip : Prop :=
  (∀ f : Elem, IsElem f → intt (ntt f) = f ∧ ntt (intt f) = f) ∧ Linear ntt ∧ Linear intt

/-- NTT outputs are the values of the even and the odd part of the element at γᵢ = 17^(2·BitRev7(i)+1), in place (R188). -/
def Obligations.NttValues : Prop :=
  ∀ f : Elem, f.length = 256 → ∀ i < 128,
    (ntt f).getD (2 * i) 0 = reduce (∑ j ∈ Finset.range 128, f.getD (2 * j) 0 * (17 ^ (2 * bitRev7 i + 1)) ^ j) ∧
    (ntt f).getD (2 * i + 1) 0 = reduce (∑ j ∈ Finset.range 128, f.getD (2 * j + 1) 0 * (17 ^ (2 * bitRev7 i + 1)) ^ j)

/-- The laws of the product: PMUL is commutative and associative, distributes over addition and subtraction and has the unit
(1, …, 1); and so has a ⊛ b = INTT(PMUL(NTT(a), NTT(b))), with the unit INTT((1, …, 1)) (R201). -/
def Obligations.ProductLaws : Prop :=
  (∀ a b c : Elem, IsElem a → IsElem b → IsElem c →
    elemMul a b = elemMul b a ∧ elemMul (elemMul a b) c = elemMul a (elemMul b c) ∧
    elemMul a (elemAdd b c) = elemAdd (elemMul a b) (elemMul a c) ∧
    elemMul a (elemSub b c) = elemSub (elemMul a b) (elemMul a c) ∧ elemMul a (List.replicate 256 1) = a) ∧
  ∀ a b c : Elem, IsElem a → IsElem b → IsElem c →
    ringMul a b = ringMul b a ∧ ringMul (ringMul a b) c = ringMul a (ringMul b c) ∧
    ringMul a (elemAdd b c) = elemAdd (ringMul a b) (ringMul a c) ∧ ringMul a (intt (List.replicate 256 1)) = a

/-- The ring of ⊛: even and odd coefficients multiply separately, each mod Y^128 + 1 and q (R202). -/
def Obligations.ProductRing : Prop :=
  ∀ a b : Elem, a.length = 256 → b.length = 256 → ∀ m < 128, ∀ p < 2,
    (ringMul a b).getD (2 * m + p) 0 = reduce (∑ j ∈ Finset.range 128, ∑ k ∈ Finset.range 128,
      if j + k = m then a.getD (2 * j + p) 0 * b.getD (2 * k + p) 0
      else if j + k = m + 128 then -(a.getD (2 * j + p) 0 * b.getD (2 * k + p) 0) else 0)

/-! ## Samplers -/

/-- CBD_SAMPLE: coefficient i is the sum of bits 4i and 4i + 1 less the sum of bits 4i + 2 and 4i + 3 of the 128 bytes
(R210, R211). -/
def Obligations.CbdSampleCountsBits : Prop :=
  ∀ (s : State) (rd : PReg), ∃ t, exec (.cbdSample rd) s = .next t ∧
    if OutOf (s.arg 0) 128 then Failed s t .bounds
    else OnlyReg rd s t ∧ Holds t rd .coeff fun i =>
      ((s.bit (s.arg 0) (4 * i)).toNat + (s.bit (s.arg 0) (4 * i + 1)).toNat : Int) -
        ((s.bit (s.arg 0) (4 * i + 2)).toNat + (s.bit (s.arg 0) (4 * i + 3)).toNat)

/-- The rejection loop: of the 12-bit values of the stream, low half of each 3-byte group first, those below q are accepted in
order; the first 256 of them, centred, are the result, and there is none while fewer have been found (R213, R215). -/
def Obligations.RejectionAcceptsInOrder : Prop :=
  ∀ (str : Nat → Byte) (fuel : Nat),
    let accepted := ((List.range fuel).flatMap fun g =>
      [(str (3 * g)).toNat + 256 * ((str (3 * g + 1)).toNat % 16), (str (3 * g + 1)).toNat / 16 + 16 * (str (3 * g + 2)).toNat]).filter
        fun d => decide (d < 3329)
    rejLoop str fuel 0 [] = if accepted.length < 256 then none else some ((accepted.take 256).map fun (d : Nat) => reduce d)

/-- REJ_SAMPLE: RD takes Rej(ρ, row, col) when the XOF stream has yielded its 256 values, for row and column the low bytes of ARG1 and
ARG2; until then the command is pending and nothing is visible (R213, R215, R348; the pace is log entry 6). -/
def Obligations.RejSampleFromStream : Prop :=
  ∀ (s : State) (rd : PReg), ∃ t, exec (.rejSample rd) s = .next t ∧
    if OutOf (s.arg 0) 32 then Failed s t .bounds
    else
      let input := s.readMem (s.arg 0) 32 ++ [BitVec.ofNat 8 (s.arg 2), BitVec.ofNat 8 (s.arg 1)]
      match rejLoop (Config.params.xofA input) s.groups 0 [] with
      | none => Waits s t
      | some f => OnlyReg rd s t ∧ t.tag rd = .coeff ∧ t.elem rd = f

/-- A hung command, a REJ_SAMPLE or a KEM or blob command one of whose XOF streams never holds 256 values below q, lasts until a soft
reset: through every other step it stays pending with nothing of it visible, and a soft reset that the host waits to write is taken in
this step or the next and leaves the block idle, at its reset values (R215, R348, R371). Whose turn it is follows log entry 4, that the
engine lets a waiting access of the host go first each time is log entry 6, and what a soft reset keeps is log entry 10. -/
def Obligations.HangLastsUntilReset : Prop :=
  (∀ (s t : State) (i : Instr), Hangs s i → step s = .next t → ¬ s.ResetsNext →
    Hangs t i ∧ t.done = s.done ∧ t.err = s.err ∧ t.pr = s.pr ∧ BytesKept s t ∧ FlagsKept s t) ∧
  ∀ (s : State) (i : Instr) (v : Word) (rest : List BusAction), Hangs s i → s.port = .write 4 0x020 v :: rest → v.getLsbD 0 = true →
    ∃ (t : State) (k : Nat), (step s = .next t ∨ ∃ u, step s = .next u ∧ step u = .next t) ∧
      t = { State.reset with port := rest, seen := s.seen, drawn := s.drawn, choices := k }

/-! ## Codec -/

/-- The scalar maps at the legal depths: compressing and decompressing moves a centred value by at most 832, 104 and 2 mod q, each
bound being attained (R232), and decompressing then compressing gives the value back. -/
def Obligations.CodecRoundTripError : Prop :=
  ∀ p ∈ [(1, 832), (4, 104), (10, 2)],
    (∀ x : Int, Centred x → |reduce (decompressCoeff p.1 (compressCoeff p.1 x) - x)| ≤ p.2) ∧
    (∃ x : Int, Centred x ∧ |reduce (decompressCoeff p.1 (compressCoeff p.1 x) - x)| = p.2) ∧
    ∀ y < 2 ^ p.1, compressCoeff p.1 (decompressCoeff p.1 y) = y

/-- Packing: value i takes the bit positions d·i to d·i + d − 1 of the byte string, least significant bit first, and packing and
unpacking undo each other (R233). -/
def Obligations.PackingIsABijection : Prop :=
  (∀ (d : Nat) (v : List Nat), v.length = 256 → (∀ x ∈ v, x < 2 ^ d) →
    (pack d v).length = 32 * d ∧ unpack d (pack d v) = v ∧
    ∀ i < 256, ∀ t < d, ((pack d v).getD ((d * i + t) / 8) 0).getLsbD ((d * i + t) % 8) = (v.getD i 0).testBit t) ∧
  ∀ (d : Nat) (b : Bytes), b.length = 32 * d → (∀ x ∈ unpack d b, x < 2 ^ d) ∧ pack d (unpack d b) = b

/-- Unpack12 gives back what Pack12 packed, and refuses exactly the strings that hold a value of q or more (R234). -/
def Obligations.Pack12RoundTrip : Prop :=
  (∀ f : Elem, IsElem f → (pack12 f).length = 384 ∧ unpack12 (pack12 f) = some f) ∧
  ∀ b : Bytes, b.length = 384 → (unpack12 b = none ↔ ∃ v ∈ unpack 12 b, 3329 ≤ v)

/-- The message encoding: bit i of m gives coefficient −1664 or 0, and decoding sets bit i exactly when the coefficient is nearer to
q/2 than to 0, so that it gives m back (R239). -/
def Obligations.MessageEncoding : Prop :=
  (∀ m : Bytes, m.length = 32 → compress (decompress m 1) 1 = m ∧
    ∀ i < 256, (decompress m 1).getD i 0 = if (m.getD (i / 8) 0).getLsbD (i % 8) then -1664 else 0) ∧
  ∀ w : Elem, IsElem w → ∀ i < 256,
    ((compress w 1).getD (i / 8) 0).getLsbD (i % 8) = decide (833 ≤ w.getD i 0 % 3329 ∧ w.getD i 0 % 3329 ≤ 2496)

/-- POLY_COMPRESS writes the 256 compressed coefficients of RS1, packed at d bits (R235). -/
def Obligations.PolyCompressPacks : Prop :=
  ∀ (s : State) (rs1 : PReg) (imm4 : BitVec 4), ∃ t, exec (.polyCompress rs1 imm4) s = .next t ∧
    if imm4 ∉ ([1, 4, 10] : List (BitVec 4)) then Failed s t .illegal
    else if s.tag rs1 = .empty then Failed s t .uninit
    else if s.tag rs1 ≠ .coeff then Failed s t .domain
    else if OutOf (s.arg 0) (32 * imm4.toNat) then Failed s t .bounds
    else OnlyMem s t ∧ t.drawn = s.drawn ∧
      (∀ a, a < s.arg 0 ∨ s.arg 0 + 32 * imm4.toNat ≤ a → t.byte a = s.byte a) ∧
      ∀ i < 256, t.packed imm4.toNat (s.arg 0) i = compressCoeff imm4.toNat (s.coeff rs1 i)

/-- POLY_DECOMPRESS reads 256 values of d bits into RD (R236). -/
def Obligations.PolyDecompressUnpacks : Prop :=
  ∀ (s : State) (rd : PReg) (imm4 : BitVec 4), ∃ t, exec (.polyDecompress rd imm4) s = .next t ∧
    if imm4 ∉ ([1, 4, 10] : List (BitVec 4)) then Failed s t .illegal
    else if OutOf (s.arg 0) (s.arg 1) then Failed s t .bounds
    else if s.arg 1 ≠ 32 * imm4.toNat then Failed s t .format
    else OnlyReg rd s t ∧ Holds t rd .coeff fun i => decompressCoeff imm4.toNat (s.packed imm4.toNat (s.arg 0) i)

/-- POLY_PACK12 writes the 256 canonical residues of RS1 at 12 bits each, whichever its tag (R237). -/
def Obligations.PolyPack12Packs : Prop :=
  ∀ (s : State) (rs1 : PReg), ∃ t, exec (.polyPack12 rs1) s = .next t ∧
    if s.tag rs1 = .empty then Failed s t .uninit
    else if OutOf (s.arg 0) 384 then Failed s t .bounds
    else OnlyMem s t ∧ t.drawn = s.drawn ∧ (∀ a, a < s.arg 0 ∨ s.arg 0 + 384 ≤ a → t.byte a = s.byte a) ∧
      ∀ i < 256, (t.packed 12 (s.arg 0) i : Int) = s.coeff rs1 i % 3329

/-- POLY_UNPACK12 reads 256 12-bit values into RD and refuses a value of q or more (R238). -/
def Obligations.PolyUnpack12Checks : Prop :=
  ∀ (s : State) (rd : PReg) (imm4 : BitVec 4), ∃ t, exec (.polyUnpack12 rd imm4) s = .next t ∧
    if imm4 ≠ 0 ∧ imm4 ≠ 1 then Failed s t .illegal
    else if OutOf (s.arg 0) (s.arg 1) then Failed s t .bounds
    else if s.arg 1 ≠ 384 ∨ (List.range 256).any (fun i => decide (3329 ≤ s.packed 12 (s.arg 0) i)) = true then Failed s t .format
    else OnlyReg rd s t ∧ Holds t rd (if imm4 = 0 then .coeff else .ntt) fun i => reduce (s.packed 12 (s.arg 0) i)

/-! ## The KEM -/

/-- KEM_KEYGEN writes the key pair of KeyGen_internal(d, z), the public key first, and sets KST = 1; d and z come from the seed
region or are the next 64 entropy bytes (R266). While the XOF streams have not yielded their values it is pending (R348; the pace is log entry 6). -/
def Obligations.KemKeygenWritesKeys : Prop :=
  ∀ (s : State) (seeded : Bool), ∃ t, exec (.kemKeygen seeded) s = .next t ∧
    if OutOf (s.arg 0) 1184 ∨ OutOf (s.arg 1) 2400 ∨ seeded = true ∧ OutOf (s.arg 2) 64 then Failed s t .bounds
    else
      let d := if seeded then s.readMem (s.arg 2) 32 else s.entropyBytes 0 32
      let z := if seeded then s.readMem (s.arg 2 + 32) 32 else s.entropyBytes 32 32
      match keygenInternal Config.params s.groups d z with
      | none => Waits s t
      | some (pk, sk) => Ended s t .ok ∧ t.pr = s.pr ∧ t.eq = s.eq ∧ t.result0 = s.result0 ∧ t.result1 = s.result1 ∧
        t.kst = .keyGenerated ∧ t.drawn = s.drawn + (if seeded then 0 else 64) ∧ pk.length = 1184 ∧ sk.length = 2400 ∧
        ∀ a, t.byte a = written (s.arg 1) sk (written (s.arg 0) pk s.byte) a

/-- KEM_ENCAPS writes the ciphertext and then the shared secret of Encaps_internal, and sets KST = 2 (R268); until
the XOF streams have yielded their values it is pending (R348; the pace is log entry 6). -/
def Obligations.KemEncapsWritesSecret : Prop :=
  ∀ (s : State) (seeded : Bool), ∃ t, exec (.kemEncaps seeded) s = .next t ∧
    if OutOf (s.arg 0) (s.arg 1) ∨ OutOf (s.arg 2) 1088 ∨ OutOf (s.arg 3) 32 ∨ seeded = true ∧ OutOf (s.arg 4) 32 then
      Failed s t .bounds
    else if s.arg 1 ≠ 1184 then Failed s t .format
    else
      let p := s.readMem (s.arg 0) 1184
      let m := if seeded then s.readMem (s.arg 4) 32 else s.entropyBytes 0 32
      match parsePk p with
      | none => Failed s t .format
      | some pk =>
        match encapsInternal Config.params s.groups pk m (hashPk Config.params p) with
        | none => Waits s t
        | some (ct, ss) => Ended s t .ok ∧ t.pr = s.pr ∧ t.eq = s.eq ∧ t.result0 = s.result0 ∧ t.result1 = s.result1 ∧
          t.kst = .encapsulated ∧ t.drawn = s.drawn + (if seeded then 0 else 32) ∧ ct.length = 1088 ∧ ss.length = 32 ∧
          ∀ a, t.byte a = written (s.arg 3) ss (written (s.arg 2) ct s.byte) a

/-- KEM_DECAPS writes the shared secret of Decaps_internal and sets KST = 3, with code OK whether or not the ciphertext was rejected;
it writes no byte outside the shared secret's region (R270, R344). Until the XOF streams have yielded their values it is pending (R348;
the pace is log entry 6). -/
def Obligations.KemDecapsWritesSecret : Prop :=
  ∀ s : State, ∃ t, exec .kemDecaps s = .next t ∧
    if OutOf (s.arg 0) (s.arg 1) ∨ OutOf (s.arg 2) (s.arg 3) ∨ OutOf (s.arg 4) 32 then Failed s t .bounds
    else if s.arg 1 ≠ 2400 ∨ s.arg 3 ≠ 1088 then Failed s t .format
    else
      match parseSk (s.readMem (s.arg 0) 2400) with
      | none => Failed s t .format
      | some sk =>
        match decapsInternal Config.params s.groups sk (s.readMem (s.arg 2) 1088) with
        | none => Waits s t
        | some ss => Ended s t .ok ∧ t.pr = s.pr ∧ t.eq = s.eq ∧ t.result0 = s.result0 ∧ t.result1 = s.result1 ∧
          t.kst = .decapsulated ∧ t.drawn = s.drawn ∧ ss.length = 32 ∧ Wrote s t (s.arg 4) ss

/-- A byte string parses as a public key exactly when it has 1184 bytes and every 12-bit value from byte 32 on is below q, and as a secret
key exactly when it has 2400 bytes, every 12-bit value of s is below q and its public key parses, h and z being taken as they stand. Every
key pair of KeyGen_internal has the lengths and the layout of R263 and parses back to its parts, and t = A·s + e with A[i][j] =
Rej(ρ, i, j), for every choice of the parameter functions (R216, R261, R263, R267, R269). -/
def Obligations.KeyParsing : Prop :=
  (∀ b : Bytes, (parsePk b).isSome = true ↔
    b.length = 1184 ∧ ∀ i < 3, ∀ v ∈ unpack 12 (slice b (32 + 384 * i) 384), v < 3329) ∧
  (∀ b : Bytes, ((parseSk b).isSome = true ↔ b.length = 2400 ∧
      (∀ i < 3, ∀ v ∈ unpack 12 (slice b (384 * i) 384), v < 3329) ∧ (parsePk (slice b 1152 1184)).isSome = true) ∧
    ∀ k, parseSk b = some k → k.s.flatMap pack12 = b.take 1152 ∧ parsePk (slice b 1152 1184) = some k.pk ∧
      k.h = slice b 2336 32 ∧ k.z = slice b 2368 32) ∧
  ∀ (P : Config.Params) (fuel : Nat) (d z pk sk : Bytes), z.length = 32 → keygenInternal P fuel d z = some (pk, sk) →
    pk.length = 1184 ∧ sk.length = 2400 ∧ slice sk 1152 1184 = pk ∧ slice pk 0 32 = (P.hashG d).toList.take 32 ∧
    ∃ k v, parsePk pk = some k ∧ k.rho = slice pk 0 32 ∧ k.t.flatMap pack12 = pk.drop 32 ∧
      parseSk sk = some ⟨v, k, hashPk P pk, z⟩ ∧ v.flatMap pack12 = sk.take 1152 ∧
      v = cbdVec (P.noiseStream ((P.hashG d).toList.drop 32) 768).toList 0 3 ∧
      ∃ A : Nat → Nat → Elem, (∀ i < 3, ∀ j < 3, rej P fuel k.rho i j = some (A i j)) ∧
        ∀ i < 3, k.t.getD i [] = elemAdd (ringDot (A i) fun j => v.getD j [])
          ((cbdVec (P.noiseStream ((P.hashG d).toList.drop 32) 768).toList 384 3).getD i [])

/-- Decapsulation returns KDF(m′ ‖ h ‖ ct) where re-encrypting the decoded m′ gives ct, and KDF(z ‖ ct) where it does not
(R264, R265, R273), for every choice of the parameter functions. -/
def Obligations.ImplicitRejection : Prop :=
  ∀ (P : Config.Params) (fuel : Nat) (sk : SecretKey) (ct ct' ss' : Bytes), ct.length = 1088 →
    encapsInternal P fuel sk.pk (decodeMessage sk ct) sk.h = some (ct', ss') →
    decapsInternal P fuel sk ct = some (if ct' = ct then kdf P (decodeMessage sk ct ++ sk.h ++ ct) else kdf P (sk.z ++ ct))

/-- What encapsulation and decapsulation compute, for every choice of the parameter functions. Encapsulation to a parsed public key:
u = Aᵗ·r + e1 and v = tᵗ·r + e2 + μ with A[i][j] = Rej(ρ, i, j), compressed to the ciphertext (R216, R262). Decoding with a parsed secret
key: w = v − sᵗ·u of the decompressed ciphertext, compressed to m′ (R264); it gives m exactly when w − μ is small in every coefficient,
−832 to 831 for a 1 bit and −832 to 832 for a 0 bit (R239, R272). Honest decapsulation: for a generated key pair, where decoding the
ciphertext recovers the message, decapsulation returns the shared secret of the encapsulation (R272). -/
def Obligations.HonestDecapsulation : Prop :=
  (∀ (P : Config.Params) (fuel : Nat) (b m h ct ss : Bytes) (k : PublicKey), parsePk b = some k →
    encapsInternal P fuel k m h = some (ct, ss) →
    let str := (P.noiseStream (m ++ h) 896).toList
    let r := fun i => (cbdVec str 0 3).getD i []
    ∃ (A : Nat → Nat → Elem) (u : Nat → Elem) (v : Elem), (∀ i < 3, ∀ j < 3, rej P fuel k.rho i j = some (A i j)) ∧
      (∀ j < 3, u j = elemAdd (ringDot (fun i => A i j) r) ((cbdVec str 384 3).getD j [])) ∧
      v = elemAdd (elemAdd (ringDot (fun i => k.t.getD i []) r) (cbd (slice str 768 128))) (decompress m 1) ∧
      ct = compress (u 0) 10 ++ compress (u 1) 10 ++ compress (u 2) 10 ++ compress v 4 ∧ ss = kdf P (m ++ h ++ ct)) ∧
  (∀ (b m ct : Bytes) (k : SecretKey), parseSk b = some k → m.length = 32 →
    let w := elemSub (decompress (slice ct 960 128) 4)
      (ringDot (fun i => k.s.getD i []) fun j => decompress (slice ct (320 * j) 320) 10)
    decodeMessage k ct = compress w 1 ∧
    (decodeMessage k ct = m ↔ ∀ i < 256,
      -832 ≤ reduce (w.getD i 0 - (decompress m 1).getD i 0) ∧
      reduce (w.getD i 0 - (decompress m 1).getD i 0) ≤ if (m.getD (i / 8) 0).getLsbD (i % 8) then 831 else 832)) ∧
  ∀ (P : Config.Params) (fuel : Nat) (d z m pk sk ct ss : Bytes) (k : PublicKey) (v : SecretKey), z.length = 32 →
    keygenInternal P fuel d z = some (pk, sk) → parsePk pk = some k → parseSk sk = some v →
    encapsInternal P fuel k m (hashPk P pk) = some (ct, ss) → decodeMessage v ct = m → decapsInternal P fuel v ct = some ss

/-! ## Signatures -/

/-- SIG_KEYGEN writes the signing key and then the verifying key of SIG_KEYGEN_F(seed) (R305). -/
def Obligations.SigKeygenWritesKeys : Prop :=
  ∀ (s : State) (seeded : Bool), ∃ t, exec (.sigKeygen seeded) s = .next t ∧
    if OutOf (s.arg 0) sigSkLen ∨ OutOf (s.arg 1) sigVkLen ∨ seeded = true ∧ OutOf (s.arg 2) sigSeedLen then Failed s t .bounds
    else
      let seed := if seeded then s.readMem (s.arg 2) sigSeedLen else s.entropyBytes 0 sigSeedLen
      OnlyMem s t ∧ t.drawn = s.drawn + (if seeded then 0 else sigSeedLen) ∧
      ∀ a, t.byte a = written (s.arg 1) (Config.params.sigKeygen seed).2.toList
        (written (s.arg 0) (Config.params.sigKeygen seed).1.toList s.byte) a

/-- SIG_SIGN writes the signature of the message with the signing key, after clearing the key's region; a failing check after the key
region's own clears it too (R304, R306). -/
def Obligations.SigSignSignsAndClears : Prop :=
  ∀ (s : State) (seeded : Bool), ∃ t, exec (.sigSign seeded) s = .next t ∧
    if OutOf (s.arg 0) (s.arg 1) then Failed s t .bounds
    else if OutOf (s.arg 2) (s.arg 3) ∨ OutOf (s.arg 4) sigLen ∨ seeded = true ∧ OutOf (s.arg 5) sigRndLen then
      FailedCleared s t .bounds (s.arg 0) (s.arg 1)
    else if s.arg 1 ≠ sigSkLen then FailedCleared s t .format (s.arg 0) (s.arg 1)
    else
      let rnd := if seeded then s.readMem (s.arg 5) sigRndLen else s.entropyBytes 0 sigRndLen
      match signMessage Config.params (s.readMem (s.arg 0) sigSkLen) (s.readMem (s.arg 2) (s.arg 3)) rnd with
      | none => FailedCleared s t .format (s.arg 0) (s.arg 1)
      | some sig => OnlyMem s t ∧ sig.length = sigLen ∧ t.drawn = s.drawn + (if seeded then 0 else sigRndLen) ∧
        ∀ a, t.byte a = written (s.arg 4) sig (written (s.arg 0) (zeros (s.arg 1)) s.byte) a

/-- SIG_VERIFY: RESULT0 says whether the signature is valid, with code OK either way, and nothing else changes (R307). -/
def Obligations.SigVerifyReports : Prop :=
  ∀ s : State, ∃ t, exec .sigVerify s = .next t ∧
    if OutOf (s.arg 0) (s.arg 1) ∨ OutOf (s.arg 2) (s.arg 3) ∨ OutOf (s.arg 4) (s.arg 5) then Failed s t .bounds
    else if s.arg 1 ≠ sigVkLen ∨ s.arg 5 ≠ sigLen then Failed s t .format
    else Ended s t .ok ∧ t.pr = s.pr ∧ BytesKept s t ∧ t.eq = s.eq ∧ t.kst = s.kst ∧ t.result1 = s.result1 ∧ t.drawn = s.drawn ∧
      t.result0 = if Config.params.sigVerify (s.readMem (s.arg 0) sigVkLen) (s.readMem (s.arg 2) (s.arg 3))
        (s.readMem (s.arg 4) sigLen) then 1 else 0

/-! ## Blobs -/

/-- BLOB_BUILD writes ct ‖ nonce ‖ AEAD_SEAL(ss, nonce, "", payload) and its length, after clearing the signing key's region where it
signs; a failing check after the key region's own clears it too (R304, R321, R325). Where a region before the key's leaves DMEM, the
statement leaves the key region open (log entry 9). Until the XOF streams have yielded their values it is pending (R348; the pace is log
entry 6). -/
def Obligations.BlobBuildFrames : Prop :=
  ∀ (s : State) (seeded signed : Bool), ∃ t, exec (.blobBuild seeded signed) s = .next t ∧
    let keyLen := if signed then s.arg 5 else 0
    let rndLen := if signed then sigRndLen else 0
    let total := 1116 + s.arg 1 + if signed then sigLen else 0
    if OutOf (s.arg 0) (s.arg 1) ∨ OutOf (s.arg 2) (s.arg 3) then
      Ended s t .bounds ∧ t.pr = s.pr ∧ FlagsKept s t ∧ ∀ a, a < s.arg 4 ∨ s.arg 4 + keyLen ≤ a → t.byte a = s.byte a
    else if signed = true ∧ OutOf (s.arg 4) (s.arg 5) then Failed s t .bounds
    else if OutOf (s.arg 6) total ∨ seeded = true ∧ OutOf (s.arg 7) (44 + rndLen) then FailedCleared s t .bounds (s.arg 4) keyLen
    else if s.arg 3 ≠ 1184 ∨ signed = true ∧ s.arg 5 ≠ sigSkLen then FailedCleared s t .format (s.arg 4) keyLen
    else
      let report := s.readMem (s.arg 0) (s.arg 1)
      let p := s.readMem (s.arg 2) 1184
      let m := if seeded then s.readMem (s.arg 7) 32 else s.entropyBytes rndLen 32
      let nonce := if seeded then s.readMem (s.arg 7 + 32) 12 else s.entropyBytes (rndLen + 32) 12
      let rnd := if seeded then s.readMem (s.arg 7 + 44) rndLen else s.entropyBytes 0 rndLen
      let payload := if signed then (signMessage Config.params (s.readMem (s.arg 4) sigSkLen) report rnd).map (report ++ ·)
        else some report
      match parsePk p, payload with
      | some pk, some payload =>
        match encapsInternal Config.params s.groups pk m (hashPk Config.params p) with
        | none => Waits s t
        | some (ct, ss) => Ended s t .ok ∧ t.pr = s.pr ∧ t.eq = s.eq ∧ t.kst = s.kst ∧ t.result1 = s.result1 ∧
          t.result0 = BitVec.ofNat 32 total ∧ t.drawn = s.drawn + (if seeded then 0 else 44 + rndLen) ∧
          (ct ++ nonce ++ (Config.params.aeadSeal ss nonce [] payload).toList).length = total ∧
          ∀ a, t.byte a = written (s.arg 6) (ct ++ nonce ++ (Config.params.aeadSeal ss nonce [] payload).toList)
            (written (s.arg 4) (zeros keyLen) s.byte) a
      | _, _ => FailedCleared s t .format (s.arg 4) keyLen

/-- BLOB_OPEN decapsulates, opens the AEAD and, with K = 1, verifies the trailing signature with the verifying key at the given offset
of the report; it writes the report and its length, or reports AUTH, FORMAT or SIGINV (R322, R326). Until the XOF streams have yielded their values it
is pending (R348; the pace is log entry 6). -/
def Obligations.BlobOpenChecks : Prop :=
  ∀ (s : State) (signed : Bool), ∃ t, exec (.blobOpen signed) s = .next t ∧
    if OutOf (s.arg 0) (s.arg 1) ∨ OutOf (s.arg 2) (s.arg 3) ∨ OutOf (s.arg 4) (s.arg 1 - 1116) then Failed s t .bounds
    else if s.arg 3 ≠ 2400 then Failed s t .format
    else if s.arg 1 < 1116 then Failed s t .auth
    else
      let blob := s.readMem (s.arg 0) (s.arg 1)
      match parseSk (s.readMem (s.arg 2) 2400) with
      | none => Failed s t .format
      | some sk =>
        match decapsInternal Config.params s.groups sk (blob.take 1088) with
        | none => Waits s t
        | some ss =>
          match (Config.params.aeadOpen ss (slice blob 1088 12) [] (blob.drop 1100)).map Vector.toList with
          | none => Failed s t .auth
          | some payload =>
            if signed then
              let len := payload.length - sigLen
              if payload.length < sigLen ∨ len < s.arg 5 + sigVkLen then Failed s t .format
              else if Config.params.sigVerify (slice payload (s.arg 5) sigVkLen) (payload.take len) (payload.drop len) then
                Opened s t (s.arg 4) (payload.take len) 1
              else Failed s t .sigInv
            else
              Opened s t (s.arg 4) payload 0

/-- The blob round trip: a blob built, signed, with a public key of one key generation opens with the secret key to the report, where
decoding its ciphertext recovers the message, the AEAD and the signature scheme are correct, and the report holds the verifying key
at the given offset (R327), for every choice of the parameter functions. SIG-CORRECT is taken for seeds and randomness of every length
(log entry 1). -/
def Obligations.BlobRoundTrip : Prop :=
  ∀ (P : Config.Params) (fuel off : Nat) (d z m nonce seed report rnd pk sk blob payload : Bytes) (k : PublicKey) (v : SecretKey),
    AeadCorrect P → SigCorrect P → z.length = 32 → nonce.length = 12 →
    keygenInternal P fuel d z = some (pk, sk) → parsePk pk = some k → parseSk sk = some v →
    slice report off P.sigVkLen.toNat = (P.sigKeygen seed).2.toList → off + P.sigVkLen.toNat ≤ report.length →
    blobPayload P true (P.sigKeygen seed).1.toList report rnd = some payload →
    buildBlob P fuel k (hashPk P pk) m nonce payload = some blob → decodeMessage v (blob.take 1088) = m →
    openBlob P fuel true off v blob = some (.ok report)
end

