-- ==== Sys2Proof/Laws/Decode.lean ====
section
/-! SUPPORT. Taking a command word apart and assembling one undo each other (R111). -/

namespace Sys2Proof

/-- The assembled word of R111 is the concatenation of its fields, RES first. -/
theorem assemble_eq_append (o : BitVec 8) (a b c : BitVec 5) (i : BitVec 4) (s k : BitVec 1) (r : BitVec 3) :
    o.setWidth 32 ||| a.setWidth 32 <<< 8 ||| b.setWidth 32 <<< 13 ||| c.setWidth 32 <<< 18 ||| i.setWidth 32 <<< 23
      ||| s.setWidth 32 <<< 27 ||| k.setWidth 32 <<< 28 ||| r.setWidth 32 <<< 29
    = r ++ k ++ s ++ i ++ c ++ b ++ a ++ o := by
  apply BitVec.eq_of_getLsbD_eq
  intro j hj
  simp only [BitVec.getLsbD_or, BitVec.getLsbD_shiftLeft, BitVec.getLsbD_setWidth, BitVec.getLsbD_append]
  interval_cases j <;> simp

/-- The fields of such a concatenation. -/
theorem extract_append (r : BitVec 3) (k s : BitVec 1) (i : BitVec 4) (c b a : BitVec 5) (o : BitVec 8) (w : Word)
    (hw : w = r ++ k ++ s ++ i ++ c ++ b ++ a ++ o) :
    w.extractLsb' 0 8 = o ∧ w.extractLsb' 8 5 = a ∧ w.extractLsb' 13 5 = b ∧ w.extractLsb' 18 5 = c ∧ w.extractLsb' 23 4 = i
      ∧ w.getLsbD 27 = s.getLsbD 0 ∧ w.getLsbD 28 = k.getLsbD 0 ∧ w.extractLsb' 29 3 = r := by
  subst hw
  refine ⟨?_, ?_, ?_, ?_, ?_, ?_, ?_, ?_⟩
  all_goals
    first
    | (apply BitVec.eq_of_getLsbD_eq
       intro j hj
       simp only [BitVec.getLsbD_extractLsb', BitVec.getLsbD_append]
       interval_cases j <;> simp)
    | (simp only [BitVec.getLsbD_append]; simp)

/-- A word is the concatenation of its fields. -/
theorem append_extract (w : Word) :
    w.extractLsb' 29 3 ++ BitVec.ofBool (w.getLsbD 28) ++ BitVec.ofBool (w.getLsbD 27) ++ w.extractLsb' 23 4 ++ w.extractLsb' 18 5
      ++ w.extractLsb' 13 5 ++ w.extractLsb' 8 5 ++ w.extractLsb' 0 8 = w := by
  apply BitVec.eq_of_getLsbD_eq
  intro j hj
  simp only [BitVec.getLsbD_extractLsb', BitVec.getLsbD_append]
  interval_cases j <;> simp

namespace Fields

/-- Taking an assembled word apart gives its fields. -/
@[simp] theorem ofWord_toWord (f : Fields) : ofWord f.toWord = f := by
  obtain ⟨h1, h2, h3, h4, h5, h6, h7, h8⟩ := extract_append f.res (BitVec.ofBool f.k) (BitVec.ofBool f.s) f.imm4
    (BitVec.ofFin f.rs2) (BitVec.ofFin f.rs1) (BitVec.ofFin f.rd) f.opc f.toWord (assemble_eq_append ..)
  cases f
  simp only [ofWord, h1, h2, h3, h4, h5, h6, h7, h8]
  simp

/-- Assembling the fields of a word gives the word. -/
@[simp] theorem toWord_ofWord (w : Word) : (ofWord w).toWord = w :=
  (assemble_eq_append ..).trans (append_extract w)

end Fields

end Sys2Proof
end

