-- ==== Sys2Proof/Laws/State.lean ====
section
/-! SUPPORT. One lemma per field and per update of the state, so that no later proof unfolds a record update. -/

namespace Sys2Proof.Machine.State

variable (s : State)

/-! ## writeMem -/

@[simp] theorem writeMem_pr (a : Nat) (b : Bytes) : (s.writeMem a b).pr = s.pr := rfl
@[simp] theorem writeMem_dmem (a : Nat) (b : Bytes) : (s.writeMem a b).dmem = Memory.write s.dmem a b := rfl
@[simp] theorem writeMem_busy (a : Nat) (b : Bytes) : (s.writeMem a b).busy = s.busy := rfl
@[simp] theorem writeMem_done (a : Nat) (b : Bytes) : (s.writeMem a b).done = s.done := rfl
@[simp] theorem writeMem_err (a : Nat) (b : Bytes) : (s.writeMem a b).err = s.err := rfl
@[simp] theorem writeMem_eq (a : Nat) (b : Bytes) : (s.writeMem a b).eq = s.eq := rfl
@[simp] theorem writeMem_hz (a : Nat) (b : Bytes) : (s.writeMem a b).hz = s.hz := rfl
@[simp] theorem writeMem_hzl (a : Nat) (b : Bytes) : (s.writeMem a b).hzl = s.hzl := rfl
@[simp] theorem writeMem_kst (a : Nat) (b : Bytes) : (s.writeMem a b).kst = s.kst := rfl
@[simp] theorem writeMem_cmdl (a : Nat) (b : Bytes) : (s.writeMem a b).cmdl = s.cmdl := rfl
@[simp] theorem writeMem_args (a : Nat) (b : Bytes) : (s.writeMem a b).args = s.args := rfl
@[simp] theorem writeMem_argl (a : Nat) (b : Bytes) : (s.writeMem a b).argl = s.argl := rfl
@[simp] theorem writeMem_result0 (a : Nat) (b : Bytes) : (s.writeMem a b).result0 = s.result0 := rfl
@[simp] theorem writeMem_result1 (a : Nat) (b : Bytes) : (s.writeMem a b).result1 = s.result1 := rfl
@[simp] theorem writeMem_scratch (a : Nat) (b : Bytes) : (s.writeMem a b).scratch = s.scratch := rfl
@[simp] theorem writeMem_port (a : Nat) (b : Bytes) : (s.writeMem a b).port = s.port := rfl
@[simp] theorem writeMem_seen (a : Nat) (b : Bytes) : (s.writeMem a b).seen = s.seen := rfl
@[simp] theorem writeMem_delay (a : Nat) (b : Bytes) : (s.writeMem a b).delay = s.delay := rfl
@[simp] theorem writeMem_drawn (a : Nat) (b : Bytes) : (s.writeMem a b).drawn = s.drawn := rfl
@[simp] theorem writeMem_choices (a : Nat) (b : Bytes) : (s.writeMem a b).choices = s.choices := rfl
@[simp] theorem writeMem_tag (a : Nat) (b : Bytes) (x : PReg) : (s.writeMem a b).tag x = s.tag x := rfl
@[simp] theorem writeMem_elem (a : Nat) (b : Bytes) (x : PReg) : (s.writeMem a b).elem x = s.elem x := rfl
@[simp] theorem writeMem_coeff (a : Nat) (b : Bytes) (x : PReg) (i : Nat) : (s.writeMem a b).coeff x i = s.coeff x i := rfl
@[simp] theorem writeMem_arg (a : Nat) (b : Bytes) (j : Fin 8) : (s.writeMem a b).arg j = s.arg j := rfl

/-! ## setReg -/

@[simp] theorem setReg_pr (r : PReg) (f : Elem) (t : Tag) : (s.setReg r f t).pr = s.pr.set r ⟨Poly.ofElem f, t⟩ := rfl
@[simp] theorem setReg_dmem (r : PReg) (f : Elem) (t : Tag) : (s.setReg r f t).dmem = s.dmem := rfl
@[simp] theorem setReg_busy (r : PReg) (f : Elem) (t : Tag) : (s.setReg r f t).busy = s.busy := rfl
@[simp] theorem setReg_done (r : PReg) (f : Elem) (t : Tag) : (s.setReg r f t).done = s.done := rfl
@[simp] theorem setReg_err (r : PReg) (f : Elem) (t : Tag) : (s.setReg r f t).err = s.err := rfl
@[simp] theorem setReg_eq (r : PReg) (f : Elem) (t : Tag) : (s.setReg r f t).eq = s.eq := rfl
@[simp] theorem setReg_hz (r : PReg) (f : Elem) (t : Tag) : (s.setReg r f t).hz = s.hz := rfl
@[simp] theorem setReg_hzl (r : PReg) (f : Elem) (t : Tag) : (s.setReg r f t).hzl = s.hzl := rfl
@[simp] theorem setReg_kst (r : PReg) (f : Elem) (t : Tag) : (s.setReg r f t).kst = s.kst := rfl
@[simp] theorem setReg_cmdl (r : PReg) (f : Elem) (t : Tag) : (s.setReg r f t).cmdl = s.cmdl := rfl
@[simp] theorem setReg_args (r : PReg) (f : Elem) (t : Tag) : (s.setReg r f t).args = s.args := rfl
@[simp] theorem setReg_argl (r : PReg) (f : Elem) (t : Tag) : (s.setReg r f t).argl = s.argl := rfl
@[simp] theorem setReg_result0 (r : PReg) (f : Elem) (t : Tag) : (s.setReg r f t).result0 = s.result0 := rfl
@[simp] theorem setReg_result1 (r : PReg) (f : Elem) (t : Tag) : (s.setReg r f t).result1 = s.result1 := rfl
@[simp] theorem setReg_scratch (r : PReg) (f : Elem) (t : Tag) : (s.setReg r f t).scratch = s.scratch := rfl
@[simp] theorem setReg_port (r : PReg) (f : Elem) (t : Tag) : (s.setReg r f t).port = s.port := rfl
@[simp] theorem setReg_seen (r : PReg) (f : Elem) (t : Tag) : (s.setReg r f t).seen = s.seen := rfl
@[simp] theorem setReg_delay (r : PReg) (f : Elem) (t : Tag) : (s.setReg r f t).delay = s.delay := rfl
@[simp] theorem setReg_drawn (r : PReg) (f : Elem) (t : Tag) : (s.setReg r f t).drawn = s.drawn := rfl
@[simp] theorem setReg_choices (r : PReg) (f : Elem) (t : Tag) : (s.setReg r f t).choices = s.choices := rfl
@[simp] theorem setReg_byte (r : PReg) (f : Elem) (t : Tag) (x : Nat) : (s.setReg r f t).byte x = s.byte x := rfl
@[simp] theorem setReg_arg (r : PReg) (f : Elem) (t : Tag) (j : Fin 8) : (s.setReg r f t).arg j = s.arg j := rfl

/-! ## clearReg -/

@[simp] theorem clearReg_pr (r : PReg) : (s.clearReg r).pr = s.pr.set r PolyReg.cleared := rfl
@[simp] theorem clearReg_dmem (r : PReg) : (s.clearReg r).dmem = s.dmem := rfl
@[simp] theorem clearReg_busy (r : PReg) : (s.clearReg r).busy = s.busy := rfl
@[simp] theorem clearReg_done (r : PReg) : (s.clearReg r).done = s.done := rfl
@[simp] theorem clearReg_err (r : PReg) : (s.clearReg r).err = s.err := rfl
@[simp] theorem clearReg_eq (r : PReg) : (s.clearReg r).eq = s.eq := rfl
@[simp] theorem clearReg_hz (r : PReg) : (s.clearReg r).hz = s.hz := rfl
@[simp] theorem clearReg_hzl (r : PReg) : (s.clearReg r).hzl = s.hzl := rfl
@[simp] theorem clearReg_kst (r : PReg) : (s.clearReg r).kst = s.kst := rfl
@[simp] theorem clearReg_cmdl (r : PReg) : (s.clearReg r).cmdl = s.cmdl := rfl
@[simp] theorem clearReg_args (r : PReg) : (s.clearReg r).args = s.args := rfl
@[simp] theorem clearReg_argl (r : PReg) : (s.clearReg r).argl = s.argl := rfl
@[simp] theorem clearReg_result0 (r : PReg) : (s.clearReg r).result0 = s.result0 := rfl
@[simp] theorem clearReg_result1 (r : PReg) : (s.clearReg r).result1 = s.result1 := rfl
@[simp] theorem clearReg_scratch (r : PReg) : (s.clearReg r).scratch = s.scratch := rfl
@[simp] theorem clearReg_port (r : PReg) : (s.clearReg r).port = s.port := rfl
@[simp] theorem clearReg_seen (r : PReg) : (s.clearReg r).seen = s.seen := rfl
@[simp] theorem clearReg_delay (r : PReg) : (s.clearReg r).delay = s.delay := rfl
@[simp] theorem clearReg_drawn (r : PReg) : (s.clearReg r).drawn = s.drawn := rfl
@[simp] theorem clearReg_choices (r : PReg) : (s.clearReg r).choices = s.choices := rfl
@[simp] theorem clearReg_byte (r : PReg) (x : Nat) : (s.clearReg r).byte x = s.byte x := rfl
@[simp] theorem clearReg_arg (r : PReg) (j : Fin 8) : (s.clearReg r).arg j = s.arg j := rfl

/-! ## setEq -/

@[simp] theorem setEq_pr (b : Bool) : (s.setEq b).pr = s.pr := rfl
@[simp] theorem setEq_dmem (b : Bool) : (s.setEq b).dmem = s.dmem := rfl
@[simp] theorem setEq_busy (b : Bool) : (s.setEq b).busy = s.busy := rfl
@[simp] theorem setEq_done (b : Bool) : (s.setEq b).done = s.done := rfl
@[simp] theorem setEq_err (b : Bool) : (s.setEq b).err = s.err := rfl
@[simp] theorem setEq_eq (b : Bool) : (s.setEq b).eq = b := rfl
@[simp] theorem setEq_hz (b : Bool) : (s.setEq b).hz = s.hz := rfl
@[simp] theorem setEq_hzl (b : Bool) : (s.setEq b).hzl = s.hzl := rfl
@[simp] theorem setEq_kst (b : Bool) : (s.setEq b).kst = s.kst := rfl
@[simp] theorem setEq_cmdl (b : Bool) : (s.setEq b).cmdl = s.cmdl := rfl
@[simp] theorem setEq_args (b : Bool) : (s.setEq b).args = s.args := rfl
@[simp] theorem setEq_argl (b : Bool) : (s.setEq b).argl = s.argl := rfl
@[simp] theorem setEq_result0 (b : Bool) : (s.setEq b).result0 = s.result0 := rfl
@[simp] theorem setEq_result1 (b : Bool) : (s.setEq b).result1 = s.result1 := rfl
@[simp] theorem setEq_scratch (b : Bool) : (s.setEq b).scratch = s.scratch := rfl
@[simp] theorem setEq_port (b : Bool) : (s.setEq b).port = s.port := rfl
@[simp] theorem setEq_seen (b : Bool) : (s.setEq b).seen = s.seen := rfl
@[simp] theorem setEq_delay (b : Bool) : (s.setEq b).delay = s.delay := rfl
@[simp] theorem setEq_drawn (b : Bool) : (s.setEq b).drawn = s.drawn := rfl
@[simp] theorem setEq_choices (b : Bool) : (s.setEq b).choices = s.choices := rfl
@[simp] theorem setEq_byte (b : Bool) (x : Nat) : (s.setEq b).byte x = s.byte x := rfl
@[simp] theorem setEq_tag (b : Bool) (x : PReg) : (s.setEq b).tag x = s.tag x := rfl
@[simp] theorem setEq_elem (b : Bool) (x : PReg) : (s.setEq b).elem x = s.elem x := rfl
@[simp] theorem setEq_coeff (b : Bool) (x : PReg) (i : Nat) : (s.setEq b).coeff x i = s.coeff x i := rfl
@[simp] theorem setEq_arg (b : Bool) (j : Fin 8) : (s.setEq b).arg j = s.arg j := rfl

/-! ## setResult0 -/

@[simp] theorem setResult0_pr (v : Word) : (s.setResult0 v).pr = s.pr := rfl
@[simp] theorem setResult0_dmem (v : Word) : (s.setResult0 v).dmem = s.dmem := rfl
@[simp] theorem setResult0_busy (v : Word) : (s.setResult0 v).busy = s.busy := rfl
@[simp] theorem setResult0_done (v : Word) : (s.setResult0 v).done = s.done := rfl
@[simp] theorem setResult0_err (v : Word) : (s.setResult0 v).err = s.err := rfl
@[simp] theorem setResult0_eq (v : Word) : (s.setResult0 v).eq = s.eq := rfl
@[simp] theorem setResult0_hz (v : Word) : (s.setResult0 v).hz = s.hz := rfl
@[simp] theorem setResult0_hzl (v : Word) : (s.setResult0 v).hzl = s.hzl := rfl
@[simp] theorem setResult0_kst (v : Word) : (s.setResult0 v).kst = s.kst := rfl
@[simp] theorem setResult0_cmdl (v : Word) : (s.setResult0 v).cmdl = s.cmdl := rfl
@[simp] theorem setResult0_args (v : Word) : (s.setResult0 v).args = s.args := rfl
@[simp] theorem setResult0_argl (v : Word) : (s.setResult0 v).argl = s.argl := rfl
@[simp] theorem setResult0_result0 (v : Word) : (s.setResult0 v).result0 = v := rfl
@[simp] theorem setResult0_result1 (v : Word) : (s.setResult0 v).result1 = s.result1 := rfl
@[simp] theorem setResult0_scratch (v : Word) : (s.setResult0 v).scratch = s.scratch := rfl
@[simp] theorem setResult0_port (v : Word) : (s.setResult0 v).port = s.port := rfl
@[simp] theorem setResult0_seen (v : Word) : (s.setResult0 v).seen = s.seen := rfl
@[simp] theorem setResult0_delay (v : Word) : (s.setResult0 v).delay = s.delay := rfl
@[simp] theorem setResult0_drawn (v : Word) : (s.setResult0 v).drawn = s.drawn := rfl
@[simp] theorem setResult0_choices (v : Word) : (s.setResult0 v).choices = s.choices := rfl
@[simp] theorem setResult0_byte (v : Word) (x : Nat) : (s.setResult0 v).byte x = s.byte x := rfl
@[simp] theorem setResult0_tag (v : Word) (x : PReg) : (s.setResult0 v).tag x = s.tag x := rfl
@[simp] theorem setResult0_elem (v : Word) (x : PReg) : (s.setResult0 v).elem x = s.elem x := rfl
@[simp] theorem setResult0_coeff (v : Word) (x : PReg) (i : Nat) : (s.setResult0 v).coeff x i = s.coeff x i := rfl
@[simp] theorem setResult0_arg (v : Word) (j : Fin 8) : (s.setResult0 v).arg j = s.arg j := rfl

/-! ## setResult1 -/

@[simp] theorem setResult1_pr (v : Word) : (s.setResult1 v).pr = s.pr := rfl
@[simp] theorem setResult1_dmem (v : Word) : (s.setResult1 v).dmem = s.dmem := rfl
@[simp] theorem setResult1_busy (v : Word) : (s.setResult1 v).busy = s.busy := rfl
@[simp] theorem setResult1_done (v : Word) : (s.setResult1 v).done = s.done := rfl
@[simp] theorem setResult1_err (v : Word) : (s.setResult1 v).err = s.err := rfl
@[simp] theorem setResult1_eq (v : Word) : (s.setResult1 v).eq = s.eq := rfl
@[simp] theorem setResult1_hz (v : Word) : (s.setResult1 v).hz = s.hz := rfl
@[simp] theorem setResult1_hzl (v : Word) : (s.setResult1 v).hzl = s.hzl := rfl
@[simp] theorem setResult1_kst (v : Word) : (s.setResult1 v).kst = s.kst := rfl
@[simp] theorem setResult1_cmdl (v : Word) : (s.setResult1 v).cmdl = s.cmdl := rfl
@[simp] theorem setResult1_args (v : Word) : (s.setResult1 v).args = s.args := rfl
@[simp] theorem setResult1_argl (v : Word) : (s.setResult1 v).argl = s.argl := rfl
@[simp] theorem setResult1_result0 (v : Word) : (s.setResult1 v).result0 = s.result0 := rfl
@[simp] theorem setResult1_result1 (v : Word) : (s.setResult1 v).result1 = v := rfl
@[simp] theorem setResult1_scratch (v : Word) : (s.setResult1 v).scratch = s.scratch := rfl
@[simp] theorem setResult1_port (v : Word) : (s.setResult1 v).port = s.port := rfl
@[simp] theorem setResult1_seen (v : Word) : (s.setResult1 v).seen = s.seen := rfl
@[simp] theorem setResult1_delay (v : Word) : (s.setResult1 v).delay = s.delay := rfl
@[simp] theorem setResult1_drawn (v : Word) : (s.setResult1 v).drawn = s.drawn := rfl
@[simp] theorem setResult1_choices (v : Word) : (s.setResult1 v).choices = s.choices := rfl
@[simp] theorem setResult1_byte (v : Word) (x : Nat) : (s.setResult1 v).byte x = s.byte x := rfl
@[simp] theorem setResult1_tag (v : Word) (x : PReg) : (s.setResult1 v).tag x = s.tag x := rfl
@[simp] theorem setResult1_elem (v : Word) (x : PReg) : (s.setResult1 v).elem x = s.elem x := rfl
@[simp] theorem setResult1_coeff (v : Word) (x : PReg) (i : Nat) : (s.setResult1 v).coeff x i = s.coeff x i := rfl
@[simp] theorem setResult1_arg (v : Word) (j : Fin 8) : (s.setResult1 v).arg j = s.arg j := rfl

/-! ## setKst -/

@[simp] theorem setKst_pr (k : Kst) : (s.setKst k).pr = s.pr := rfl
@[simp] theorem setKst_dmem (k : Kst) : (s.setKst k).dmem = s.dmem := rfl
@[simp] theorem setKst_busy (k : Kst) : (s.setKst k).busy = s.busy := rfl
@[simp] theorem setKst_done (k : Kst) : (s.setKst k).done = s.done := rfl
@[simp] theorem setKst_err (k : Kst) : (s.setKst k).err = s.err := rfl
@[simp] theorem setKst_eq (k : Kst) : (s.setKst k).eq = s.eq := rfl
@[simp] theorem setKst_hz (k : Kst) : (s.setKst k).hz = s.hz := rfl
@[simp] theorem setKst_hzl (k : Kst) : (s.setKst k).hzl = s.hzl := rfl
@[simp] theorem setKst_kst (k : Kst) : (s.setKst k).kst = k := rfl
@[simp] theorem setKst_cmdl (k : Kst) : (s.setKst k).cmdl = s.cmdl := rfl
@[simp] theorem setKst_args (k : Kst) : (s.setKst k).args = s.args := rfl
@[simp] theorem setKst_argl (k : Kst) : (s.setKst k).argl = s.argl := rfl
@[simp] theorem setKst_result0 (k : Kst) : (s.setKst k).result0 = s.result0 := rfl
@[simp] theorem setKst_result1 (k : Kst) : (s.setKst k).result1 = s.result1 := rfl
@[simp] theorem setKst_scratch (k : Kst) : (s.setKst k).scratch = s.scratch := rfl
@[simp] theorem setKst_port (k : Kst) : (s.setKst k).port = s.port := rfl
@[simp] theorem setKst_seen (k : Kst) : (s.setKst k).seen = s.seen := rfl
@[simp] theorem setKst_delay (k : Kst) : (s.setKst k).delay = s.delay := rfl
@[simp] theorem setKst_drawn (k : Kst) : (s.setKst k).drawn = s.drawn := rfl
@[simp] theorem setKst_choices (k : Kst) : (s.setKst k).choices = s.choices := rfl
@[simp] theorem setKst_byte (k : Kst) (x : Nat) : (s.setKst k).byte x = s.byte x := rfl
@[simp] theorem setKst_tag (k : Kst) (x : PReg) : (s.setKst k).tag x = s.tag x := rfl
@[simp] theorem setKst_elem (k : Kst) (x : PReg) : (s.setKst k).elem x = s.elem x := rfl
@[simp] theorem setKst_coeff (k : Kst) (x : PReg) (i : Nat) : (s.setKst k).coeff x i = s.coeff x i := rfl
@[simp] theorem setKst_arg (k : Kst) (j : Fin 8) : (s.setKst k).arg j = s.arg j := rfl

/-! ## setHz -/

@[simp] theorem setHz_pr (b : Bool) : (s.setHz b).pr = s.pr := rfl
@[simp] theorem setHz_dmem (b : Bool) : (s.setHz b).dmem = s.dmem := rfl
@[simp] theorem setHz_busy (b : Bool) : (s.setHz b).busy = s.busy := rfl
@[simp] theorem setHz_done (b : Bool) : (s.setHz b).done = s.done := rfl
@[simp] theorem setHz_err (b : Bool) : (s.setHz b).err = s.err := rfl
@[simp] theorem setHz_eq (b : Bool) : (s.setHz b).eq = s.eq := rfl
@[simp] theorem setHz_hz (b : Bool) : (s.setHz b).hz = b := rfl
@[simp] theorem setHz_hzl (b : Bool) : (s.setHz b).hzl = s.hzl := rfl
@[simp] theorem setHz_kst (b : Bool) : (s.setHz b).kst = s.kst := rfl
@[simp] theorem setHz_cmdl (b : Bool) : (s.setHz b).cmdl = s.cmdl := rfl
@[simp] theorem setHz_args (b : Bool) : (s.setHz b).args = s.args := rfl
@[simp] theorem setHz_argl (b : Bool) : (s.setHz b).argl = s.argl := rfl
@[simp] theorem setHz_result0 (b : Bool) : (s.setHz b).result0 = s.result0 := rfl
@[simp] theorem setHz_result1 (b : Bool) : (s.setHz b).result1 = s.result1 := rfl
@[simp] theorem setHz_scratch (b : Bool) : (s.setHz b).scratch = s.scratch := rfl
@[simp] theorem setHz_port (b : Bool) : (s.setHz b).port = s.port := rfl
@[simp] theorem setHz_seen (b : Bool) : (s.setHz b).seen = s.seen := rfl
@[simp] theorem setHz_delay (b : Bool) : (s.setHz b).delay = s.delay := rfl
@[simp] theorem setHz_drawn (b : Bool) : (s.setHz b).drawn = s.drawn := rfl
@[simp] theorem setHz_choices (b : Bool) : (s.setHz b).choices = s.choices := rfl
@[simp] theorem setHz_byte (b : Bool) (x : Nat) : (s.setHz b).byte x = s.byte x := rfl
@[simp] theorem setHz_tag (b : Bool) (x : PReg) : (s.setHz b).tag x = s.tag x := rfl
@[simp] theorem setHz_elem (b : Bool) (x : PReg) : (s.setHz b).elem x = s.elem x := rfl
@[simp] theorem setHz_coeff (b : Bool) (x : PReg) (i : Nat) : (s.setHz b).coeff x i = s.coeff x i := rfl
@[simp] theorem setHz_arg (b : Bool) (j : Fin 8) : (s.setHz b).arg j = s.arg j := rfl

/-! ## wipe -/

@[simp] theorem wipe_pr : (s.wipe).pr = RegFile.cleared := rfl
@[simp] theorem wipe_dmem : (s.wipe).dmem = [] := rfl
@[simp] theorem wipe_busy : (s.wipe).busy = s.busy := rfl
@[simp] theorem wipe_done : (s.wipe).done = s.done := rfl
@[simp] theorem wipe_err : (s.wipe).err = s.err := rfl
@[simp] theorem wipe_eq : (s.wipe).eq = s.eq := rfl
@[simp] theorem wipe_hz : (s.wipe).hz = s.hz := rfl
@[simp] theorem wipe_hzl : (s.wipe).hzl = s.hzl := rfl
@[simp] theorem wipe_kst : (s.wipe).kst = s.kst := rfl
@[simp] theorem wipe_cmdl : (s.wipe).cmdl = s.cmdl := rfl
@[simp] theorem wipe_args : (s.wipe).args = s.args := rfl
@[simp] theorem wipe_argl : (s.wipe).argl = s.argl := rfl
@[simp] theorem wipe_result0 : (s.wipe).result0 = s.result0 := rfl
@[simp] theorem wipe_result1 : (s.wipe).result1 = s.result1 := rfl
@[simp] theorem wipe_scratch : (s.wipe).scratch = s.scratch := rfl
@[simp] theorem wipe_port : (s.wipe).port = s.port := rfl
@[simp] theorem wipe_seen : (s.wipe).seen = s.seen := rfl
@[simp] theorem wipe_delay : (s.wipe).delay = s.delay := rfl
@[simp] theorem wipe_drawn : (s.wipe).drawn = s.drawn := rfl
@[simp] theorem wipe_choices : (s.wipe).choices = s.choices := rfl
@[simp] theorem wipe_arg (j : Fin 8) : (s.wipe).arg j = s.arg j := rfl
@[simp] theorem wipe_byte (x : Nat) : s.wipe.byte x = 0 := rfl

/-! ## clearKey -/

@[simp] theorem clearKey_pr (a n : Nat) : (s.clearKey a n).pr = s.pr := rfl
@[simp] theorem clearKey_dmem (a n : Nat) : (s.clearKey a n).dmem = Memory.write s.dmem a (zeros n) := rfl
@[simp] theorem clearKey_busy (a n : Nat) : (s.clearKey a n).busy = s.busy := rfl
@[simp] theorem clearKey_done (a n : Nat) : (s.clearKey a n).done = s.done := rfl
@[simp] theorem clearKey_err (a n : Nat) : (s.clearKey a n).err = s.err := rfl
@[simp] theorem clearKey_eq (a n : Nat) : (s.clearKey a n).eq = s.eq := rfl
@[simp] theorem clearKey_hz (a n : Nat) : (s.clearKey a n).hz = s.hz := rfl
@[simp] theorem clearKey_hzl (a n : Nat) : (s.clearKey a n).hzl = s.hzl := rfl
@[simp] theorem clearKey_kst (a n : Nat) : (s.clearKey a n).kst = s.kst := rfl
@[simp] theorem clearKey_cmdl (a n : Nat) : (s.clearKey a n).cmdl = s.cmdl := rfl
@[simp] theorem clearKey_args (a n : Nat) : (s.clearKey a n).args = s.args := rfl
@[simp] theorem clearKey_argl (a n : Nat) : (s.clearKey a n).argl = s.argl := rfl
@[simp] theorem clearKey_result0 (a n : Nat) : (s.clearKey a n).result0 = s.result0 := rfl
@[simp] theorem clearKey_result1 (a n : Nat) : (s.clearKey a n).result1 = s.result1 := rfl
@[simp] theorem clearKey_scratch (a n : Nat) : (s.clearKey a n).scratch = s.scratch := rfl
@[simp] theorem clearKey_port (a n : Nat) : (s.clearKey a n).port = s.port := rfl
@[simp] theorem clearKey_seen (a n : Nat) : (s.clearKey a n).seen = s.seen := rfl
@[simp] theorem clearKey_delay (a n : Nat) : (s.clearKey a n).delay = s.delay := rfl
@[simp] theorem clearKey_drawn (a n : Nat) : (s.clearKey a n).drawn = s.drawn := rfl
@[simp] theorem clearKey_choices (a n : Nat) : (s.clearKey a n).choices = s.choices := rfl
@[simp] theorem clearKey_tag (a n : Nat) (x : PReg) : (s.clearKey a n).tag x = s.tag x := rfl
@[simp] theorem clearKey_elem (a n : Nat) (x : PReg) : (s.clearKey a n).elem x = s.elem x := rfl
@[simp] theorem clearKey_coeff (a n : Nat) (x : PReg) (i : Nat) : (s.clearKey a n).coeff x i = s.coeff x i := rfl
@[simp] theorem clearKey_arg (a n : Nat) (j : Fin 8) : (s.clearKey a n).arg j = s.arg j := rfl

/-! ## afterDraw -/

@[simp] theorem afterDraw_pr (n : Nat) : (s.afterDraw n).pr = s.pr := rfl
@[simp] theorem afterDraw_dmem (n : Nat) : (s.afterDraw n).dmem = s.dmem := rfl
@[simp] theorem afterDraw_busy (n : Nat) : (s.afterDraw n).busy = s.busy := rfl
@[simp] theorem afterDraw_done (n : Nat) : (s.afterDraw n).done = s.done := rfl
@[simp] theorem afterDraw_err (n : Nat) : (s.afterDraw n).err = s.err := rfl
@[simp] theorem afterDraw_eq (n : Nat) : (s.afterDraw n).eq = s.eq := rfl
@[simp] theorem afterDraw_hz (n : Nat) : (s.afterDraw n).hz = s.hz := rfl
@[simp] theorem afterDraw_hzl (n : Nat) : (s.afterDraw n).hzl = s.hzl := rfl
@[simp] theorem afterDraw_kst (n : Nat) : (s.afterDraw n).kst = s.kst := rfl
@[simp] theorem afterDraw_cmdl (n : Nat) : (s.afterDraw n).cmdl = s.cmdl := rfl
@[simp] theorem afterDraw_args (n : Nat) : (s.afterDraw n).args = s.args := rfl
@[simp] theorem afterDraw_argl (n : Nat) : (s.afterDraw n).argl = s.argl := rfl
@[simp] theorem afterDraw_result0 (n : Nat) : (s.afterDraw n).result0 = s.result0 := rfl
@[simp] theorem afterDraw_result1 (n : Nat) : (s.afterDraw n).result1 = s.result1 := rfl
@[simp] theorem afterDraw_scratch (n : Nat) : (s.afterDraw n).scratch = s.scratch := rfl
@[simp] theorem afterDraw_port (n : Nat) : (s.afterDraw n).port = s.port := rfl
@[simp] theorem afterDraw_seen (n : Nat) : (s.afterDraw n).seen = s.seen := rfl
@[simp] theorem afterDraw_delay (n : Nat) : (s.afterDraw n).delay = s.delay := rfl
@[simp] theorem afterDraw_drawn (n : Nat) : (s.afterDraw n).drawn = s.drawn + n := rfl
@[simp] theorem afterDraw_choices (n : Nat) : (s.afterDraw n).choices = s.choices := rfl
@[simp] theorem afterDraw_byte (n : Nat) (x : Nat) : (s.afterDraw n).byte x = s.byte x := rfl
@[simp] theorem afterDraw_tag (n : Nat) (x : PReg) : (s.afterDraw n).tag x = s.tag x := rfl
@[simp] theorem afterDraw_elem (n : Nat) (x : PReg) : (s.afterDraw n).elem x = s.elem x := rfl
@[simp] theorem afterDraw_coeff (n : Nat) (x : PReg) (i : Nat) : (s.afterDraw n).coeff x i = s.coeff x i := rfl
@[simp] theorem afterDraw_arg (n : Nat) (j : Fin 8) : (s.afterDraw n).arg j = s.arg j := rfl

/-! ## complete -/

@[simp] theorem complete_pr (c : Code) : (s.complete c).pr = s.pr := rfl
@[simp] theorem complete_dmem (c : Code) : (s.complete c).dmem = s.dmem := rfl
@[simp] theorem complete_busy (c : Code) : (s.complete c).busy = false := rfl
@[simp] theorem complete_done (c : Code) : (s.complete c).done = true := rfl
@[simp] theorem complete_err (c : Code) : (s.complete c).err = c := rfl
@[simp] theorem complete_eq (c : Code) : (s.complete c).eq = s.eq := rfl
@[simp] theorem complete_hz (c : Code) : (s.complete c).hz = s.hz := rfl
@[simp] theorem complete_hzl (c : Code) : (s.complete c).hzl = s.hzl := rfl
@[simp] theorem complete_kst (c : Code) : (s.complete c).kst = s.kst := rfl
@[simp] theorem complete_cmdl (c : Code) : (s.complete c).cmdl = s.cmdl := rfl
@[simp] theorem complete_args (c : Code) : (s.complete c).args = s.args := rfl
@[simp] theorem complete_argl (c : Code) : (s.complete c).argl = s.argl := rfl
@[simp] theorem complete_result0 (c : Code) : (s.complete c).result0 = s.result0 := rfl
@[simp] theorem complete_result1 (c : Code) : (s.complete c).result1 = s.result1 := rfl
@[simp] theorem complete_scratch (c : Code) : (s.complete c).scratch = Scratch.zero := rfl
@[simp] theorem complete_port (c : Code) : (s.complete c).port = s.port := rfl
@[simp] theorem complete_seen (c : Code) : (s.complete c).seen = s.seen := rfl
@[simp] theorem complete_delay (c : Code) : (s.complete c).delay = s.delay := rfl
@[simp] theorem complete_drawn (c : Code) : (s.complete c).drawn = s.drawn := rfl
@[simp] theorem complete_choices (c : Code) : (s.complete c).choices = s.choices := rfl
@[simp] theorem complete_byte (c : Code) (x : Nat) : (s.complete c).byte x = s.byte x := rfl
@[simp] theorem complete_tag (c : Code) (x : PReg) : (s.complete c).tag x = s.tag x := rfl
@[simp] theorem complete_elem (c : Code) (x : PReg) : (s.complete c).elem x = s.elem x := rfl
@[simp] theorem complete_coeff (c : Code) (x : PReg) (i : Nat) : (s.complete c).coeff x i = s.coeff x i := rfl
@[simp] theorem complete_arg (c : Code) (j : Fin 8) : (s.complete c).arg j = s.arg j := rfl

/-! ## holding -/

@[simp] theorem holding_pr (w : Scratch) : (s.holding w).pr = s.pr := rfl
@[simp] theorem holding_dmem (w : Scratch) : (s.holding w).dmem = s.dmem := rfl
@[simp] theorem holding_busy (w : Scratch) : (s.holding w).busy = s.busy := rfl
@[simp] theorem holding_done (w : Scratch) : (s.holding w).done = s.done := rfl
@[simp] theorem holding_err (w : Scratch) : (s.holding w).err = s.err := rfl
@[simp] theorem holding_eq (w : Scratch) : (s.holding w).eq = s.eq := rfl
@[simp] theorem holding_hz (w : Scratch) : (s.holding w).hz = s.hz := rfl
@[simp] theorem holding_hzl (w : Scratch) : (s.holding w).hzl = s.hzl := rfl
@[simp] theorem holding_kst (w : Scratch) : (s.holding w).kst = s.kst := rfl
@[simp] theorem holding_cmdl (w : Scratch) : (s.holding w).cmdl = s.cmdl := rfl
@[simp] theorem holding_args (w : Scratch) : (s.holding w).args = s.args := rfl
@[simp] theorem holding_argl (w : Scratch) : (s.holding w).argl = s.argl := rfl
@[simp] theorem holding_result0 (w : Scratch) : (s.holding w).result0 = s.result0 := rfl
@[simp] theorem holding_result1 (w : Scratch) : (s.holding w).result1 = s.result1 := rfl
@[simp] theorem holding_scratch (w : Scratch) : (s.holding w).scratch = { w with groups := s.scratch.groups } := rfl
@[simp] theorem holding_port (w : Scratch) : (s.holding w).port = s.port := rfl
@[simp] theorem holding_seen (w : Scratch) : (s.holding w).seen = s.seen := rfl
@[simp] theorem holding_delay (w : Scratch) : (s.holding w).delay = s.delay := rfl
@[simp] theorem holding_drawn (w : Scratch) : (s.holding w).drawn = s.drawn := rfl
@[simp] theorem holding_choices (w : Scratch) : (s.holding w).choices = s.choices := rfl
@[simp] theorem holding_byte (w : Scratch) (x : Nat) : (s.holding w).byte x = s.byte x := rfl
@[simp] theorem holding_tag (w : Scratch) (x : PReg) : (s.holding w).tag x = s.tag x := rfl
@[simp] theorem holding_elem (w : Scratch) (x : PReg) : (s.holding w).elem x = s.elem x := rfl
@[simp] theorem holding_coeff (w : Scratch) (x : PReg) (i : Nat) : (s.holding w).coeff x i = s.coeff x i := rfl
@[simp] theorem holding_arg (w : Scratch) (j : Fin 8) : (s.holding w).arg j = s.arg j := rfl
/-- Whatever a command held in scratch, completion overwrites it (R58). -/
@[simp] theorem complete_holding (w : Scratch) (c : Code) : (s.holding w).complete c = s.complete c := rfl
@[simp] theorem writeMem_holding (w : Scratch) (a : Nat) (b : Bytes) : (s.holding w).writeMem a b = (s.writeMem a b).holding w := rfl
@[simp] theorem setKst_holding (w : Scratch) (k : Kst) : (s.holding w).setKst k = (s.setKst k).holding w := rfl
@[simp] theorem setResult0_holding (w : Scratch) (v : Word) : (s.holding w).setResult0 v = (s.setResult0 v).holding w := rfl
@[simp] theorem setResult1_holding (w : Scratch) (v : Word) : (s.holding w).setResult1 v = (s.setResult1 v).holding w := rfl
@[simp] theorem afterRandom_holding (w : Scratch) (b : Bool) (n : Nat) :
    (s.holding w).afterRandom b n = (s.afterRandom b n).holding w := by cases b <;> rfl

/-! ## keepSampling -/

@[simp] theorem keepSampling_pr (w : Scratch) : (s.keepSampling w).pr = s.pr := rfl
@[simp] theorem keepSampling_dmem (w : Scratch) : (s.keepSampling w).dmem = s.dmem := rfl
@[simp] theorem keepSampling_busy (w : Scratch) : (s.keepSampling w).busy = s.busy := rfl
@[simp] theorem keepSampling_done (w : Scratch) : (s.keepSampling w).done = s.done := rfl
@[simp] theorem keepSampling_err (w : Scratch) : (s.keepSampling w).err = s.err := rfl
@[simp] theorem keepSampling_eq (w : Scratch) : (s.keepSampling w).eq = s.eq := rfl
@[simp] theorem keepSampling_hz (w : Scratch) : (s.keepSampling w).hz = s.hz := rfl
@[simp] theorem keepSampling_hzl (w : Scratch) : (s.keepSampling w).hzl = s.hzl := rfl
@[simp] theorem keepSampling_kst (w : Scratch) : (s.keepSampling w).kst = s.kst := rfl
@[simp] theorem keepSampling_cmdl (w : Scratch) : (s.keepSampling w).cmdl = s.cmdl := rfl
@[simp] theorem keepSampling_args (w : Scratch) : (s.keepSampling w).args = s.args := rfl
@[simp] theorem keepSampling_argl (w : Scratch) : (s.keepSampling w).argl = s.argl := rfl
@[simp] theorem keepSampling_result0 (w : Scratch) : (s.keepSampling w).result0 = s.result0 := rfl
@[simp] theorem keepSampling_result1 (w : Scratch) : (s.keepSampling w).result1 = s.result1 := rfl
@[simp] theorem keepSampling_scratch (w : Scratch) : (s.keepSampling w).scratch = { w with groups := s.scratch.groups + 1 } := rfl
@[simp] theorem keepSampling_port (w : Scratch) : (s.keepSampling w).port = s.port := rfl
@[simp] theorem keepSampling_seen (w : Scratch) : (s.keepSampling w).seen = s.seen := rfl
@[simp] theorem keepSampling_delay (w : Scratch) : (s.keepSampling w).delay = Config.engineDelay s.choices + 1 := rfl
@[simp] theorem keepSampling_drawn (w : Scratch) : (s.keepSampling w).drawn = s.drawn := rfl
@[simp] theorem keepSampling_choices (w : Scratch) : (s.keepSampling w).choices = s.choices + 1 := rfl
@[simp] theorem keepSampling_byte (w : Scratch) (x : Nat) : (s.keepSampling w).byte x = s.byte x := rfl
@[simp] theorem keepSampling_tag (w : Scratch) (x : PReg) : (s.keepSampling w).tag x = s.tag x := rfl
@[simp] theorem keepSampling_elem (w : Scratch) (x : PReg) : (s.keepSampling w).elem x = s.elem x := rfl
@[simp] theorem keepSampling_coeff (w : Scratch) (x : PReg) (i : Nat) : (s.keepSampling w).coeff x i = s.coeff x i := rfl
@[simp] theorem keepSampling_arg (w : Scratch) (j : Fin 8) : (s.keepSampling w).arg j = s.arg j := rfl

/-! ## latch -/

@[simp] theorem latch_pr (w : Word) : (s.latch w).pr = s.pr := rfl
@[simp] theorem latch_dmem (w : Word) : (s.latch w).dmem = s.dmem := rfl
@[simp] theorem latch_busy (w : Word) : (s.latch w).busy = true := rfl
@[simp] theorem latch_done (w : Word) : (s.latch w).done = false := rfl
@[simp] theorem latch_err (w : Word) : (s.latch w).err = s.err := rfl
@[simp] theorem latch_eq (w : Word) : (s.latch w).eq = false := rfl
@[simp] theorem latch_hz (w : Word) : (s.latch w).hz = s.hz := rfl
@[simp] theorem latch_hzl (w : Word) : (s.latch w).hzl = s.hz := rfl
@[simp] theorem latch_kst (w : Word) : (s.latch w).kst = s.kst := rfl
@[simp] theorem latch_cmdl (w : Word) : (s.latch w).cmdl = w := rfl
@[simp] theorem latch_args (w : Word) : (s.latch w).args = s.args := rfl
@[simp] theorem latch_argl (w : Word) : (s.latch w).argl = s.args := rfl
@[simp] theorem latch_result0 (w : Word) : (s.latch w).result0 = 0 := rfl
@[simp] theorem latch_result1 (w : Word) : (s.latch w).result1 = 0 := rfl
@[simp] theorem latch_scratch (w : Word) : (s.latch w).scratch = s.scratch := rfl
@[simp] theorem latch_port (w : Word) : (s.latch w).port = s.port := rfl
@[simp] theorem latch_seen (w : Word) : (s.latch w).seen = s.seen := rfl
@[simp] theorem latch_delay (w : Word) : (s.latch w).delay = s.delay := rfl
@[simp] theorem latch_drawn (w : Word) : (s.latch w).drawn = s.drawn := rfl
@[simp] theorem latch_choices (w : Word) : (s.latch w).choices = s.choices := rfl
@[simp] theorem latch_byte (w : Word) (x : Nat) : (s.latch w).byte x = s.byte x := rfl
@[simp] theorem latch_tag (w : Word) (x : PReg) : (s.latch w).tag x = s.tag x := rfl
@[simp] theorem latch_elem (w : Word) (x : PReg) : (s.latch w).elem x = s.elem x := rfl
@[simp] theorem latch_coeff (w : Word) (x : PReg) (i : Nat) : (s.latch w).coeff x i = s.coeff x i := rfl

/-! ## hostPasses -/

@[simp] theorem hostPasses_pr : (s.hostPasses).pr = s.pr := rfl
@[simp] theorem hostPasses_dmem : (s.hostPasses).dmem = s.dmem := rfl
@[simp] theorem hostPasses_busy : (s.hostPasses).busy = s.busy := rfl
@[simp] theorem hostPasses_done : (s.hostPasses).done = s.done := rfl
@[simp] theorem hostPasses_err : (s.hostPasses).err = s.err := rfl
@[simp] theorem hostPasses_eq : (s.hostPasses).eq = s.eq := rfl
@[simp] theorem hostPasses_hz : (s.hostPasses).hz = s.hz := rfl
@[simp] theorem hostPasses_hzl : (s.hostPasses).hzl = s.hzl := rfl
@[simp] theorem hostPasses_kst : (s.hostPasses).kst = s.kst := rfl
@[simp] theorem hostPasses_cmdl : (s.hostPasses).cmdl = s.cmdl := rfl
@[simp] theorem hostPasses_args : (s.hostPasses).args = s.args := rfl
@[simp] theorem hostPasses_argl : (s.hostPasses).argl = s.argl := rfl
@[simp] theorem hostPasses_result0 : (s.hostPasses).result0 = s.result0 := rfl
@[simp] theorem hostPasses_result1 : (s.hostPasses).result1 = s.result1 := rfl
@[simp] theorem hostPasses_scratch : (s.hostPasses).scratch = s.scratch := rfl
@[simp] theorem hostPasses_port : (s.hostPasses).port = s.port := rfl
@[simp] theorem hostPasses_seen : (s.hostPasses).seen = s.seen := rfl
@[simp] theorem hostPasses_delay : (s.hostPasses).delay = s.delay - 1 := rfl
@[simp] theorem hostPasses_drawn : (s.hostPasses).drawn = s.drawn := rfl
@[simp] theorem hostPasses_choices : (s.hostPasses).choices = s.choices := rfl
@[simp] theorem hostPasses_byte (x : Nat) : (s.hostPasses).byte x = s.byte x := rfl
@[simp] theorem hostPasses_tag (x : PReg) : (s.hostPasses).tag x = s.tag x := rfl
@[simp] theorem hostPasses_elem (x : PReg) : (s.hostPasses).elem x = s.elem x := rfl
@[simp] theorem hostPasses_coeff (x : PReg) (i : Nat) : (s.hostPasses).coeff x i = s.coeff x i := rfl
@[simp] theorem hostPasses_arg (j : Fin 8) : (s.hostPasses).arg j = s.arg j := rfl

/-! ## afterRandom: a command in seeded mode makes no draw (R60) -/

@[simp] theorem afterRandom_pr (b : Bool) (n : Nat) : (s.afterRandom b n).pr = s.pr := by cases b <;> rfl
@[simp] theorem afterRandom_dmem (b : Bool) (n : Nat) : (s.afterRandom b n).dmem = s.dmem := by cases b <;> rfl
@[simp] theorem afterRandom_busy (b : Bool) (n : Nat) : (s.afterRandom b n).busy = s.busy := by cases b <;> rfl
@[simp] theorem afterRandom_done (b : Bool) (n : Nat) : (s.afterRandom b n).done = s.done := by cases b <;> rfl
@[simp] theorem afterRandom_err (b : Bool) (n : Nat) : (s.afterRandom b n).err = s.err := by cases b <;> rfl
@[simp] theorem afterRandom_eq (b : Bool) (n : Nat) : (s.afterRandom b n).eq = s.eq := by cases b <;> rfl
@[simp] theorem afterRandom_hz (b : Bool) (n : Nat) : (s.afterRandom b n).hz = s.hz := by cases b <;> rfl
@[simp] theorem afterRandom_hzl (b : Bool) (n : Nat) : (s.afterRandom b n).hzl = s.hzl := by cases b <;> rfl
@[simp] theorem afterRandom_kst (b : Bool) (n : Nat) : (s.afterRandom b n).kst = s.kst := by cases b <;> rfl
@[simp] theorem afterRandom_cmdl (b : Bool) (n : Nat) : (s.afterRandom b n).cmdl = s.cmdl := by cases b <;> rfl
@[simp] theorem afterRandom_args (b : Bool) (n : Nat) : (s.afterRandom b n).args = s.args := by cases b <;> rfl
@[simp] theorem afterRandom_argl (b : Bool) (n : Nat) : (s.afterRandom b n).argl = s.argl := by cases b <;> rfl
@[simp] theorem afterRandom_result0 (b : Bool) (n : Nat) : (s.afterRandom b n).result0 = s.result0 := by cases b <;> rfl
@[simp] theorem afterRandom_result1 (b : Bool) (n : Nat) : (s.afterRandom b n).result1 = s.result1 := by cases b <;> rfl
@[simp] theorem afterRandom_scratch (b : Bool) (n : Nat) : (s.afterRandom b n).scratch = s.scratch := by cases b <;> rfl
@[simp] theorem afterRandom_port (b : Bool) (n : Nat) : (s.afterRandom b n).port = s.port := by cases b <;> rfl
@[simp] theorem afterRandom_seen (b : Bool) (n : Nat) : (s.afterRandom b n).seen = s.seen := by cases b <;> rfl
@[simp] theorem afterRandom_delay (b : Bool) (n : Nat) : (s.afterRandom b n).delay = s.delay := by cases b <;> rfl
@[simp] theorem afterRandom_drawn (b : Bool) (n : Nat) : (s.afterRandom b n).drawn = if b then s.drawn else s.drawn + n := by
  cases b <;> rfl
@[simp] theorem afterRandom_choices (b : Bool) (n : Nat) : (s.afterRandom b n).choices = s.choices := by cases b <;> rfl
@[simp] theorem afterRandom_arg (b : Bool) (n : Nat) (j : Fin 8) : (s.afterRandom b n).arg j = s.arg j := by cases b <;> rfl
@[simp] theorem afterRandom_byte (b : Bool) (n x : Nat) : (s.afterRandom b n).byte x = s.byte x := by cases b <;> rfl

end Sys2Proof.Machine.State
end

