-- ==== Sys2Proof/Laws/Memory.lean ====
section
/-! SUPPORT. What the memory operations do: a read after a write, the canonical form, and its consequence that equal memories are
equal data. -/

namespace Sys2Proof.Machine

namespace Memory

/-- Reading where nothing is listed. -/
theorem read_of_not_mem : ∀ {m : Memory} {a : Nat}, (∀ c ∈ m, c.1 ≠ a) → read m a = 0
  | [], _, _ => rfl
  | c :: cs, a, h => by
    simp only [read]
    rw [if_neg (h c (List.mem_cons_self ..))]
    exact read_of_not_mem fun d hd => h d (List.mem_cons_of_mem _ hd)

theorem read_append : ∀ (m m' : Memory) (a : Nat),
    read (m ++ m') a = if ∃ c ∈ m, c.1 = a then read m a else read m' a
  | [], m', a => by simp
  | c :: cs, m', a => by
    by_cases h : c.1 = a
    · simp [read, h]
    · simp [read, h, read_append cs m' a]

/-- Reading a memory of which only the cells that satisfy a test on their address are kept. -/
theorem read_filter (p : Nat → Bool) : ∀ (m : Memory) (a : Nat),
    read (m.filter fun c => p c.1) a = if p a then read m a else 0
  | [], a => by simp [read]
  | c :: cs, a => by
    by_cases hc : p c.1 <;> by_cases ha : c.1 = a
    · subst ha; simp [List.filter, hc, read]
    · simp [List.filter, hc, read, ha, read_filter p cs a]
    · subst ha; simp [List.filter, hc, read_filter p cs c.1]
    · simp [List.filter, hc, read, ha, read_filter p cs a]

theorem cells_range : ∀ {a : Nat} {b : Bytes} {c : Host.Cell}, c ∈ cells a b → a ≤ c.1 ∧ c.1 < a + b.length ∧ c.2 ≠ 0
  | _, [], c, h => by simp [cells] at h
  | a, x :: xs, c, h => by
    simp only [cells] at h
    split at h
    · have := cells_range h; simp only [List.length_cons]; exact ⟨by omega, by omega, this.2.2⟩
    · rcases List.mem_cons.1 h with rfl | h
      · simp only [List.length_cons]; exact ⟨by omega, by omega, by assumption⟩
      · have := cells_range h; simp only [List.length_cons]; exact ⟨by omega, by omega, this.2.2⟩

theorem read_cells : ∀ (a : Nat) (b : Bytes) (x : Nat),
    read (cells a b) x = if a ≤ x ∧ x < a + b.length then b.getD (x - a) 0 else 0
  | a, [], x => by simp [cells, read]
  | a, y :: ys, x => by
    have ih := read_cells (a + 1) ys x
    simp only [cells, List.length_cons]
    by_cases hx : x = a
    · subst hx
      have h0 : read (cells (x + 1) ys) x = 0 := read_of_not_mem fun c hc => by have := cells_range hc; omega
      split <;> simp_all [read]
    · have hsub : a < x → x - a = (x - (a + 1)) + 1 := by omega
      have hne : ¬ a = x := fun h => hx h.symm
      split
      · rw [ih]; split <;> split <;> first | omega | rfl | (rw [hsub (by omega)]; rfl)
      · simp only [read, if_neg hne]
        rw [ih]; split <;> split <;> first | omega | rfl | (rw [hsub (by omega)]; rfl)

/-- A read after a write: the written byte inside the region, the old one outside. -/
theorem read_write (m : Memory) (a : Nat) (b : Bytes) (x : Nat) :
    read (write m a b) x = if a ≤ x ∧ x < a + b.length then b.getD (x - a) 0 else read m x := by
  have hlo := read_filter (fun y => decide (y < a)) m x
  have hhi := read_filter (fun y => decide (a + b.length ≤ y)) m x
  simp only [write, read_append, hlo, hhi, read_cells]
  by_cases h1 : x < a
  · have hno : ¬ (a ≤ x ∧ x < a + b.length) := by omega
    have hno2 : ¬ (a + b.length ≤ x) := by omega
    rw [if_neg hno]
    split
    · split
      · simp [h1]
      · rename_i h2 h3
        obtain ⟨c, hc, rfl⟩ := h2
        rcases List.mem_append.1 hc with hc | hc
        · exact absurd ⟨c, hc, rfl⟩ h3
        · have := cells_range hc; omega
    · rename_i h2
      have : read m x = 0 := by
        have := read_filter (fun y => decide (y < a)) m x
        rw [read_of_not_mem (fun c hc he => h2 ⟨c, List.mem_append_left _ hc, he⟩)] at this
        simpa [h1] using this.symm
      simp [this]
  · by_cases h2 : x < a + b.length
    · have hin : a ≤ x ∧ x < a + b.length := by omega
      have hno2 : ¬ (a + b.length ≤ x) := by omega
      rw [if_pos hin]
      split
      · split
        · rename_i h3
          obtain ⟨c, hc, rfl⟩ := h3
          have := (List.mem_filter.1 hc).2
          simp at this; omega
        · rfl
      · rename_i h3
        have : read (cells a b) x = 0 := read_of_not_mem fun c hc he => h3 ⟨c, List.mem_append_right _ hc, he⟩
        rw [read_cells, if_pos hin] at this
        rw [this]; simp [hno2]
    · have hno : ¬ (a ≤ x ∧ x < a + b.length) := by omega
      have h2' : a + b.length ≤ x := by omega
      rw [if_neg hno]
      split
      · rename_i h3
        obtain ⟨c, hc, rfl⟩ := h3
        rcases List.mem_append.1 hc with hc | hc
        · have := (List.mem_filter.1 hc).2
          simp at this; omega
        · have := cells_range hc; omega
      · simp [h2']

theorem cells_sorted : ∀ (a : Nat) (b : Bytes), (cells a b).Pairwise (fun c d => c.1 < d.1)
  | _, [] => List.Pairwise.nil
  | a, x :: xs => by
    simp only [cells]
    split
    · exact cells_sorted (a + 1) xs
    · exact List.pairwise_cons.2 ⟨fun c hc => by have := cells_range hc; simp only; omega, cells_sorted (a + 1) xs⟩

/-- The reset memory has the canonical form. -/
theorem wf_nil : wf [] := ⟨List.Pairwise.nil, fun _ h => absurd h List.not_mem_nil⟩

/-- A write inside DMEM keeps the canonical form. -/
theorem write_wf {m : Memory} {a : Nat} {b : Bytes} (h : wf m) (hb : a + b.length ≤ Config.dmemSize) : wf (write m a b) := by
  refine ⟨?_, fun c hc => ?_⟩
  · simp only [write, List.pairwise_append]
    refine ⟨⟨h.1.filter _, cells_sorted a b, fun c hc d hd => ?_⟩, h.1.filter _, fun c hc d hd => ?_⟩
    · have h1 := (List.mem_filter.1 hc).2
      have h2 := cells_range hd
      simp at h1; omega
    · have h2 := (List.mem_filter.1 hd).2
      simp at h2
      rcases List.mem_append.1 hc with hc | hc
      · have h1 := (List.mem_filter.1 hc).2
        simp at h1; omega
      · have h1 := cells_range hc; omega
  · simp only [write] at hc
    rcases List.mem_append.1 hc with hc | hc
    · rcases List.mem_append.1 hc with hc | hc
      · exact h.2 c (List.mem_filter.1 hc).1
      · have := cells_range hc; exact ⟨by omega, this.2.2⟩
    · exact h.2 c (List.mem_filter.1 hc).1

/-- Equal reads make equal data: the canonical form has one memory for each content. -/
theorem eq_of_read_eq : ∀ {m m' : Memory}, wf m → wf m' → (∀ a, read m a = read m' a) → m = m'
  | [], [], _, _, _ => rfl
  | [], d :: ds, _, h', e => by
    have := e d.1
    simp [read] at this
    exact absurd this.symm (h'.2 d (List.mem_cons_self ..)).2
  | c :: cs, [], h, _, e => by
    have := e c.1
    simp [read] at this
    exact absurd this (h.2 c (List.mem_cons_self ..)).2
  | c :: cs, d :: ds, h, h', e => by
    have hc := List.pairwise_cons.1 h.1
    have hd := List.pairwise_cons.1 h'.1
    have nc : ∀ a, a ≤ c.1 → read cs a = 0 := fun a ha => read_of_not_mem fun x hx => by have := hc.1 x hx; omega
    have nd : ∀ a, a ≤ d.1 → read ds a = 0 := fun a ha => read_of_not_mem fun x hx => by have := hd.1 x hx; omega
    have c0 := (h.2 c (List.mem_cons_self ..)).2
    have d0 := (h'.2 d (List.mem_cons_self ..)).2
    have hk : c.1 = d.1 := by
      rcases Nat.lt_trichotomy c.1 d.1 with hlt | heq | hgt
      · have := e c.1
        rw [read, if_pos rfl, read, if_neg (by omega), nd c.1 (by omega)] at this
        exact absurd this c0
      · exact heq
      · have := e d.1
        rw [read, if_neg (by omega), nc d.1 (by omega), read, if_pos rfl] at this
        exact absurd this.symm d0
    have hv : c.2 = d.2 := by
      have := e c.1
      rwa [read, if_pos rfl, read, if_pos hk.symm] at this
    have ht : cs = ds := by
      refine eq_of_read_eq ⟨hc.2, fun x hx => h.2 x (List.mem_cons_of_mem _ hx)⟩
        ⟨hd.2, fun x hx => h'.2 x (List.mem_cons_of_mem _ hx)⟩ fun a => ?_
      have := e a
      by_cases ha : c.1 = a
      · rw [nc a (by omega), nd a (by omega)]
      · rwa [read, if_neg ha, read, if_neg (by omega)] at this
    rw [Prod.ext hk hv, ht]

@[simp] theorem readBytes_length (m : Memory) (a n : Nat) : (readBytes m a n).length = n := by simp [readBytes]

@[simp] theorem getElem_readBytes (m : Memory) (a n j : Nat) (h : j < (readBytes m a n).length) :
    (readBytes m a n)[j] = read m (a + j) := by simp [readBytes]

theorem getD_readBytes (m : Memory) (a n j : Nat) (h : j < n) : (readBytes m a n).getD j 0 = read m (a + j) := by
  simp [readBytes, h]

end Memory

namespace State

variable (s : State)

/-- A byte after a write (R14). -/
theorem writeMem_byte (a : Nat) (b : Bytes) (x : Nat) : (s.writeMem a b).byte x = written a b s.byte x :=
  Memory.read_write s.dmem a b x

@[simp] theorem readMem_length (a n : Nat) : (s.readMem a n).length = n := Memory.readBytes_length ..

theorem getD_readMem (a n j : Nat) (h : j < n) : (s.readMem a n).getD j 0 = s.byte (a + j) := Memory.getD_readBytes _ _ _ _ h

@[simp] theorem drawBytes_length (n : Nat) : (s.drawBytes n).length = n := by simp [drawBytes]

@[simp] theorem randomBytes_length (b : Bool) (a n : Nat) : (s.randomBytes b a n).length = n := by
  cases b <;> simp [randomBytes]

/-- A slice of the bytes read is the bytes read further on. -/
theorem slice_readMem (a n k m : Nat) (h : k + m ≤ n) : slice (s.readMem a n) k m = s.readMem (a + k) m := by
  simp only [slice, State.readMem, Memory.readBytes]
  refine List.ext_getElem (by simp; omega) fun i h1 h2 => ?_
  simp only [List.getElem_take, List.getElem_drop, List.getElem_map, List.getElem_range]
  congr 1; omega

/-- A slice of the bytes drawn is the bytes drawn further on. -/
theorem slice_drawBytes (n k m : Nat) (h : k + m ≤ n) : slice (s.drawBytes n) k m = s.entropyBytes k m := by
  simp only [slice, State.drawBytes, State.entropyBytes]
  refine List.ext_getElem (by simp; omega) fun i h1 h2 => ?_
  simp only [List.getElem_take, List.getElem_drop, List.getElem_map, List.getElem_range]

theorem drawBytes_eq (n : Nat) : s.drawBytes n = s.entropyBytes 0 n := by simp [State.drawBytes, State.entropyBytes]

end State

@[simp] theorem zeros_length (n : Nat) : (zeros n).length = n := List.length_replicate

@[simp] theorem zeros_getD (n i : Nat) : (zeros n).getD i 0 = 0 := by
  simp only [zeros, List.getD_eq_getElem?_getD, List.getElem?_replicate]; split <;> rfl

end Sys2Proof.Machine
end

