-- ==== Sys2Proof/Laws/Ring.lean ====
section
/-! SUPPORT. The reducer, the registers' storage form, and that every ring operation gives 256 centred coefficients. -/

namespace Sys2Proof.Machine

/-! ## The reducer (R150) -/

theorem reduce_centred (x : Int) : Centred (reduce x) := by
  simp only [reduce, Config.q]; split <;> constructor <;> omega

theorem reduce_emod (x : Int) : reduce x % 3329 = x % 3329 := by
  simp only [reduce, Config.q]; split <;> omega

/-- The centred representative is unique. -/
theorem eq_reduce_of_centred {x y : Int} (hy : Centred y) (h : y % 3329 = x % 3329) : y = reduce x := by
  obtain ⟨h1, h2⟩ := hy
  simp only [reduce, Config.q]; split <;> omega

theorem reduce_of_centred {x : Int} (h : Centred x) : reduce x = x := (eq_reduce_of_centred h rfl).symm

theorem reduce_eq_reduce {x y : Int} : reduce x = reduce y ↔ x % 3329 = y % 3329 := by
  constructor
  · intro h; rw [← reduce_emod x, h, reduce_emod]
  · intro h; exact eq_reduce_of_centred (reduce_centred x) (by rw [reduce_emod, h])

theorem reduce_reduce (x : Int) : reduce (reduce x) = reduce x := reduce_of_centred (reduce_centred x)

theorem reduce_add (x y : Int) : reduce (reduce x + reduce y) = reduce (x + y) := by
  rw [reduce_eq_reduce, Int.add_emod, reduce_emod, reduce_emod, ← Int.add_emod]

theorem reduce_sub (x y : Int) : reduce (reduce x - reduce y) = reduce (x - y) := by
  rw [reduce_eq_reduce, Int.sub_emod, reduce_emod, reduce_emod, ← Int.sub_emod]

theorem reduce_mul (x y : Int) : reduce (reduce x * reduce y) = reduce (x * y) := by
  rw [reduce_eq_reduce, Int.mul_emod, reduce_emod, reduce_emod, ← Int.mul_emod]

@[simp] theorem reduce_zero : reduce 0 = 0 := by decide

theorem canon_lt (x : Int) : canon x < 3329 := by simp only [canon, Config.q]; omega

theorem canon_of_centred {x : Int} (h : Centred x) : reduce (canon x : Nat) = x := by
  refine (eq_reduce_of_centred h ?_).symm
  simp only [canon, Config.q]; omega

/-! ## Registers -/

namespace RegFile

variable (f : RegFile)

@[simp] theorem get_set_self (r : PReg) (v : PolyReg) : (f.set r v).get r = v := by simp [get, set]

@[simp] theorem get_set_ne {r x : PReg} (v : PolyReg) (h : x ≠ r) : (f.set r v).get x = f.get x := by
  have : ¬ r.val = x.val := fun e => h (Fin.ext e.symm)
  simp [get, set, this]

theorem get_set (r x : PReg) (v : PolyReg) : (f.set r v).get x = if x = r then v else f.get x := by
  split
  · subst_vars; exact get_set_self ..
  · exact get_set_ne f v ‹_›

@[simp] theorem get_cleared (r : PReg) : cleared.get r = PolyReg.cleared := by
  simp [get, cleared, -List.reduceReplicate]

/-- Two register files with the same registers are the same. -/
theorem ext_get {f g : RegFile} (h : ∀ r, f.get r = g.get r) : f = g := by
  rcases f with ⟨l, hl⟩
  rcases g with ⟨m, hm⟩
  simp only [mk.injEq]
  refine List.ext_getElem (hl.trans hm.symm) fun i h1 h2 => ?_
  exact h ⟨i, hl ▸ h1⟩

end RegFile

/-- A centred value survives the 12-bit storage (R30, R32). -/
theorem toInt_ofInt_of_centred {x : Int} (h : Centred x) : (BitVec.ofInt 12 x).toInt = x := by
  obtain ⟨h1, h2⟩ := h
  rw [BitVec.toInt_ofInt, Int.bmod]
  simp only [Nat.reducePow, Nat.cast_ofNat]
  split <;> omega

theorem fit_of_length {α : Type} {n : Nat} {d : α} {l : List α} (h : l.length = n) : fit n d l = l := by
  rw [fit, ← h, List.take_left]

/-- A ring element survives the storage in a register. -/
theorem Poly.elem_ofElem {f : Elem} (h : IsElem f) : (Poly.ofElem f).elem = f := by
  simp only [elem, ofElem, fit_of_length (h := (List.length_map (BitVec.ofInt 12)).trans h.length), List.map_map]
  exact (List.map_congr_left fun x hx => toInt_ofInt_of_centred (h.centred x hx)).trans (List.map_id f)

@[simp] theorem Poly.elem_length (p : Poly) : p.elem.length = 256 := by rw [elem, List.length_map, p.size]

/-- Whatever is stored, the coefficients of a register written with centred values are centred. -/
theorem Poly.centred_ofElem {f : Elem} (h : ∀ x ∈ f, Centred x) : ∀ c ∈ (Poly.ofElem f).elem, Centred c := by
  intro c hc
  simp only [elem, ofElem, fit, List.mem_map] at hc
  obtain ⟨b, hb, rfl⟩ := hc
  rcases List.mem_append.1 (List.mem_of_mem_take hb) with hb | hb
  · obtain ⟨x, hx, rfl⟩ := List.mem_map.1 hb
    rw [toInt_ofInt_of_centred (h x hx)]; exact h x hx
  · rw [List.eq_of_mem_replicate hb]; decide

namespace State

variable (s : State)

@[simp] theorem elem_length (r : PReg) : (s.elem r).length = 256 := Poly.elem_length _

theorem coeff_eq (r : PReg) (i : Nat) (h : i < 256) : s.coeff r i = (s.elem r)[i]'(by simpa using h) := by
  simp [coeff, List.getD_eq_getElem?_getD, h]

@[simp] theorem setReg_tag_self (r : PReg) (f : Elem) (t : Tag) : (s.setReg r f t).tag r = t := by simp [tag]

theorem setReg_elem_self (r : PReg) {f : Elem} (t : Tag) (h : IsElem f) : (s.setReg r f t).elem r = f := by
  simp [elem, Poly.elem_ofElem h]

theorem setReg_coeff_self (r : PReg) {f : Elem} (t : Tag) (h : IsElem f) (i : Nat) :
    (s.setReg r f t).coeff r i = f.getD i 0 := by simp only [coeff, s.setReg_elem_self r t h]

end State

/-! ## Every ring operation gives a ring element -/

theorem IsElem.map_reduce {f : Elem} (h : f.length = 256) : IsElem (f.map reduce) :=
  ⟨by simp [h], fun x hx => by obtain ⟨y, -, rfl⟩ := List.mem_map.1 hx; exact reduce_centred y⟩

/-- Pointwise operations that reduce. -/
theorem IsElem.zipWith_reduce (op : Int → Int → Int) {f g : Elem} (hf : f.length = 256) (hg : g.length = 256) :
    IsElem (List.zipWith (fun a b => reduce (op a b)) f g) := by
  refine ⟨by simp [hf, hg], fun x hx => ?_⟩
  rw [← List.map_uncurry_zip_eq_zipWith] at hx
  obtain ⟨p, -, rfl⟩ := List.mem_map.1 hx
  exact reduce_centred _

theorem elemAdd_isElem {f g : Elem} (hf : f.length = 256) (hg : g.length = 256) : IsElem (elemAdd f g) :=
  IsElem.zipWith_reduce (· + ·) hf hg

theorem elemSub_isElem {f g : Elem} (hf : f.length = 256) (hg : g.length = 256) : IsElem (elemSub f g) :=
  IsElem.zipWith_reduce (· - ·) hf hg

theorem elemMul_isElem {f g : Elem} (hf : f.length = 256) (hg : g.length = 256) : IsElem (elemMul f g) :=
  IsElem.zipWith_reduce (· * ·) hf hg

/-- A pointwise operation read at one index. -/
theorem getD_zipWith (op : Int → Int → Int) {f g : Elem} {i : Nat} (hf : i < f.length) (hg : i < g.length) :
    (List.zipWith op f g).getD i 0 = op (f.getD i 0) (g.getD i 0) := by
  simp [List.getD_eq_getElem?_getD, List.getElem?_zipWith, List.getElem?_eq_getElem hf, List.getElem?_eq_getElem hg]

theorem getD_map_of_lt {α : Type} (op : α → Int) {f : List α} {i : Nat} (d : α) (hf : i < f.length) :
    (f.map op).getD i 0 = op (f.getD i d) := by
  simp [List.getD_eq_getElem?_getD, List.getElem?_eq_getElem hf]

@[simp] theorem pieces_length {α : Type} (d : Nat) : ∀ (n : Nat) (l : List α), (pieces d n l).length = n
  | 0, _ => rfl
  | n + 1, l => by simp [pieces, pieces_length d n]

theorem int16Elem_isElem (b : Bytes) : IsElem (int16Elem b) :=
  ⟨by simp [int16Elem], fun x hx => by obtain ⟨y, -, rfl⟩ := List.mem_map.1 hx; exact reduce_centred _⟩

theorem cbdCoeff_bound (b : List Bool) : -2 ≤ cbdCoeff b ∧ cbdCoeff b ≤ 2 := by
  have h : ∀ c : Bool, (c.toNat : Int) ≤ 1 := fun c => by cases c <;> decide
  simp only [cbdCoeff]
  have := h (b.getD 0 false); have := h (b.getD 1 false); have := h (b.getD 2 false); have := h (b.getD 3 false)
  omega

theorem cbd_isElem (b : Bytes) : IsElem (cbd b) :=
  ⟨by simp [cbd], fun x hx => by
    obtain ⟨y, -, rfl⟩ := List.mem_map.1 hx
    have := cbdCoeff_bound y; exact ⟨by omega, by omega⟩⟩

theorem decompress_isElem (b : Bytes) (d : Nat) : IsElem (decompress b d) :=
  ⟨by simp [decompress, unpack], fun x hx => by obtain ⟨y, -, rfl⟩ := List.mem_map.1 hx; exact reduce_centred _⟩

theorem unpack12_isElem {b : Bytes} {f : Elem} (h : unpack12 b = some f) : IsElem f := by
  simp only [unpack12] at h
  split at h
  · cases h
  · cases h
    exact ⟨by simp [unpack], fun x hx => by obtain ⟨y, -, rfl⟩ := List.mem_map.1 hx; exact reduce_centred _⟩

/-! ## The transforms -/

@[simp] theorem slice_length {α : Type} (l : List α) (a n : Nat) : (slice l a n).length = min n (l.length - a) := by
  simp [slice]

theorem mem_of_mem_slice {α : Type} {l : List α} {a n : Nat} {x : α} (h : x ∈ slice l a n) : x ∈ l :=
  List.mem_of_mem_drop (List.mem_of_mem_take h)

theorem mem_zipWith_reduce {op : Int → Int → Int} {f g : Elem} {x : Int}
    (h : x ∈ List.zipWith (fun a b => reduce (op a b)) f g) : Centred x := by
  rw [← List.map_uncurry_zip_eq_zipWith] at h
  obtain ⟨p, -, rfl⟩ := List.mem_map.1 h
  exact reduce_centred _

/-- One block of a forward layer: 2·len coefficients in, 2·len coefficients out. -/
theorem nttLayer_isElem (len : Nat) : ∀ (table : List Int) (f : Elem), f.length = 2 * len * table.length →
    (nttLayer len table f).length = f.length ∧ ∀ x ∈ nttLayer len table f, Centred x
  | [], f, h => by
    have : f = [] := List.length_eq_zero_iff.1 (by simpa using h)
    subst this; simp [nttLayer]
  | z :: zs, f, h => by
    have hl : f.length = 2 * len * zs.length + 2 * len := by simpa [Nat.mul_add] using h
    have ih := nttLayer_isElem len zs (f.drop (2 * len)) (by simp [hl])
    simp only [nttLayer, butterflyLo, butterflyHi, List.length_append, List.length_zipWith, slice_length, ih.1, List.length_drop]
    refine ⟨by omega, fun x hx => ?_⟩
    rcases List.mem_append.1 hx with hx | hx
    · rcases List.mem_append.1 hx with hx | hx
      · exact mem_zipWith_reduce (op := fun a b => a + reduce (z * b)) hx
      · exact mem_zipWith_reduce (op := fun a b => a - reduce (z * b)) hx
    · exact ih.2 x hx

theorem inttLayer_isElem (len : Nat) : ∀ (table : List Int) (f : Elem), f.length = 2 * len * table.length →
    (inttLayer len table f).length = f.length ∧ ∀ x ∈ inttLayer len table f, Centred x
  | [], f, h => by
    have : f = [] := List.length_eq_zero_iff.1 (by simpa using h)
    subst this; simp [inttLayer]
  | z :: zs, f, h => by
    have hl : f.length = 2 * len * zs.length + 2 * len := by simpa [Nat.mul_add] using h
    have ih := inttLayer_isElem len zs (f.drop (2 * len)) (by simp [hl])
    simp only [inttLayer, invButterflyLo, invButterflyHi, List.length_append, List.length_zipWith, slice_length, ih.1,
      List.length_drop]
    refine ⟨by omega, fun x hx => ?_⟩
    rcases List.mem_append.1 hx with hx | hx
    · rcases List.mem_append.1 hx with hx | hx
      · exact mem_zipWith_reduce (op := fun a b => a + b) hx
      · exact mem_zipWith_reduce (op := fun a b => z * (b - a)) hx
    · exact ih.2 x hx

theorem zetas_length : zetas.length = 128 := by simp [zetas]

/-- The forward transform gives a ring element. -/
theorem ntt_isElem {f : Elem} (h : f.length = 256) : IsElem (ntt f) := by
  have key : ∀ (plan : List (Nat × Nat × Nat)) (g : Elem), g.length = 256 → (∀ x ∈ g, Centred x) ∨ plan ≠ [] →
      (∀ p ∈ plan, 2 * p.1 * (slice zetas p.2.1 p.2.2).length = 256) →
      IsElem (plan.foldl (fun g p => nttLayer p.1 (slice zetas p.2.1 p.2.2) g) g) := by
    intro plan
    induction plan with
    | nil => intro g hg hc _; exact ⟨hg, hc.resolve_right fun h => h rfl⟩
    | cons p ps ih =>
      intro g hg _ hp
      have hl := nttLayer_isElem p.1 (slice zetas p.2.1 p.2.2) g (by rw [hg, hp p (List.mem_cons_self ..)])
      exact ih _ (hl.1.trans hg) (.inl hl.2) fun p' h' => hp p' (List.mem_cons_of_mem _ h')
  exact key nttPlan f h (.inr (by decide)) (by decide)

/-- The inverse transform gives a ring element. -/
theorem intt_isElem {f : Elem} (h : f.length = 256) : IsElem (intt f) := by
  have key : ∀ (plan : List (Nat × Nat × Nat)) (g : Elem), g.length = 256 →
      (∀ p ∈ plan, 2 * p.1 * (slice zetas p.2.1 p.2.2).length = 256) →
      (plan.foldl (fun g p => inttLayer p.1 (slice zetas p.2.1 p.2.2).reverse g) g).length = 256 := by
    intro plan
    induction plan with
    | nil => intro g hg _; exact hg
    | cons p ps ih =>
      intro g hg hp
      have hl := inttLayer_isElem p.1 (slice zetas p.2.1 p.2.2).reverse g
        (by rw [hg, List.length_reverse, hp p (List.mem_cons_self ..)])
      exact ih _ (hl.1.trans hg) fun p' h' => hp p' (List.mem_cons_of_mem _ h')
  have hl := key inttPlan f h (by decide)
  refine ⟨by rw [intt, List.length_map, hl], fun x hx => ?_⟩
  obtain ⟨y, -, rfl⟩ := List.mem_map.1 hx
  exact reduce_centred _

/-! ## Rejection sampling -/

theorem accept_length (d : Nat) {got : Elem} (h : got.length ≤ 256) : (accept d got).length ≤ 256 := by
  simp only [accept]; split
  · simp only [List.length_cons]; omega
  · exact h

theorem accept_centred (d : Nat) {got : Elem} (h : ∀ x ∈ got, Centred x) : ∀ x ∈ accept d got, Centred x := by
  simp only [accept]; split
  · intro x hx
    rcases List.mem_cons.1 hx with rfl | hx
    · exact reduce_centred _
    · exact h x hx
  · exact h

theorem rejLoop_isElem (str : Nat → Byte) : ∀ (fuel p : Nat) (got f : Elem), got.length ≤ 256 → (∀ x ∈ got, Centred x) →
    rejLoop str fuel p got = some f → IsElem f
  | 0, p, got, f, hl, hc, h => by
    simp only [rejLoop] at h
    split at h
    · cases h
    · cases h; exact ⟨by simp; omega, fun x hx => hc x (List.mem_reverse.1 hx)⟩
  | fuel + 1, p, got, f, hl, hc, h => by
    simp only [rejLoop] at h
    split at h
    · exact rejLoop_isElem str fuel (p + 3) _ f (accept_length _ (accept_length _ hl))
        (accept_centred _ (accept_centred _ hc)) h
    · cases h; exact ⟨by simp; omega, fun x hx => hc x (List.mem_reverse.1 hx)⟩

theorem rej_isElem {P : Config.Params} {fuel : Nat} {rho : Bytes} {row col : Nat} {f : Elem}
    (h : rej P fuel rho row col = some f) : IsElem f :=
  rejLoop_isElem _ fuel 0 [] f (by simp) (by simp) h

end Sys2Proof.Machine
end

