-- ==== Sys2Proof/Laws/Exec.lean ====
section
/-! SUPPORT. What a command can do, said once: every command answers a next state, in which it is either still pending or over; and
what the end of a command keeps. -/

namespace Sys2Proof.Machine

/-! ## Checks -/

@[simp] theorem firstError_nil : firstError [] = none := rfl

@[simp] theorem firstError_false (c : Code) (cs : List (Bool × Code)) : firstError ((false, c) :: cs) = firstError cs := rfl

@[simp] theorem firstError_true (c : Code) (cs : List (Bool × Code)) : firstError ((true, c) :: cs) = some c := rfl

/-- Nested lists of checks are one list. -/
theorem firstError_append : ∀ (as bs : List (Bool × Code)), firstError (as ++ bs) = (firstError as).or (firstError bs)
  | [], bs => by simp
  | (b, c) :: as, bs => by cases b <;> simp [firstError_append as bs]

theorem firstError_eq_none : ∀ {cs : List (Bool × Code)}, firstError cs = none ↔ ∀ p ∈ cs, p.1 = false
  | [] => by simp [firstError]
  | (b, c) :: rest => by cases b <;> simp [firstError, firstError_eq_none]

/-- The code of a failing check is one of the listed codes. -/
theorem mem_of_firstError : ∀ {cs : List (Bool × Code)} {c : Code}, firstError cs = some c → (true, c) ∈ cs
  | [], _, h => by simp [firstError] at h
  | (b, c') :: rest, c, h => by
    cases b
    · exact List.mem_cons_of_mem _ (mem_of_firstError (by simpa [firstError] using h))
    · simp only [firstError, if_pos, Option.some.injEq] at h; simp [h]

theorem State.checked_of_none {s t : State} {cs : List (Bool × Code)} (h : firstError cs = none) : s.checked cs t = t := by
  simp [checked, h]

theorem State.checked_of_some {s t : State} {cs : List (Bool × Code)} {c : Code} (h : firstError cs = some c) :
    s.checked cs t = s.raise c := by simp [checked, h]

@[simp] theorem guarded_eq (s t : State) (cs : List (Bool × Code)) : guarded s cs t = .next (s.checked cs t) := rfl

theorem inBounds_iff {a n : Nat} : inBounds a n = true ↔ a + n ≤ Config.dmemSize := by simp [inBounds]

theorem outOf_iff {a n : Nat} : OutOf a n ↔ inBounds a n = false := by simp [inBounds]

/-- An error raised in the state before the command is precise. -/
theorem failed_raise (s : State) (c : Code) : Failed s (s.raise c) c :=
  ⟨⟨rfl, rfl, rfl, rfl, ⟨rfl, rfl, rfl, rfl, rfl, rfl, rfl⟩⟩, rfl, fun _ => rfl, ⟨rfl, rfl, rfl, rfl⟩⟩

/-- Going on with the sampling loop is waiting. -/
theorem waits_keepSampling (s : State) (w : Scratch) : Waits s (s.keepSampling w) :=
  ⟨rfl, rfl, rfl, rfl, fun _ => rfl, ⟨rfl, rfl, rfl, rfl⟩, ⟨rfl, rfl, rfl, rfl, rfl, rfl, rfl⟩, rfl, by
    simp only [State.groups, State.keepSampling_scratch]; omega⟩

/-- Sampling and then computing on is sampling what is computed. -/
theorem sampled_map {α β : Type} (s : State) (held : Scratch) (r : Option α) (f : α → β) (t : β → State) :
    sampled s held (r.map f) t = sampled s held r fun a => t (f a) := by cases r <;> rfl

/-! ## The commands that sample, in terms of the internal functions

What a command held in scratch is overwritten at its completion, so that it does not show in these equations (R58). -/

/-- KEM_KEYGEN in terms of KeyGen_internal. -/
theorem execKemKeygen_eq (seeded : Bool) (s : State) :
    execKemKeygen seeded s =
      guarded s [chkRegion (s.arg 0) Config.pkLen, chkRegion (s.arg 1) Config.skLen, chkRegionIf seeded (s.arg 2) 64]
        (sampled s Scratch.zero (keygenInternal Config.params s.groups (slice (s.randomBytes seeded (s.arg 2) 64) 0 32)
            (slice (s.randomBytes seeded (s.arg 2) 64) 32 32)) fun k =>
          ((((s.afterRandom seeded 64).writeMem (s.arg 0) k.1).writeMem (s.arg 1) k.2).setKst .keyGenerated).complete .ok) := by
  simp only [execKemKeygen, keygenInternal, sampled_map, State.afterRandom_holding, State.writeMem_holding, State.setKst_holding,
    State.complete_holding]

/-- KEM_ENCAPS in terms of Encaps_internal. -/
theorem execKemEncaps_eq (seeded : Bool) (s : State) :
    execKemEncaps seeded s =
      guarded s [chkRegion (s.arg 0) (s.arg 1), chkRegion (s.arg 2) Config.ctLen, chkRegion (s.arg 3) Config.ssLen,
          chkRegionIf seeded (s.arg 4) 32, chkLength (s.arg 1) Config.pkLen]
        (match parsePk (s.readMem (s.arg 0) Config.pkLen) with
          | none => s.raise .format
          | some pk =>
            sampled s { keys := pk.t } (encapsInternal Config.params s.groups pk (s.randomBytes seeded (s.arg 4) 32)
                (hashPk Config.params (s.readMem (s.arg 0) Config.pkLen))) fun k =>
              ((((s.afterRandom seeded 32).writeMem (s.arg 2) k.1).writeMem (s.arg 3) k.2).setKst .encapsulated).complete .ok) := by
  unfold execKemEncaps
  dsimp only
  cases parsePk (s.readMem (s.arg 0) Config.pkLen) <;>
    simp only [encapsInternal, sampled_map, State.afterRandom_holding, State.writeMem_holding, State.setKst_holding,
      State.complete_holding]

/-- KEM_DECAPS in terms of Decaps_internal. -/
theorem execKemDecaps_eq (s : State) :
    execKemDecaps s =
      guarded s [chkRegion (s.arg 0) (s.arg 1), chkRegion (s.arg 2) (s.arg 3), chkRegion (s.arg 4) Config.ssLen,
          chkLength (s.arg 1) Config.skLen, chkLength (s.arg 3) Config.ctLen]
        (match parseSk (s.readMem (s.arg 0) Config.skLen) with
          | none => s.raise .format
          | some sk =>
            sampled s (decodeScratch sk (s.readMem (s.arg 2) Config.ctLen))
              (decapsInternal Config.params s.groups sk (s.readMem (s.arg 2) Config.ctLen)) fun ss =>
                ((s.writeMem (s.arg 4) ss).setKst .decapsulated).complete .ok) := by
  unfold execKemDecaps
  cases parseSk (s.readMem (s.arg 0) Config.skLen) <;>
    simp only [decapsInternal, sampled_map, State.writeMem_holding, State.setKst_holding, State.complete_holding]

/-- BLOB_BUILD in terms of building a blob. -/
theorem execBlobBuild_eq (seeded signed : Bool) (s : State) :
    execBlobBuild seeded signed s =
      guarded s [chkRegion (s.arg 0) (s.arg 1), chkRegion (s.arg 2) (s.arg 3), chkRegionIf signed (s.arg 4) (s.arg 5)]
        ((if signed then s.clearKey (s.arg 4) (s.arg 5) else s).checked
          [chkRegion (s.arg 6) (blobLen signed (s.arg 1)), chkRegionIf seeded (s.arg 7) (44 + blobRndLen signed),
            chkLength (s.arg 3) Config.pkLen, chkLengthIf signed (s.arg 5) sigSkLen]
          (match parsePk (s.readMem (s.arg 2) Config.pkLen),
              blobPayload Config.params signed (if signed then s.readMem (s.arg 4) sigSkLen else [])
                (s.readMem (s.arg 0) (s.arg 1)) (s.blobRandom seeded signed).rnd with
            | some pk, some payload =>
              sampled s { keys := pk.t, signingKey := if signed then s.readMem (s.arg 4) sigSkLen else [] }
                (buildBlob Config.params s.groups pk (hashPk Config.params (s.readMem (s.arg 2) Config.pkLen))
                  (s.blobRandom seeded signed).m (s.blobRandom seeded signed).nonce payload) fun blob =>
                ((((if signed then s.clearKey (s.arg 4) (s.arg 5) else s).afterRandom seeded (44 + blobRndLen signed)).writeMem
                  (s.arg 6) blob).setResult0 (BitVec.ofNat 32 (blobLen signed (s.arg 1)))).complete .ok
            | _, _ =>
              ((if signed then s.clearKey (s.arg 4) (s.arg 5) else s).afterRandom seeded (44 + blobRndLen signed)).raise
                .format)) := by
  unfold execBlobBuild
  dsimp only
  generalize blobPayload Config.params signed _ _ _ = payload
  cases parsePk (s.readMem (s.arg 2) Config.pkLen) <;> cases payload <;>
    simp only [buildBlob, encapsInternal, sampled_map, State.afterRandom_holding, State.writeMem_holding, State.setResult0_holding,
      State.complete_holding]

/-- BLOB_OPEN in terms of opening a blob. -/
theorem execBlobOpen_eq (signed : Bool) (s : State) :
    execBlobOpen signed s =
      guarded s [chkRegion (s.arg 0) (s.arg 1), chkRegion (s.arg 2) (s.arg 3),
          chkRegion (s.arg 4) (s.arg 1 - Config.blobOverhead), chkLength (s.arg 3) Config.skLen,
          chkBlob (s.arg 1) Config.blobOverhead]
        (match parseSk (s.readMem (s.arg 2) Config.skLen) with
          | none => s.raise .format
          | some sk =>
            sampled s (decodeScratch sk (slice (s.readMem (s.arg 0) (s.arg 1)) 0 Config.ctLen))
              (openBlob Config.params s.groups signed (s.arg 5) sk (s.readMem (s.arg 0) (s.arg 1))) fun r =>
              match r with
              | .error c => s.raise c
              | .ok report =>
                (((s.writeMem (s.arg 4) report).setResult0 (BitVec.ofNat 32 report.length)).setResult1
                  (if signed then 1 else 0)).complete .ok) := by
  unfold execBlobOpen
  cases parseSk (s.readMem (s.arg 2) Config.skLen) <;>
    simp only [openBlob, decapsInternal, sampled_map, State.writeMem_holding, State.setResult0_holding, State.setResult1_holding,
      State.complete_holding] <;> rfl

/-! ## What a command keeps up to its completion -/

/-- `u` is `s` with some of PR, DMEM, EQ, KST, RESULT0, RESULT1 and the entropy index changed, every register that was in order
still in order, and DMEM still canonical. -/
structure Within (s u : State) : Prop where
  busy : u.busy = s.busy
  done : u.done = s.done
  kept : Kept s u
  choices : u.choices = s.choices
  delay : u.delay = s.delay
  mem : Memory.wf s.dmem → Memory.wf u.dmem
  regs : ∀ r, (s.pr.get r).Ok → (u.pr.get r).Ok

namespace Within

variable {s u : State}

theorem refl (s : State) : Within s s := ⟨rfl, rfl, ⟨rfl, rfl, rfl, rfl, rfl, rfl, rfl⟩, rfl, rfl, id, fun _ => id⟩

theorem afterRandom (h : Within s u) (b : Bool) (n : Nat) : Within s (u.afterRandom b n) := by
  cases b
  · exact ⟨h.busy, h.done, ⟨h.kept.cmdl, h.kept.args, h.kept.argl, h.kept.hz, h.kept.hzl, h.kept.port, h.kept.seen⟩, h.choices, h.delay, h.mem, h.regs⟩
  · exact h

theorem writeMem (h : Within s u) {a : Nat} {b : Bytes} (hb : a + b.length ≤ Config.dmemSize) : Within s (u.writeMem a b) :=
  ⟨h.busy, h.done, ⟨h.kept.cmdl, h.kept.args, h.kept.argl, h.kept.hz, h.kept.hzl, h.kept.port, h.kept.seen⟩, h.choices, h.delay,
    fun hs => Memory.write_wf (h.mem hs) hb, h.regs⟩

theorem clearKey (h : Within s u) {a n : Nat} (hb : a + n ≤ Config.dmemSize) : Within s (u.clearKey a n) :=
  h.writeMem (by simpa using hb)

theorem setKst (h : Within s u) (k : Kst) : Within s (u.setKst k) :=
  ⟨h.busy, h.done, ⟨h.kept.cmdl, h.kept.args, h.kept.argl, h.kept.hz, h.kept.hzl, h.kept.port, h.kept.seen⟩, h.choices, h.delay, h.mem, h.regs⟩

theorem setEq (h : Within s u) (b : Bool) : Within s (u.setEq b) :=
  ⟨h.busy, h.done, ⟨h.kept.cmdl, h.kept.args, h.kept.argl, h.kept.hz, h.kept.hzl, h.kept.port, h.kept.seen⟩, h.choices, h.delay, h.mem, h.regs⟩

theorem setResult0 (h : Within s u) (v : Word) : Within s (u.setResult0 v) :=
  ⟨h.busy, h.done, ⟨h.kept.cmdl, h.kept.args, h.kept.argl, h.kept.hz, h.kept.hzl, h.kept.port, h.kept.seen⟩, h.choices, h.delay, h.mem, h.regs⟩

theorem setResult1 (h : Within s u) (v : Word) : Within s (u.setResult1 v) :=
  ⟨h.busy, h.done, ⟨h.kept.cmdl, h.kept.args, h.kept.argl, h.kept.hz, h.kept.hzl, h.kept.port, h.kept.seen⟩, h.choices, h.delay, h.mem, h.regs⟩

theorem regOk_cleared : PolyReg.cleared.Ok := ⟨fun h => absurd rfl h, fun _ => rfl⟩

theorem setReg (h : Within s u) (r : PReg) {f : Elem} {t : Tag} (hf : ∀ x ∈ f, Centred x) (ht : t ≠ .empty) :
    Within s (u.setReg r f t) := by
  refine ⟨h.busy, h.done, ⟨h.kept.cmdl, h.kept.args, h.kept.argl, h.kept.hz, h.kept.hzl, h.kept.port, h.kept.seen⟩, h.choices, h.delay, h.mem, fun x hx => ?_⟩
  simp only [State.setReg_pr, RegFile.get_set]
  split
  · exact ⟨fun _ => Poly.centred_ofElem hf, fun he => absurd he ht⟩
  · exact h.regs x hx

theorem clearReg (h : Within s u) (r : PReg) : Within s (u.clearReg r) := by
  refine ⟨h.busy, h.done, ⟨h.kept.cmdl, h.kept.args, h.kept.argl, h.kept.hz, h.kept.hzl, h.kept.port, h.kept.seen⟩, h.choices, h.delay, h.mem, fun x hx => ?_⟩
  simp only [State.clearReg_pr, RegFile.get_set]
  split
  · exact regOk_cleared
  · exact h.regs x hx

theorem holding (h : Within s u) (w : Scratch) : Within s (u.holding w) :=
  ⟨h.busy, h.done, ⟨h.kept.cmdl, h.kept.args, h.kept.argl, h.kept.hz, h.kept.hzl, h.kept.port, h.kept.seen⟩, h.choices, h.delay, h.mem, h.regs⟩

theorem wipe (h : Within s u) : Within s u.wipe :=
  ⟨h.busy, h.done, ⟨h.kept.cmdl, h.kept.args, h.kept.argl, h.kept.hz, h.kept.hzl, h.kept.port, h.kept.seen⟩, h.choices, h.delay,
    fun _ => Memory.wf_nil, fun r _ => by simpa using regOk_cleared⟩

end Within

/-- Completing such a state ends the command. -/
theorem Within.ended {s u : State} (h : Within s u) (c : Code) : Ended s (u.complete c) c :=
  ⟨rfl, rfl, rfl, rfl, ⟨h.kept.cmdl, h.kept.args, h.kept.argl, h.kept.hz, h.kept.hzl, h.kept.port, h.kept.seen⟩⟩

/-- What stands before a command is completed with an error: nothing is changed but, where the command signs, its key region, which
is then cleared (R342, R304). -/
structure Untouched (i : Instr) (s u : State) : Prop where
  pr : u.pr = s.pr
  flags : FlagsKept s u
  dmem : u.dmem = s.dmem ∨ ∃ a n, signingKey i s = some (a, n) ∧ u.dmem = Memory.write s.dmem a (zeros n)

/-- What a command can leave. -/
inductive Leaves (i : Instr) (s : State) : State → Prop where
  | waits (w : Scratch) : Leaves i s (s.keepSampling w)
  | ends (u : State) (c : Code) (h : Within s u) (e : c ≠ .ok → Untouched i s u) : Leaves i s (u.complete c)

namespace Leaves

variable {i : Instr} {s : State}

theorem untouched_refl : Untouched i s s := ⟨rfl, ⟨rfl, rfl, rfl, rfl⟩, .inl rfl⟩

theorem ok {u : State} (h : Within s u) : Leaves i s (u.complete .ok) := .ends u .ok h fun e => absurd rfl e

theorem raise (c : Code) : Leaves i s (s.raise c) := .ends s c (.refl s) fun _ => untouched_refl

/-- A command whose static checks are the whole of its errors. -/
theorem checked {cs : List (Bool × Code)} {t : State} (h : firstError cs = none → Leaves i s t) : Leaves i s (s.checked cs t) := by
  rcases he : firstError cs with _ | c
  · rw [State.checked_of_none he]; exact h he
  · rw [State.checked_of_some he]; exact raise c

/-- The same where the errors are raised in another base state. -/
theorem checked_in {u : State} {cs : List (Bool × Code)} {t : State} (hu : Within s u) (e : Untouched i s u)
    (h : firstError cs = none → Leaves i s t) : Leaves i s (u.checked cs t) := by
  rcases he : firstError cs with _ | c
  · rw [State.checked_of_none he]; exact h he
  · rw [State.checked_of_some he]; exact .ends u c hu fun _ => e

theorem sampled {α : Type} {held : Scratch} {r : Option α} {t : α → State} (h : ∀ a, r = some a → Leaves i s (t a)) :
    Leaves i s (sampled s held r t) := by
  cases r with
  | none => exact .waits held
  | some a => exact h a rfl

end Leaves

theorem untouched_afterRandom {i : Instr} {s u : State} (h : Untouched i s u) (b : Bool) (n : Nat) :
    Untouched i s (u.afterRandom b n) := by cases b <;> exact ⟨h.pr, ⟨h.flags.eq, h.flags.kst, h.flags.result0, h.flags.result1⟩, h.dmem⟩

theorem untouched_holding {i : Instr} {s u : State} (h : Untouched i s u) (w : Scratch) : Untouched i s (u.holding w) :=
  ⟨h.pr, ⟨h.flags.eq, h.flags.kst, h.flags.result0, h.flags.result1⟩, h.dmem⟩

theorem tagSelect_ne_empty (d : BitVec 4) : tagSelect d ≠ .empty := by
  simp only [tagSelect]; split <;> simp

theorem flatMap_length_const {α β : Type} (f : α → List β) (k : Nat) (hf : ∀ a, (f a).length = k) :
    ∀ l : List α, (l.flatMap f).length = k * l.length
  | [] => by simp
  | a :: l => by simp [hf, flatMap_length_const f k hf l, Nat.mul_add]; omega

@[simp] theorem leBytes_length {w : Nat} : ∀ (n : Nat) (v : BitVec w), (leBytes n v).length = n
  | 0, _ => rfl
  | n + 1, v => by simp [leBytes, leBytes_length n]

@[simp] theorem int16Bytes_length (f : Elem) : (int16Bytes f).length = 2 * f.length :=
  flatMap_length_const _ 2 (fun _ => leBytes_length 2 _) f

@[simp] theorem pack_length (d : Nat) (v : List Nat) : (pack d v).length = 32 * d := by simp [pack, bitsBytes]

@[simp] theorem compress_length (f : Elem) (d : Nat) : (compress f d).length = 32 * d := by simp [compress]

@[simp] theorem pack12_length (f : Elem) : (pack12 f).length = 384 := by simp [pack12]

@[simp] theorem hashPk_length (P : Config.Params) (b : Bytes) : (hashPk P b).length = 32 := by simp [hashPk]

@[simp] theorem kdf_length (P : Config.Params) (b : Bytes) : (kdf P b).length = 32 := by simp [kdf]

theorem allSome_length {α : Type} : ∀ {l : List (Option α)} {m : List α}, allSome l = some m → m.length = l.length
  | [], m, h => by cases h; rfl
  | none :: l, m, h => by simp [allSome] at h
  | some a :: l, m, h => by
    simp only [allSome, Option.map_eq_some_iff] at h
    obtain ⟨m', h', rfl⟩ := h
    simp [allSome_length h']

theorem expandA_length {P : Config.Params} {fuel : Nat} {rho : Bytes} {a : List (List Elem)} (h : expandA P fuel rho = some a) :
    a.length = 3 := by simpa using allSome_length h

theorem cbdVec_length (str : Bytes) (off n : Nat) : (cbdVec str off n).length = n := by simp [cbdVec]

/-- The lengths of a key pair (R263). -/
theorem keygen_lengths {P : Config.Params} {fuel : Nat} {d z pk sk : Bytes} (hz : z.length = 32)
    (h : keygenInternal P fuel d z = some (pk, sk)) : pk.length = 1184 ∧ sk.length = 2400 := by
  simp only [keygenInternal, keygenWork, KeygenWork.keys, Option.map_map, Function.comp_def, Option.map_eq_some_iff,
    Prod.mk.injEq] at h
  obtain ⟨a, ha, rfl, rfl⟩ := h
  have := expandA_length ha
  have h12 := fun l : List Elem => flatMap_length_const pack12 384 pack12_length l
  simp [pkBytes, skBytes, h12, vecAdd, matVec, vecNtt, cbdVec_length, this, hz]

/-- The lengths of a ciphertext and a shared secret (R263). -/
theorem encaps_lengths {P : Config.Params} {fuel : Nat} {pk : PublicKey} {m h ct ss : Bytes}
    (hk : encapsInternal P fuel pk m h = some (ct, ss)) : ct.length = 1088 ∧ ss.length = 32 := by
  simp only [encapsInternal, encapsWork, EncapsWork.output, Option.map_map, Function.comp_def, Option.map_eq_some_iff,
    Prod.mk.injEq] at hk
  obtain ⟨a, -, rfl, rfl⟩ := hk
  have h10 := fun l : List Elem => flatMap_length_const (fun f => compress f 10) 320 (fun f => compress_length f 10) l
  simp [ctBytes, h10, vecAdd, matTVec, cbdVec_length]

@[simp] theorem ctSelect_length (b : Bool) (x y : Bytes) : (ctSelect b x y).length = min x.length y.length := by simp [ctSelect]

theorem decaps_length {P : Config.Params} {fuel : Nat} {sk : SecretKey} {ct ss : Bytes}
    (h : decapsInternal P fuel sk ct = some ss) : ss.length = 32 := by
  simp only [decapsInternal, decapsWork, Option.map_map, Function.comp_def, Option.map_eq_some_iff] at h
  obtain ⟨k, -, rfl⟩ := h
  simp

theorem signMessage_length {P : Config.Params} {sk msg rnd sig : Bytes} (h : signMessage P sk msg rnd = some sig) :
    sig.length = P.sigLen.toNat := by
  simp only [signMessage, Option.ite_none_right_eq_some, Option.some.injEq] at h
  simp [← h.2]

theorem blobPayload_length {P : Config.Params} {signed : Bool} {key report rnd payload : Bytes}
    (h : blobPayload P signed key report rnd = some payload) :
    payload.length = report.length + if signed then P.sigLen.toNat else 0 := by
  cases signed
  · simp [blobPayload] at h; simp [h]
  · simp only [blobPayload, if_pos, Option.map_eq_some_iff] at h
    obtain ⟨sig, hs, rfl⟩ := h
    simp [signMessage_length hs]

theorem buildBlob_length {P : Config.Params} {fuel : Nat} {pk : PublicKey} {h m nonce payload blob : Bytes}
    (hn : nonce.length = 12) (hb : buildBlob P fuel pk h m nonce payload = some blob) : blob.length = 1116 + payload.length := by
  simp only [buildBlob, Option.map_eq_some_iff] at hb
  obtain ⟨k, hk, rfl⟩ := hb
  have := encaps_lengths (ct := k.1) (ss := k.2) hk
  simp only [blobBytes, List.length_append, Vector.length_toList, this.1, hn]; omega

theorem openPayload_length {P : Config.Params} {signed : Bool} {off : Nat} {payload report : Bytes}
    (h : openPayload P signed off payload = .ok report) : report.length ≤ payload.length := by
  cases signed
  · simp [openPayload] at h; simp [h]
  · simp only [openPayload, if_pos] at h
    split at h
    · cases h
    · split at h
      · cases h
      · split at h
        · cases h; simp
        · cases h

theorem openBlob_length {P : Config.Params} {fuel : Nat} {signed : Bool} {off : Nat} {sk : SecretKey} {blob report : Bytes}
    (h : openBlob P fuel signed off sk blob = some (.ok report)) : report.length ≤ blob.length - 1116 := by
  simp only [openBlob, Option.map_eq_some_iff] at h
  obtain ⟨ss, -, h⟩ := h
  rw [openSealed] at h
  split at h
  · cases h
  · have := openPayload_length h
    simp only [Vector.length_toList, List.length_drop] at this; omega

@[simp] theorem blobRandom_nonce_length (s : State) (a b : Bool) : (s.blobRandom a b).nonce.length = 12 := by
  cases a <;> simp [State.blobRandom] <;> omega

/-! ## What the checks that passed say -/

theorem region_of_passed {cs : List (Bool × Code)} (h : firstError cs = none) {a n : Nat} (hm : chkRegion a n ∈ cs) :
    a + n ≤ Config.dmemSize := by
  have := firstError_eq_none.1 h _ hm
  simpa [chkRegion, inBounds] using this

theorem length_of_passed {cs : List (Bool × Code)} (h : firstError cs = none) {n want : Nat} (hm : chkLength n want ∈ cs) :
    n = want := by
  have := firstError_eq_none.1 h _ hm
  simpa [chkLength] using this

/-- A write whose length a check has bounded. -/
theorem Within.write_region {s u : State} (hw : Within s u) {cs : List (Bool × Code)} (h : firstError cs = none) {a n : Nat}
    (hm : chkRegion a n ∈ cs) {b : Bytes} (hb : b.length ≤ n) : Within s (u.writeMem a b) :=
  hw.writeMem (by have := region_of_passed h hm; omega)

/-- The state with the signing key of a signing command cleared, in a check of its own region. -/
theorem untouched_clearKey {i : Instr} {s : State} {a n : Nat} (h : signingKey i s = some (a, n)) :
    Untouched i s (s.clearKey a n) := ⟨rfl, ⟨rfl, rfl, rfl, rfl⟩, .inr ⟨a, n, h, rfl⟩⟩

/-! ## The inversion lemma -/

theorem leaves_kemEncaps (seeded : Bool) (s : State) : ∃ t, execKemEncaps seeded s = .next t ∧ Leaves (.kemEncaps seeded) s t := by
  refine ⟨_, execKemEncaps_eq seeded s, .checked fun h => ?_⟩
  cases hp : parsePk (s.readMem (s.arg 0) Config.pkLen) with
  | none => exact .raise _
  | some pk =>
    refine .sampled fun k hk => .ok (Within.setKst ?_ _)
    obtain ⟨ct, ss⟩ := k
    have hl := encaps_lengths hk
    exact ((Within.refl s).afterRandom seeded 32 |>.write_region (n := Config.ctLen) h (by simp) (by simp [hl.1])).write_region
      (n := Config.ssLen) h (by simp) (by simp [hl.2])

theorem leaves_kemDecaps (s : State) : ∃ t, execKemDecaps s = .next t ∧ Leaves .kemDecaps s t := by
  refine ⟨_, execKemDecaps_eq s, .checked fun h => ?_⟩
  cases hp : parseSk (s.readMem (s.arg 0) Config.skLen) with
  | none => exact .raise _
  | some sk =>
    exact .sampled fun ss hs => .ok (((Within.refl s).write_region (n := Config.ssLen) h (by simp)
      (by simp [decaps_length hs])).setKst _)

theorem leaves_sigSign (seeded : Bool) (s : State) : ∃ t, execSigSign seeded s = .next t ∧ Leaves (.sigSign seeded) s t := by
  refine ⟨_, rfl, .checked fun h1 => ?_⟩
  have hc : Within s (s.clearKey (s.arg 0) (s.arg 1)) := (Within.refl s).clearKey (region_of_passed h1 (by simp))
  have hu : Untouched (.sigSign seeded) s (s.clearKey (s.arg 0) (s.arg 1)) := untouched_clearKey rfl
  refine .checked_in hc hu fun h2 => ?_
  split
  · exact .ends _ _ ((hc.holding _).afterRandom _ _) fun _ => untouched_afterRandom (untouched_holding hu _) _ _
  · rename_i sig hs
    exact .ok (((hc.holding _).afterRandom _ _).write_region (n := sigLen) h2 (by simp) (by rw [signMessage_length hs]; rfl))

theorem leaves_blobBuild (seeded signed : Bool) (s : State) :
    ∃ t, execBlobBuild seeded signed s = .next t ∧ Leaves (.blobBuild seeded signed) s t := by
  refine ⟨_, execBlobBuild_eq seeded signed s, .checked fun h1 => ?_⟩
  have hc : Within s (if signed then s.clearKey (s.arg 4) (s.arg 5) else s) := by
    cases signed
    · exact .refl s
    · refine (Within.refl s).clearKey ?_
      have := firstError_eq_none.1 h1 (chkRegionIf true (s.arg 4) (s.arg 5)) (by simp)
      simpa [chkRegionIf, inBounds] using this
  have hu : Untouched (.blobBuild seeded signed) s (if signed then s.clearKey (s.arg 4) (s.arg 5) else s) := by
    cases signed
    · exact Leaves.untouched_refl
    · exact untouched_clearKey rfl
  refine .checked_in hc hu fun h2 => ?_
  split
  · rename_i pk payload hp hpl
    refine .sampled fun blob hb => .ok (((hc.afterRandom _ _).write_region (n := blobLen signed (s.arg 1)) h2 (by simp) ?_).setResult0 _)
    rw [buildBlob_length (blobRandom_nonce_length ..) hb, blobPayload_length hpl]
    simp [blobLen, sigLen, Config.blobOverhead]; omega
  · exact .ends _ _ (hc.afterRandom _ _) fun _ => untouched_afterRandom hu _ _

theorem leaves_blobOpen (signed : Bool) (s : State) : ∃ t, execBlobOpen signed s = .next t ∧ Leaves (.blobOpen signed) s t := by
  refine ⟨_, execBlobOpen_eq signed s, .checked fun h => ?_⟩
  cases hp : parseSk (s.readMem (s.arg 2) Config.skLen) with
  | none => exact .raise _
  | some sk =>
    refine .sampled fun r hr => ?_
    cases r with
    | error c => exact .raise c
    | ok report =>
      exact .ok ((((Within.refl s).write_region (n := s.arg 1 - Config.blobOverhead) h (by simp)
        (by simpa using openBlob_length hr)).setResult0 _).setResult1 _)

/-- The one inversion lemma of `exec`: a command answers a next state, in which it is still pending or over. -/
theorem exec_leaves (i : Instr) (s : State) : ∃ t, exec i s = .next t ∧ Leaves i s t := by
  have w := Within.refl s
  cases i with
  | nop => exact ⟨_, rfl, .checked fun _ => .ok w⟩
  | polyLoad rd imm4 =>
    exact ⟨_, rfl, .checked fun _ => .ok (w.setReg _ (int16Elem_isElem _).centred (tagSelect_ne_empty _))⟩
  | polyStore rs1 => exact ⟨_, rfl, .checked fun h => .ok (w.write_region (n := 512) h (by simp) (by simp))⟩
  | polyReduce rd rs1 =>
    refine ⟨_, rfl, .checked fun h => .ok (w.setReg _ (IsElem.map_reduce (s.elem_length _)).centred ?_)⟩
    simpa [chkWritten] using firstError_eq_none.1 h (chkWritten s rs1) (by simp)
  | polyAdd rd rs1 rs2 =>
    refine ⟨_, rfl, .checked fun h => .ok (w.setReg _ (elemAdd_isElem (s.elem_length _) (s.elem_length _)).centred ?_)⟩
    simpa [chkWritten] using firstError_eq_none.1 h (chkWritten s rs1) (by simp)
  | polySub rd rs1 rs2 =>
    refine ⟨_, rfl, .checked fun h => .ok (w.setReg _ (elemSub_isElem (s.elem_length _) (s.elem_length _)).centred ?_)⟩
    simpa [chkWritten] using firstError_eq_none.1 h (chkWritten s rs1) (by simp)
  | polyEq rs1 rs2 => exact ⟨_, rfl, .checked fun _ => .ok ((w.setEq _).setResult0 _)⟩
  | polyClear rd => exact ⟨_, rfl, .checked fun _ => .ok (w.clearReg _)⟩
  | zeroize => exact ⟨_, rfl, .checked fun _ => .ok (w.wipe.setKst _)⟩
  | nttFwd rd rs1 => exact ⟨_, rfl, .checked fun _ => .ok (w.setReg _ (ntt_isElem (s.elem_length _)).centred (by simp))⟩
  | nttInv rd rs1 => exact ⟨_, rfl, .checked fun _ => .ok (w.setReg _ (intt_isElem (s.elem_length _)).centred (by simp))⟩
  | pmul rd rs1 rs2 =>
    exact ⟨_, rfl, .checked fun _ => .ok (w.setReg _ (elemMul_isElem (s.elem_length _) (s.elem_length _)).centred (by simp))⟩
  | cbdSample rd => exact ⟨_, rfl, .checked fun _ => .ok (w.setReg _ (cbd_isElem _).centred (by simp))⟩
  | rejSample rd =>
    exact ⟨_, rfl, .checked fun _ => .sampled fun f hf => .ok (w.setReg _ (rej_isElem hf).centred (by simp))⟩
  | polyCompress rs1 imm4 =>
    exact ⟨_, rfl, .checked fun h => .ok (w.write_region (n := 32 * imm4.toNat) h (by simp) (by simp))⟩
  | polyDecompress rd imm4 => exact ⟨_, rfl, .checked fun _ => .ok (w.setReg _ (decompress_isElem _ _).centred (by simp))⟩
  | polyPack12 rs1 => exact ⟨_, rfl, .checked fun h => .ok (w.write_region (n := 384) h (by simp) (by simp))⟩
  | polyUnpack12 rd imm4 =>
    refine ⟨_, rfl, .checked fun _ => ?_⟩
    split
    · exact .raise _
    · rename_i f hf
      exact .ok (w.setReg _ (unpack12_isElem hf).centred (tagSelect_ne_empty _))
  | kemKeygen seeded =>
    refine ⟨_, execKemKeygen_eq seeded s, .checked fun h => .sampled fun k hk => ?_⟩
    obtain ⟨pk, sk⟩ := k
    have hl := keygen_lengths (by simp) hk
    exact .ok ((((w.afterRandom seeded 64).write_region (n := Config.pkLen) h (by simp) (by simp [hl.1])).write_region
      (n := Config.skLen) h (by simp) (by simp [hl.2])).setKst _)
  | kemEncaps seeded => exact leaves_kemEncaps seeded s
  | kemDecaps => exact leaves_kemDecaps s
  | sigKeygen seeded =>
    exact ⟨_, rfl, .checked fun h => .ok ((((w.holding _).afterRandom seeded _).write_region (n := sigSkLen) h (by simp)
      (by simp [sigSkLen])).write_region (n := sigVkLen) h (by simp) (by simp [sigVkLen]))⟩
  | sigSign seeded => exact leaves_sigSign seeded s
  | sigVerify => exact ⟨_, rfl, .checked fun _ => .ok (w.setResult0 _)⟩
  | blobBuild seeded signed => exact leaves_blobBuild seeded signed s
  | blobOpen signed => exact leaves_blobOpen signed s

end Sys2Proof.Machine
end

