-- ==== Sys2Proof/Laws/PerInstr.lean ====
section
/-! SUPPORT. A statement made of every command as syntax, one lemma per command: its fields are those its row of the opcode map
uses (R115, R116), and the row makes the command back from them. -/

namespace Sys2Proof.Laws

namespace OpcodeRow

/-- The opcode of a command has a row in the opcode map (R115); the command's word uses no field that the row does not list, and
leaves RES at 0 (R116); and the row makes the command from the word's fields. -/
def Statement (i : Instr) : Prop :=
  ∃ row, opcodeMap i.fields.opc = some row ∧ i.fields.res = 0 ∧ i.fields.unusedZero row.1 = true ∧ i.fields.flagsTaken row.1 = true ∧
    row.2 i.fields = i

theorem nop : Statement .nop := ⟨_, rfl, rfl, rfl, rfl, rfl⟩
theorem polyLoad (rd : PReg) (imm4 : BitVec 4) : Statement (.polyLoad rd imm4) := ⟨_, rfl, rfl, rfl, rfl, rfl⟩
theorem polyStore (rs1 : PReg) : Statement (.polyStore rs1) := ⟨_, rfl, rfl, rfl, rfl, rfl⟩
theorem polyReduce (rd rs1 : PReg) : Statement (.polyReduce rd rs1) := ⟨_, rfl, rfl, rfl, rfl, rfl⟩
theorem polyAdd (rd rs1 rs2 : PReg) : Statement (.polyAdd rd rs1 rs2) := ⟨_, rfl, rfl, rfl, rfl, rfl⟩
theorem polySub (rd rs1 rs2 : PReg) : Statement (.polySub rd rs1 rs2) := ⟨_, rfl, rfl, rfl, rfl, rfl⟩
theorem polyEq (rs1 rs2 : PReg) : Statement (.polyEq rs1 rs2) := ⟨_, rfl, rfl, rfl, rfl, rfl⟩
theorem polyClear (rd : PReg) : Statement (.polyClear rd) := ⟨_, rfl, rfl, rfl, rfl, rfl⟩
theorem zeroize : Statement .zeroize := ⟨_, rfl, rfl, rfl, rfl, rfl⟩
theorem nttFwd (rd rs1 : PReg) : Statement (.nttFwd rd rs1) := ⟨_, rfl, rfl, rfl, rfl, rfl⟩
theorem nttInv (rd rs1 : PReg) : Statement (.nttInv rd rs1) := ⟨_, rfl, rfl, rfl, rfl, rfl⟩
theorem pmul (rd rs1 rs2 : PReg) : Statement (.pmul rd rs1 rs2) := ⟨_, rfl, rfl, rfl, rfl, rfl⟩
theorem cbdSample (rd : PReg) : Statement (.cbdSample rd) := ⟨_, rfl, rfl, rfl, rfl, rfl⟩
theorem rejSample (rd : PReg) : Statement (.rejSample rd) := ⟨_, rfl, rfl, rfl, rfl, rfl⟩
theorem polyCompress (rs1 : PReg) (imm4 : BitVec 4) : Statement (.polyCompress rs1 imm4) := ⟨_, rfl, rfl, rfl, rfl, rfl⟩
theorem polyDecompress (rd : PReg) (imm4 : BitVec 4) : Statement (.polyDecompress rd imm4) := ⟨_, rfl, rfl, rfl, rfl, rfl⟩
theorem polyPack12 (rs1 : PReg) : Statement (.polyPack12 rs1) := ⟨_, rfl, rfl, rfl, rfl, rfl⟩
theorem polyUnpack12 (rd : PReg) (imm4 : BitVec 4) : Statement (.polyUnpack12 rd imm4) := ⟨_, rfl, rfl, rfl, rfl, rfl⟩
theorem kemKeygen (seeded : Bool) : Statement (.kemKeygen seeded) := ⟨_, rfl, rfl, rfl, rfl, rfl⟩
theorem kemEncaps (seeded : Bool) : Statement (.kemEncaps seeded) := ⟨_, rfl, rfl, rfl, rfl, rfl⟩
theorem kemDecaps : Statement .kemDecaps := ⟨_, rfl, rfl, rfl, rfl, rfl⟩
theorem sigKeygen (seeded : Bool) : Statement (.sigKeygen seeded) := ⟨_, rfl, rfl, rfl, rfl, rfl⟩
theorem sigSign (seeded : Bool) : Statement (.sigSign seeded) := ⟨_, rfl, rfl, rfl, rfl, rfl⟩
theorem sigVerify : Statement .sigVerify := ⟨_, rfl, rfl, rfl, rfl, rfl⟩
theorem blobBuild (seeded signed : Bool) : Statement (.blobBuild seeded signed) := ⟨_, rfl, rfl, rfl, rfl, rfl⟩
theorem blobOpen (signed : Bool) : Statement (.blobOpen signed) := ⟨_, rfl, rfl, rfl, rfl, rfl⟩

end OpcodeRow

end Sys2Proof.Laws
end

