-- ==== Sys2Proof/Tests/Slice0.lean ====
section
/-! SUPPORT. Tests of the model, each about one step on a small state or one function on fixed values. Expected values are those of
spec/95_test_vectors.md (V1 to V11, P6) and spec/30_encoding.md (R128), or worked out by hand from the rule a test names. The second
half gives, for every obligation with hypotheses, a state or operands that meet them. -/

namespace Sys2Proof.Tests

set_option Elab.async false

open Sys2Proof Sys2Proof.Machine

/-! ## Well-formedness: each check refuses a term (R113) -/

theorem test_wf_load : (Instr.polyLoad 1 2).wf = false ∧ (Instr.polyLoad 1 1).wf = true := by decide
theorem test_wf_unpack12 : (Instr.polyUnpack12 5 2).wf = false ∧ (Instr.polyUnpack12 5 0).wf = true := by decide
theorem test_wf_compress : (Instr.polyCompress 4 5).wf = false ∧ (Instr.polyCompress 4 0).wf = false := by decide
theorem test_wf_decompress : (Instr.polyDecompress 5 2).wf = false ∧ (Instr.polyDecompress 5 10).wf = true := by decide

/-! ## Encodings: the words of V7 and R128 -/

theorem test_decode_arith :
    decode 0x00000000 = .instr .nop ∧ decode 0x00000101 = .instr (.polyLoad 1 0) ∧ decode 0x00800101 = .instr (.polyLoad 1 1) ∧
    decode 0x00004002 = .instr (.polyStore 2) ∧ decode 0x00006002 = .instr (.polyStore 3) ∧
    decode 0x00002203 = .instr (.polyReduce 2 1) ∧ decode 0x00082304 = .instr (.polyAdd 3 1 2) ∧
    decode 0x00082305 = .instr (.polySub 3 1 2) ∧ decode 0x000C2006 = .instr (.polyEq 1 3) ∧
    decode 0x00000507 = .instr (.polyClear 5) ∧ decode 0x0000000F = .instr .zeroize ∧
    decode 0x007FFF04 = .instr (.polyAdd 31 31 31) ∧ decode 0x00000104 = .instr (.polyAdd 1 0 0) := by decide

theorem test_decode_ring :
    decode 0x00002210 = .instr (.nttFwd 2 1) ∧ decode 0x00004311 = .instr (.nttInv 3 2) ∧
    decode 0x00084318 = .instr (.pmul 3 2 2) ∧ decode 0x000C4418 = .instr (.pmul 4 2 3) ∧
    decode 0x00000620 = .instr (.cbdSample 6) ∧ decode 0x00000721 = .instr (.rejSample 7) ∧
    decode 0x05008028 = .instr (.polyCompress 4 10) ∧ decode 0x00808028 = .instr (.polyCompress 4 1) ∧
    decode 0x02000529 = .instr (.polyDecompress 5 4) ∧ decode 0x0000202A = .instr (.polyPack12 1) ∧
    decode 0x0000052B = .instr (.polyUnpack12 5 0) ∧ decode 0x0080052B = .instr (.polyUnpack12 5 1) := by decide

theorem test_decode_protocols :
    decode 0x00000030 = .instr (.kemKeygen false) ∧ decode 0x08000030 = .instr (.kemKeygen true) ∧
    decode 0x00000031 = .instr (.kemEncaps false) ∧ decode 0x08000031 = .instr (.kemEncaps true) ∧
    decode 0x00000032 = .instr .kemDecaps ∧
    decode 0x00000038 = .instr (.sigKeygen false) ∧ decode 0x08000038 = .instr (.sigKeygen true) ∧
    decode 0x00000039 = .instr (.sigSign false) ∧ decode 0x08000039 = .instr (.sigSign true) ∧
    decode 0x0000003A = .instr .sigVerify ∧
    decode 0x00000040 = .instr (.blobBuild false false) ∧ decode 0x08000040 = .instr (.blobBuild true false) ∧
    decode 0x10000040 = .instr (.blobBuild false true) ∧ decode 0x18000040 = .instr (.blobBuild true true) ∧
    decode 0x00000041 = .instr (.blobOpen false) ∧ decode 0x10000041 = .instr (.blobOpen true) := by decide

theorem test_decode_illegal :
    decode 0x00000008 = .illegal .unassignedOpcode ∧ decode 0x000000FF = .illegal .unassignedOpcode ∧
    decode 0x00000042 = .illegal .unassignedOpcode ∧ decode 0x00000100 = .illegal .unusedField ∧
    decode 0x20000000 = .illegal .reservedBits ∧ decode 0x80000032 = .illegal .reservedBits ∧
    decode 0x01000101 = .illegal .illegalImmediate ∧ decode 0x02800028 = .illegal .illegalImmediate ∧
    decode 0x00000028 = .illegal .illegalImmediate ∧ decode 0x08000032 = .illegal .strayFlag ∧
    decode 0x10000030 = .illegal .strayFlag ∧ decode 0x08000041 = .illegal .strayFlag ∧
    decode 0x00042002 = .illegal .unusedField ∧ decode 0x00002102 = .illegal .unusedField ∧
    decode 0x00800004 = .illegal .unusedField ∧ decode 0x0004E002 = .illegal .unusedField := by decide

theorem test_encode :
    encode (.polyAdd 3 1 2) = 0x00082304 ∧ encode (.pmul 4 2 3) = 0x000C4418 ∧ encode (.polyCompress 4 10) = 0x05008028 ∧
    encode (.polyDecompress 5 4) = 0x02000529 ∧ encode (.polyUnpack12 5 1) = 0x0080052B ∧ encode (.blobBuild true true) = 0x18000040 ∧
    encode (.polyAdd 31 31 31) = 0x007FFF04 ∧ encode (.polyEq 1 3) = 0x000C2006 := by decide

theorem test_table_word : decodeTableWord 32 0x000C4418 = some (.pmul 4 2 3) ∧ decodeTableWord 32 0x00000042 = none := by decide

theorem test_asm :
    (Instr.polyAdd 3 1 2).asm = "POLY_ADD p3, p1, p2" ∧ (Instr.polyCompress 4 10).asm = "POLY_COMPRESS p4, #10" ∧
    (Instr.blobBuild true true).asm = "BLOB_BUILD.S.K" ∧ (Instr.polyMov 2 1).asm = "POLY_REDUCE p2, p1" := by decide

/-! ## Functions on fixed values -/

/-- V1. -/
theorem test_reduce :
    [0, 1664, 1665, 3329, -1665, -3329, 6658, 32767, -32768, 2768896, -2768896, 11075584].map reduce =
    [0, 1664, -1664, 0, 1664, 0, 0, -523, 522, -832, 832, 1] := by decide

/-- R180: ZETAS[i] = 17^BitRev7(i) mod q. -/
theorem test_zetas : zetas = (List.range 128).map fun i => ((17 ^ bitRev7 i % 3329 : Nat) : Int) := by decide +kernel

/-- V6.1 and V6.2. -/
theorem test_compress_values :
    [832, 833, 1664, -1664, -833, -832].map (compressCoeff 1) = [0, 1, 1, 1, 1, 0] ∧
    [104, 105, 416, 1664, -833, -104, -105].map (compressCoeff 4) = [0, 1, 2, 8, 12, 0, 15] ∧
    [1, 2, 4, 5, 416, -833, -1, -4, -5].map (compressCoeff 10) = [0, 1, 1, 2, 128, 768, 0, 1023, 1022] := by decide

/-- V6.2. -/
theorem test_decompress_values :
    [0, 1].map (decompressCoeff 1) = [0, -1664] ∧ [1, 7, 8, 15].map (decompressCoeff 4) = [208, 1456, -1664, -208] ∧
    [1, 511, 512, 1023].map (decompressCoeff 10) = [3, 1661, -1664, -3] := by decide

/-- V5.7: the first two groups of the stream, `49 df d9` (both values rejected) and `80 9b bc`. -/
theorem test_rejection_groups :
    let str := fun p => [0x49#8, 0xdf, 0xd9, 0x80, 0x9b, 0xbc].getD p 0
    groupLo str 0 = 3913 ∧ groupHi str 0 = 3485 ∧ accept (groupHi str 0) (accept (groupLo str 0) []) = [] ∧
    accept (groupHi str 3) (accept (groupLo str 3) []) = [-312, -385] := by decide

/-- V6.5c. -/
theorem test_message :
    decompress (0x01 :: 0x80 :: zeros 30) 1 = (-1664 :: List.replicate 14 0) ++ (-1664 :: List.replicate 240 0) := by decide +kernel

/-- R265: the comparison looks at every byte, and the selection takes one side whole. -/
theorem test_select :
    allEqual [1#8, 2, 3] [1, 2, 3] = true ∧ allEqual [1#8, 2, 3] [1, 6, 3] = false ∧
    ctSelect true [1, 2] [3, 4] = [1, 2] ∧ ctSelect false [1, 2] [3, 4] = [3, 4] := by decide

/-! ## One command on a small state -/

/-- The state in which a command word is pending with the given ARG values. -/
def pending (s : State) (w : Word) (args : List Word) : State :=
  State.withFetchWord { s with args := Vector.ofFn fun j => args.getD j.val 0 } 32 w.toNat

/-- The state after the one step that executes a command word with the given ARG values. -/
def after (s : State) (w : Word) (args : List Word) : Option State :=
  match step (pending s w args) with
  | .next t => some t
  | .fault _ => none
  | .refused _ => none

/-- STATUS after a command. -/
def statusAfter (s : State) (w : Word) (args : List Word) : Option Word := (after s w args).map State.status

/-- A state with some bytes in DMEM. -/
def withBytes (s : State) (a : Nat) (b : Bytes) : State := s.writeMem a b

/-- A state with a register that holds the given leading coefficients and zeros. -/
def withReg (s : State) (r : PReg) (c : List Int) (t : Tag) : State := s.setReg r (fit 256 0 c) t

/-- The leading coefficients and the tag of a register after a command, with STATUS. -/
def regAfter (s : State) (w : Word) (args : List Word) (r : PReg) (n : Nat) : Option (List Int × Tag × Word) :=
  (after s w args).map fun t => ((t.elem r).take n, t.tag r, t.status)

/-- Bytes of DMEM after a command, with STATUS. -/
def bytesAfter (s : State) (w : Word) (args : List Word) (a n : Nat) : Option (Bytes × Word) :=
  (after s w args).map fun t => (t.readMem a n, t.status)

/-- V2.1 and V2.2. -/
theorem test_poly_load :
    let s := withBytes State.reset 0 [0x01, 0x0d, 0xff, 0x7f, 0x00, 0x80]
    regAfter s 0x00000101 [] 1 4 = some ([0, -523, 522, 0], .coeff, 0x2) ∧
    regAfter s 0x00800101 [] 1 4 = some ([0, -523, 522, 0], .ntt, 0x2) := by decide +kernel

/-- The region of POLY_LOAD at its edge (R84): 0xFE00 + 512 = 0x10000. -/
theorem test_poly_load_bounds :
    statusAfter State.reset 0x00000101 [0xFE00] = some 0x2 ∧ statusAfter State.reset 0x00000101 [0xFE01] = some 0x42 ∧
    statusAfter State.reset 0x00000101 [0xFFFFFFFF] = some 0x42 := by decide +kernel

/-- V2.3. -/
theorem test_poly_store :
    let s := withReg (withBytes State.reset 0x400 [0xaa]) 3 [-1664, 1] .coeff
    bytesAfter s 0x00006002 [0x200] 0x200 6 = some ([0x80, 0xf9, 0x01, 0x00, 0x00, 0x00], 0x2) ∧
    bytesAfter s 0x00006002 [0x200] 0x400 1 = some ([0xaa], 0x2) := by decide +kernel

/-- V2.11. -/
theorem test_poly_reduce :
    regAfter (withReg State.reset 1 [0, 1, -1] .coeff) 0x00002203 [] 2 4 = some ([0, 1, -1, 0], .coeff, 0x2) := by decide +kernel

/-- V2.4. -/
theorem test_poly_add :
    regAfter (withReg (withReg State.reset 1 [1664] .coeff) 2 [1664] .coeff) 0x00082304 [] 3 2 = some ([-1, 0], .coeff, 0x2) := by
  decide +kernel

/-- V2.6 and V2.7. -/
theorem test_poly_add_errors :
    statusAfter (withReg (withReg State.reset 1 [1] .coeff) 2 [1] .ntt) 0x00082304 [] = some 0x32 ∧
    statusAfter (withReg State.reset 1 [1] .coeff) 0x001C2304 [] = some 0x22 := by decide +kernel

/-- V2.5. -/
theorem test_poly_sub :
    regAfter (withReg (withReg State.reset 1 [-1664] .coeff) 2 [1664] .coeff) 0x00082305 [] 3 2 = some ([1, 0], .coeff, 0x2) := by
  decide +kernel

/-- V2.8 and V2.9. -/
theorem test_poly_eq :
    let s := withReg State.reset 1 [1, 2] .coeff
    (after (withReg s 3 [1, 2] .coeff) 0x000C2006 []).map (fun t => (t.status, t.result0)) = some (0x102, 1) ∧
    (after (withReg s 3 [1, 3] .coeff) 0x000C2006 []).map (fun t => (t.status, t.result0)) = some (0x2, 0) := by decide +kernel

/-- V2.13. -/
theorem test_poly_eq_tags :
    statusAfter (withReg (withReg State.reset 1 [] .coeff) 2 [] .ntt) 0x00082006 [] = some 0x32 := by decide +kernel

/-- V2.12. -/
theorem test_poly_clear :
    (after (withReg State.reset 5 [7] .ntt) 0x00000507 []).bind (fun t => statusAfter t 0x0000A002 []) = some 0x22 := by decide +kernel

/-- V2.15. -/
theorem test_zeroize :
    (after { withReg (withBytes State.reset 9 [1]) 4 [5] .ntt with kst := .decapsulated, hz := true } 0x0000000F [3]).map
      (fun t => (t.dmem, t.tag 4, t.coeff 4 0, t.status, t.args[0], t.readReg 0x028)) =
    some ([], .empty, 0, 0x202, 3, 0x0000000F) := by decide +kernel

/-- V2.14. -/
theorem test_nop :
    (after { State.reset with kst := .encapsulated, hz := true, result0 := 4, result1 := 4 } 0x00000000 []).map
      (fun t => (t.status, t.result0, t.result1)) = some (0x2202, 0, 0) := by decide +kernel

/-- V7: an illegal word completes with 0x12. -/
theorem test_illegal_word : statusAfter State.reset 0x0004E002 [] = some 0x12 ∧ statusAfter State.reset 0x00000042 [] = some 0x12 := by
  decide +kernel

/-- V3.3 and V3.5. -/
theorem test_ntt_fwd :
    regAfter (withReg State.reset 1 [0, 0, 1] .coeff) 0x00002210 [] 2 8 = some ([17, 0, -17, 0, -568, 0, 568, 0], .ntt, 0x2) ∧
    (after (withReg State.reset 1 [1, 1] .coeff) 0x00002210 []).map (fun t => t.elem 2) = some (List.replicate 256 1) := by
  decide +kernel

/-- V3.4: the ramp. -/
theorem test_ntt_ramp :
    let ramp := (List.range 256).map fun i => (i : Int)
    (ntt ramp).take 8 = [-900, -484, 425, 795, -1464, 1356, 624, 31] ∧
    (ntt ramp).drop 252 = [-827, -1195, -612, -1026] ∧ intt (ntt ramp) = ramp := by decide +kernel

/-- V3.7, and the domain errors of V3. -/
theorem test_ntt_inv :
    regAfter (State.reset.setReg 2 (List.replicate 256 1) .ntt) 0x00004311 [] 3 4 = some ([1, 1, 0, 0], .coeff, 0x2) ∧
    statusAfter (withReg State.reset 2 [1] .coeff) 0x00004311 [] = some 0x32 ∧ statusAfter State.reset 0x00004311 [] = some 0x22 := by
  decide +kernel

/-- V4.1. -/
theorem test_pmul :
    regAfter (withReg (withReg State.reset 2 [1664, -1664] .ntt) 3 [1664, 1664] .ntt) 0x000C4418 [] 4 3 =
    some ([-832, 832, 0], .ntt, 0x2) := by decide +kernel

/-- V4.2, V4.5 and V4.6. -/
theorem test_ring_product :
    let x := fun (n : Nat) => (List.replicate 256 (0 : Int)).set n 1
    ringMul (x 1) (x 1) = x 1 ∧ ringMul (x 128) (x 128) = (List.replicate 256 (0 : Int)).set 0 (-1) ∧
    ringMul (x 255) (x 3) = (List.replicate 256 (0 : Int)).set 1 (-1) := by decide +kernel

/-- V5.1. -/
theorem test_cbd_sample :
    regAfter (withBytes State.reset 0 [0x03, 0x0c, 0x05, 0xf0, 0x0f, 0x1e]) 0x00000620 [] 6 13 =
    some ([2, 0, -2, 0, 0, 0, 0, 0, 0, 0, -1, 1, 0], .coeff, 0x2) := by decide +kernel

/-- V5: the region at its edge. -/
theorem test_cbd_sample_bounds :
    statusAfter State.reset 0x00000620 [0xFF80] = some 0x2 ∧ statusAfter State.reset 0x00000620 [0xFF81] = some 0x42 := by
  decide +kernel

/-- The region of REJ_SAMPLE leaves DMEM (R215, R84). -/
theorem test_rej_sample_bounds : statusAfter State.reset 0x00000721 [0xFFE1] = some 0x42 := by decide +kernel

/-- The polynomial of V6.4. -/
def codecPoly : List Int := [1, -1, 1664, -1664, 832, -832, 416, -416]

/-- V6.4 at 4 and 10 bits. -/
theorem test_poly_compress :
    bytesAfter (withReg State.reset 4 codecPoly .coeff) 0x05008028 [0x100] 0x100 10 =
      some ([0x00, 0x00, 0x00, 0x20, 0x80, 0x00, 0x01, 0x0c, 0x08, 0xe0], 0x2) ∧
    compress (fit 256 0 codecPoly) 4 = [0x00, 0x88, 0xc4, 0xe2] ++ zeros 124 := by decide +kernel

/-- V6.5m and V6.5n. -/
theorem test_poly_compress_errors :
    statusAfter (withReg State.reset 1 [] .ntt) 0x05002028 [] = some 0x32 ∧ statusAfter State.reset 0x02800028 [] = some 0x12 := by
  decide +kernel

/-- V6.4 decompressed at 4 bits. -/
theorem test_poly_decompress :
    regAfter (withBytes State.reset 0 [0x00, 0x88, 0xc4, 0xe2]) 0x02000529 [0, 128] 5 9 =
    some ([0, 0, -1664, -1664, 832, -832, 416, -416, 0], .coeff, 0x2) := by decide +kernel

/-- V6.5k and V6.5l. -/
theorem test_poly_decompress_errors :
    statusAfter State.reset 0x02000529 [0, 127] = some 0x52 ∧ statusAfter State.reset 0x02000529 [0xFFF0, 127] = some 0x42 := by
  decide +kernel

/-- V6.5d. -/
theorem test_poly_pack12 :
    bytesAfter (withReg State.reset 1 [1, -1, 1664, -1664] .ntt) 0x0000202A [] 0 7 =
    some ([0x01, 0x00, 0xd0, 0x80, 0x16, 0x68, 0x00], 0x2) := by decide +kernel

/-- V6.5f. -/
theorem test_poly_unpack12 :
    regAfter (withBytes State.reset 0 [0x00, 0x0d, 0xd0]) 0x0080052B [0, 384] 5 3 = some ([-1, -1, 0], .ntt, 0x2) := by decide +kernel

/-- V6.5g, V6.5h and V6.5j. -/
theorem test_poly_unpack12_errors :
    statusAfter (withBytes State.reset 0 [0x01, 0x0d]) 0x0080052B [0, 384] = some 0x52 ∧
    statusAfter (withBytes State.reset 0 [0x00, 0x10, 0xd0]) 0x0080052B [0, 384] = some 0x52 ∧
    statusAfter State.reset 0x0080052B [0, 383] = some 0x52 := by decide +kernel

/-- V8.15. -/
theorem test_kem_keygen_bounds : statusAfter State.reset 0x08000030 [0, 0xF6A1, 0] = some 0x42 := by decide +kernel

/-- V8.8 and V8.9. -/
theorem test_kem_encaps_errors :
    statusAfter State.reset 0x08000031 [0, 1183, 0, 0, 0] = some 0x52 ∧
    statusAfter State.reset 0x08000031 [0xFFFF, 1184, 0, 0, 0] = some 0x42 := by decide +kernel

/-- V8.11: KST and the output regions are as they were. -/
theorem test_kem_encaps_format :
    bytesAfter (withBytes (withBytes { State.reset with kst := .keyGenerated } 32 [0xff, 0xff, 0xff]) 0x1000 [7]) 0x08000031
      [0, 1184, 0x1000, 0x2000, 0x3000] 0x1000 1 = some ([7], 0x1052) := by decide +kernel

/-- V8.13, and a public key inside the secret key that is not canonical (R269). -/
theorem test_kem_decaps_errors :
    statusAfter State.reset 0x00000032 [0, 2400, 0x1000, 1087, 0x2000] = some 0x52 ∧
    statusAfter (withBytes State.reset 1184 [0xff, 0xff, 0xff]) 0x00000032 [0, 2400, 0x1000, 1088, 0x2000] = some 0x52 := by
  decide +kernel

/-- V9.5: the key region leaves DMEM, and nothing is cleared. -/
theorem test_sig_sign_key_bounds :
    bytesAfter (withBytes State.reset 0xFFFF [9]) 0x00000039 [0xFFFF, 2] 0xFFFF 1 = some ([9], 0x42) := by decide +kernel

/-- R304, R306: the message region leaves DMEM after the key's check has passed, and the key is cleared. -/
theorem test_sig_sign_clears :
    bytesAfter (withBytes State.reset 0x1000 [9, 9, 9]) 0x00000039 [0x1000, 2, 0xFFFF, 2] 0x0FFF 4 = some ([0, 0, 0, 9], 0x42) := by
  decide +kernel

/-- R307: a region of SIG_VERIFY leaves DMEM. -/
theorem test_sig_verify_bounds : statusAfter State.reset 0x0000003A [0, 0, 0x8000, 0x8001, 0, 0] = some 0x42 := by decide +kernel

/-- V10.10. -/
theorem test_blob_build_length : statusAfter State.reset 0x00000040 [0, 5, 0x100, 1183, 0, 0, 0x1000] = some 0x52 := by decide +kernel

/-- R326, R343: a blob shorter than 1116 bytes; the length of the secret key is checked first (V10.5, V10.6). -/
theorem test_blob_open_short :
    statusAfter State.reset 0x00000041 [0, 1115, 0x1000, 2400, 0x4000] = some 0x62 ∧
    statusAfter State.reset 0x00000041 [0, 1121, 0x1000, 2399, 0x4000] = some 0x52 := by decide +kernel

/-- V8.16: the secret key's region ends where DMEM does, and no static check fails. -/
theorem test_kem_keygen_edge :
    staticError (pending State.reset 0x08000030 [0, 0xF6A0, 0]) (.kemKeygen true) = none ∧
    staticError (pending State.reset 0x08000030 [0, 0xF6A1, 0]) (.kemKeygen true) = some .bounds := by decide +kernel

/-- The regions of the other commands at their edges: the last address that is in bounds, and the next one (R84). An empty region may
start at 0x10000. -/
theorem test_region_edges :
    let s := withReg (withReg State.reset 1 [] .coeff) 2 [] .ntt
    let e := fun (i : Instr) (args : List Word) => staticError (pending s 0 args) i
    e (.polyStore 1) [0xFE00] = none ∧ e (.polyStore 1) [0xFE01] = some .bounds ∧
    e (.rejSample 0) [0xFFE0] = none ∧ e (.rejSample 0) [0xFFE1] = some .bounds ∧
    e (.polyCompress 1 10) [0xFEC0] = none ∧ e (.polyCompress 1 10) [0xFEC1] = some .bounds ∧
    e (.polyPack12 2) [0xFE80] = none ∧ e (.polyPack12 2) [0xFE81] = some .bounds ∧
    e (.polyUnpack12 3 0) [0xFE80, 384] = none ∧ e (.polyUnpack12 3 0) [0xFE81, 384] = some .bounds ∧
    e (.polyDecompress 3 4) [0xFF80, 128] = none ∧ e (.polyDecompress 3 4) [0xFF81, 128] = some .bounds ∧
    e (.kemEncaps true) [0xFB60, 1184, 0xFBC0, 0xFFE0, 0xFFE0] = none ∧
    e (.kemEncaps true) [0xFB60, 1184, 0xFBC0, 0xFFE0, 0xFFE1] = some .bounds ∧
    e .kemDecaps [0xF6A0, 2400, 0xFBC0, 1088, 0xFFE0] = none ∧ e .kemDecaps [0xF6A0, 2400, 0xFBC0, 1088, 0xFFE1] = some .bounds ∧
    e (.blobOpen true) [0xFBA4, 1116, 0xF6A0, 2400, 0x10000] = none ∧
    e (.blobOpen true) [0xFBA4, 1116, 0xF6A0, 2400, 0x10001] = some .bounds := by decide +kernel

/-- R58, R371: what a command holds in scratch is zero again at its completion, and a command that goes on sampling lets a waiting
access of the host go first. -/
theorem test_scratch (w : Scratch) :
    ((State.reset.holding w).complete .auth).scratch = Scratch.zero ∧ (State.reset.keepSampling w).delay ≠ 0 :=
  ⟨rfl, Nat.succ_ne_zero _⟩

/-! ## The host's port (V11) -/

/-- What the host has read, and STATUS, after one step with one access waiting. -/
def hostStep (s : State) (a : BusAction) : Option (List Word × Word) :=
  match step { s with port := [a] } with
  | .next t => some (t.seen.map BusRead.value, t.status)
  | .fault _ => none
  | .refused _ => none

/-- V11.1 and V11.2. -/
theorem test_host_reads :
    hostStep State.reset (.rd 0x000) = some ([0x4D500301], 0) ∧ hostStep State.reset (.rd 0x004) = some ([0x01000D01], 0) ∧
    hostStep State.reset (.rd 0x008) = some ([0x00204A23], 0) ∧ hostStep State.reset (.rd 0x014) = some ([0x00010000], 0) ∧
    hostStep State.reset (.rd 0x020) = some ([0], 0) ∧ hostStep State.reset (.rd 0x024) = some ([0], 0) ∧
    hostStep State.reset (.rd 0x060) = some ([0], 0) := by decide +kernel

/-- V11.4 and V11.6: little-endian. -/
theorem test_host_window :
    (match step { State.reset with port := [.wr 0x10000 0x04030201] } with
      | .next t => some (t.readMem 0 5)
      | _ => none) = some [1, 2, 3, 4, 0] ∧
    hostStep (withBytes State.reset 0 [1, 2, 3, 4]) (.read 2 0x10002) = some ([0x0403], 0) := by decide +kernel

/-- V11.5, and the end of the aperture (R83). -/
theorem test_host_refused_accesses :
    hostStep State.reset (.read 2 0x024) = none ∧ hostStep State.reset (.read 4 0x10002) = none ∧
    hostStep State.reset (.read 1 0x1FFFF) = some ([0], 0) ∧ hostStep State.reset (.read 1 0x20000) = none := by decide +kernel

/-- V11.7 and P6: the NOP's engine step comes first, or the ARG write does and is dropped, which STATUS shows when the NOP is over
(R381). -/
theorem test_write_while_busy :
    let s := { pending State.reset 0x00000000 [] with port := [.setArg 0 5] }
    hostStep s (.setArg 0 5) = some ([], 0x2) ∧ hostStep { s with delay := 1 } (.setArg 0 5) = some ([], 0x1) ∧
    (match step { s with delay := 1 } with
      | .next t => hostStep t .wait
      | _ => none) = some ([], 0x202) := by decide +kernel

/-- V11.8, V11.9 and V11.10. -/
theorem test_control :
    let s := { State.reset with done := true, hz := true, kst := .encapsulated }
    hostStep s (.wr 0x020 2) = some ([], 0x2002) ∧ hostStep s (.wr 0x020 1) = some ([], 0) ∧ hostStep s (.wr 0x020 3) = some ([], 0) ∧
    hostStep { pending s 0x0000000F [1] with delay := 1 } (.wr 0x020 1) = some ([], 0) := by decide +kernel

/-- ISSUE is the CMD write and a WAIT, which stays while BUSY = 1 (R122). -/
theorem test_wait :
    BusAction.issue 0x0000000F = [.write 4 0x028 0x0000000F, .wait] ∧
    (match step { pending State.reset 0 [] with port := [.wait], delay := 2 } with
      | .next t => some (t.port, t.delay)
      | _ => none) = some ([.wait], 1) ∧
    (match step { State.reset with port := [.wait] } with
      | .next t => some t.port
      | _ => none) = some [] := by decide +kernel

/-! ## Witnesses: states and operands that meet the hypotheses of the statements -/

theorem witness_DecodeOfEncode : ∃ i : Instr, i.wf = true := ⟨.polyUnpack12 31 1, by decide⟩

theorem witness_EncodeOfDecode : ∃ (w : Word) (i : Instr), decode w = .instr i := ⟨0x05008028, .polyCompress 4 10, by decide⟩

theorem witness_StepRunsThePendingCommand :
    (∃ (s : State) (i : Instr), s.busy = true ∧ (s.port = [] ∨ s.delay = 0) ∧ decode s.cmdl = .instr i) ∧
    (∃ s : State, s.busy = false) ∧ ∃ s : State, s.busy = true ∧ s.port ≠ [] ∧ s.delay ≠ 0 :=
  ⟨⟨pending State.reset 0x00000507 [], .polyClear 5, by decide⟩, ⟨State.reset, rfl⟩,
    ⟨{ pending State.reset 0 [] with port := [.wait], delay := 1 }, by decide⟩⟩

theorem witness_IllegalWordCompletes :
    ∃ (s : State) (why : IllegalWord), s.busy = true ∧ (s.port = [] ∨ s.delay = 0) ∧ decode s.cmdl = .illegal why :=
  ⟨pending State.reset 0x08000032 [], .strayFlag, by decide⟩

theorem witness_CheckOrder : ∃ i : Instr, i.wf = true := ⟨.blobBuild true true, by decide⟩

/-- POLY_STORE of a register that is EMPTY. -/
theorem witness_ErrorsArePrecise :
    ∃ (i : Instr) (s t : State), exec i s = .next t ∧ s.busy = true ∧ t.busy = false ∧ t.err ≠ .ok :=
  ⟨.polyStore 3, pending State.reset 0x00006002 [], _, rfl, rfl, by decide +kernel⟩

/-- A signing key in bounds whose command fails in a later region, and one that leaves DMEM. -/
theorem witness_SigningKeyIsCleared :
    (∃ (i : Instr) (s t : State) (addr len : Nat), signingKey i s = some (addr, len) ∧
      (∀ r ∈ beforeKey i s, ¬ OutOf r.1 r.2) ∧ exec i s = .next t ∧ s.busy = true ∧ t.busy = false ∧ ¬ OutOf addr len) ∧
    ∃ (i : Instr) (s t : State) (addr len : Nat), signingKey i s = some (addr, len) ∧
      (∀ r ∈ beforeKey i s, ¬ OutOf r.1 r.2) ∧ exec i s = .next t ∧ s.busy = true ∧ t.busy = false ∧ OutOf addr len :=
  ⟨⟨.sigSign false, pending State.reset 0x00000039 [0xFFFE, 2, 0xFFFF, 2], _, 0xFFFE, 2, by decide +kernel, by decide, rfl, rfl,
      by decide +kernel, by decide⟩,
    ⟨.blobBuild false true, pending State.reset 0x10000040 [0, 0x10000, 0, 0, 0xFFFF, 2], _, 0xFFFF, 2, by decide +kernel,
      by decide +kernel, rfl, rfl, by decide +kernel, by decide⟩⟩

/-- POLY_EQ of two equal registers. -/
theorem witness_WhoWritesKstAndEq :
    ∃ (i : Instr) (s t : State), exec i s = .next t ∧ s.busy = true ∧ t.busy = false ∧ t.err = .ok ∧ t.eq ≠ s.eq :=
  ⟨.polyEq 1 1, pending (withReg State.reset 1 [1] .coeff) 0x00042006 [], _, rfl, rfl, by decide +kernel⟩

theorem witness_ByteCommandsIgnoreRegisters : ∃ (i : Instr) (s t : State), usesScratchOnly i = true ∧ exec i s = .next t :=
  ⟨.kemDecaps, pending State.reset 0x00000032 [], _, rfl, rfl⟩

theorem witness_SeededCommandsDrawNothing : ∃ (i : Instr) (s t : State), draws i = false ∧ exec i s = .next t :=
  ⟨.kemKeygen true, pending State.reset 0x08000030 [0, 0xF6A0, 0], _, rfl, rfl⟩

theorem witness_EngineReadsLatchedArguments : ∃ (i : Instr) (s t : State), exec i s = .next t :=
  ⟨.cbdSample 6, pending State.reset 0x00000620 [0xFF80], _, rfl⟩

/-- A state with a pending NOP, a byte in DMEM and a register in use. -/
def pendingNop : State := pending (withReg (withBytes State.reset 0xFFFF [1]) 31 [1664, -1664] .ntt) 0 [7]

theorem pendingNop_inv : pendingNop.Inv where
  mem := by decide +kernel
  regs := fun r => by
    by_cases h : r = 31
    · subst h; exact ⟨fun _ => by decide +kernel, fun h => absurd h (by decide +kernel)⟩
    · have e : pendingNop.pr.get r = PolyReg.cleared := by
        revert r; decide +kernel
      rw [e]; exact Within.regOk_cleared
  busyDone := by decide
  scratchZero := fun _ => rfl
  latched := fun _ => rfl
  pendingZero := fun _ => ⟨rfl, rfl, rfl⟩
  errorZero := fun _ _ => ⟨rfl, rfl, rfl⟩

theorem witness_InvariantKept : ∃ s t : State, s.Inv ∧ step s = .next t := ⟨pendingNop, _, pendingNop_inv, rfl⟩

theorem witness_CommandAcceptance :
    (∃ (s : State) (w : Word) (rest : List BusAction), s.port = .write 4 0x028 w :: rest ∧ s.busy = false) ∧
    ∃ (s : State) (w : Word) (rest : List BusAction), s.port = .write 4 0x028 w :: rest ∧ s.busy = true ∧ s.delay ≠ 0 :=
  ⟨⟨{ State.reset with port := BusAction.issue 0x0000000F }, 0x0000000F, [.wait], rfl, rfl⟩,
    ⟨{ pending State.reset 0 [] with port := [.write 4 0x028 3], delay := 1 }, 3, [], by decide⟩⟩

/-- A state in which a command is pending and the host writes first. -/
def writesFirst (bytes off : Nat) (v : Word) : State :=
  { pending State.reset 0 [] with port := [.write bytes off v], delay := 1 }

/-- Each of the three clauses, the first at the edges of its ranges. -/
theorem witness_HazardFlag :
    (∀ p ∈ [(4, 0x028), (4, 0x040), (4, 0x05C), (1, 0x10000), (1, 0x1FFFF)],
      ∃ (s : State) (v : Word) (rest : List BusAction), s.port = .write p.1 p.2 v :: rest ∧ s.busy = true ∧ s.delay ≠ 0 ∧
        LegalAccess p.1 p.2 ∧ (p.2 = 0x028 ∨ 0x040 ≤ p.2 ∧ p.2 < 0x060 ∨ 0x10000 ≤ p.2)) ∧
    (∃ s t : State, step s = .next t ∧ s.hz = false ∧ t.hz = true) ∧
    ∃ s t : State, step s = .next t ∧ s.hz = true ∧ t.hz = false :=
  ⟨fun p hp => ⟨writesFirst p.1 p.2 0, 0, [], rfl, rfl, Nat.one_ne_zero, by unfold LegalAccess; revert p; decide, by revert p; decide⟩,
    ⟨writesFirst 4 0x040 5, _, rfl, by decide⟩, ⟨{ State.reset with hz := true, port := [.write 4 0x020 2] }, _, rfl, by decide⟩⟩

theorem witness_ControlWrites :
    (∃ (s : State) (v : Word) (rest : List BusAction), s.port = .write 4 0x020 v :: rest ∧ s.busy = false) ∧
    ∃ (s : State) (v : Word) (rest : List BusAction), s.port = .write 4 0x020 v :: rest ∧ s.busy = true ∧ s.delay ≠ 0 :=
  ⟨⟨{ State.reset with port := [.write 4 0x020 2] }, 2, [], rfl, rfl⟩, ⟨writesFirst 4 0x020 1, 1, [], by decide⟩⟩

theorem witness_RegisterMap :
    (∀ off ∈ [0x018, 0x01C, 0x034, 0x038, 0x03C, 0x060], off ∈ [0x018, 0x01C, 0x034, 0x038, 0x03C] ∨ 0x060 ≤ off) ∧
    ∀ off ∈ [0x000, 0x024, 0x05C, 0xFFFC], ∃ (s : State) (rest : List BusAction),
      s.port = .read 4 off :: rest ∧ off < 0x10000 ∧ off % 4 = 0 ∧ s.busy = false :=
  ⟨by decide, fun off h => ⟨{ State.reset with port := [.read 4 off] }, [], rfl, by revert off; decide, by revert off; decide, rfl⟩⟩

/-- The clauses of HazardFlag about reads: an acceptance, a dropped write and an HZCLR while BUSY, and a command that ends with HZ set. -/
theorem witness_HazardFlag_reads :
    (∃ (s : State) (w : Word) (rest : List BusAction), s.port = .write 4 0x028 w :: rest ∧ s.busy = false) ∧
    (∃ s t : State, step s = .next t ∧ s.busy = true ∧ t.busy = true ∧ s.hz = false ∧ t.hz = true) ∧
    (∃ s t : State, step s = .next t ∧ s.busy = true ∧ t.busy = true ∧ s.hz = true ∧ t.hz = false) ∧
    ∃ (s t : State) (i : Instr), s.busy = true ∧ exec i s = .next t ∧ t.busy = false ∧ s.hz = true :=
  ⟨⟨{ State.reset with port := BusAction.issue 0x0000000F }, 0x0000000F, [.wait], rfl, rfl⟩,
    ⟨writesFirst 4 0x040 5, _, rfl, by decide⟩, ⟨{ writesFirst 4 0x020 2 with hz := true }, _, rfl, by decide⟩,
    ⟨{ pending State.reset 0 [] with hz := true }, _, .nop, rfl, rfl, rfl, rfl⟩⟩

theorem witness_RegisterWrites :
    (∀ j : Fin 8, ∃ (s : State) (v : Word) (rest : List BusAction), s.port = .write 4 (0x040 + 4 * j.val) v :: rest ∧ s.busy = false) ∧
    ∀ off ∈ [0x000, 0x024, 0x03C, 0x060, 0xFFFC], ∃ (s : State) (v : Word) (rest : List BusAction),
      s.port = .write 4 off v :: rest ∧ off < 0x10000 ∧ off % 4 = 0 ∧ off ≠ 0x020 ∧ off ≠ 0x028 ∧ (off < 0x040 ∨ 0x060 ≤ off) ∧
      s.busy = true ∧ s.delay ≠ 0 :=
  ⟨fun j => ⟨{ State.reset with port := [.write 4 (0x040 + 4 * j.val) 9] }, 9, [], rfl, rfl⟩,
    fun off h => ⟨writesFirst 4 off 9, 9, [], rfl, by revert off; decide, by revert off; decide, by revert off; decide,
      by revert off; decide, by revert off; decide, rfl, Nat.one_ne_zero⟩⟩

theorem witness_DmemWindow :
    ∀ p ∈ [(4, 0xFFFC), (2, 0xFFFE), (1, 0xFFFF), (1, 0)],
      (∃ (s : State) (v : Word) (rest : List BusAction), s.port = .write p.1 (0x10000 + p.2) v :: rest ∧ s.busy = false) ∧
      (∃ (s : State) (rest : List BusAction), s.port = .read p.1 (0x10000 + p.2) :: rest ∧ s.busy = false) ∧
      (∃ (s : State) (rest : List BusAction), s.port = .read p.1 (0x10000 + p.2) :: rest ∧ s.busy = true ∧ s.delay ≠ 0) ∧
      LegalAccess p.1 (0x10000 + p.2) :=
  fun p hp => ⟨⟨{ State.reset with port := [.write p.1 (0x10000 + p.2) 1] }, 1, [], rfl, rfl⟩,
    ⟨{ State.reset with port := [.read p.1 (0x10000 + p.2)] }, [], rfl, rfl⟩,
    ⟨{ pending State.reset 0 [] with port := [.read p.1 (0x10000 + p.2)], delay := 1 }, [], rfl, rfl, Nat.one_ne_zero⟩,
    by unfold LegalAccess; revert p; decide⟩

/-- Accesses that stop, at the edges of what R83 refuses, and legal ones that do not. -/
theorem witness_OnlyRefusedAccessesStop :
    (∀ p ∈ [(2, 0x024), (4, 0x002), (4, 0x10002), (2, 0x1FFFF), (3, 0x10000), (1, 0x20000)],
      ∃ s : State, s.busy = false ∧ s.Accesses p.1 p.2 ∧ ∃ f, step s = .fault f) ∧
    ∀ p ∈ [(4, 0xFFFC), (1, 0x10000), (2, 0x1FFFE), (1, 0x1FFFF)],
      ∃ s : State, s.busy = false ∧ s.Accesses p.1 p.2 ∧ ∃ t, step s = .next t := by
  constructor
  · intro p hp
    refine ⟨{ State.reset with port := [.read p.1 p.2] }, rfl, .inl ⟨[], rfl⟩, ?_⟩
    simp only [List.mem_cons, List.not_mem_nil, or_false] at hp
    rcases hp with rfl | rfl | rfl | rfl | rfl | rfl <;> exact ⟨_, rfl⟩
  · intro p hp
    refine ⟨{ State.reset with port := [.write p.1 p.2 1] }, rfl, .inr ⟨1, [], rfl⟩, ?_⟩
    simp only [List.mem_cons, List.not_mem_nil, or_false] at hp
    rcases hp with rfl | rfl | rfl | rfl <;> exact ⟨_, rfl⟩

/-- Both extreme values of a coefficient. -/
def edgeElem : Elem := List.replicate 128 1664 ++ List.replicate 128 (-1664)

theorem edgeElem_isElem : IsElem edgeElem := ⟨by decide +kernel, by decide +kernel⟩

theorem witness_NttRoundTrip : ∃ f : Elem, IsElem f := ⟨edgeElem, edgeElem_isElem⟩

theorem witness_NttValues : ∃ f : Elem, f.length = 256 ∧ ∃ i, i < 128 := ⟨edgeElem, edgeElem_isElem.length, 127, by decide⟩

theorem witness_ProductLaws : ∃ a b c : Elem, IsElem a ∧ IsElem b ∧ IsElem c :=
  ⟨edgeElem, edgeElem, edgeElem, edgeElem_isElem, edgeElem_isElem, edgeElem_isElem⟩

theorem witness_ProductRing : ∃ a b : Elem, a.length = 256 ∧ b.length = 256 ∧ ∃ m p : Nat, m < 128 ∧ p < 2 :=
  ⟨edgeElem, edgeElem, edgeElem_isElem.length, edgeElem_isElem.length, 127, 1, by decide⟩

theorem witness_CodecRoundTripError : ∀ p ∈ [((1 : Nat), (832 : Int)), (4, 104), (10, 2)],
    (∃ x : Int, Centred x) ∧ ∃ y : Nat, y < 2 ^ p.1 :=
  fun _ _ => ⟨⟨-1664, by decide⟩, 0, Nat.pow_pos (by decide)⟩

theorem witness_PackingIsABijection :
    (∃ (d : Nat) (v : List Nat), v.length = 256 ∧ (∀ x ∈ v, x < 2 ^ d) ∧ 0 < d) ∧
    ∃ (d : Nat) (b : Bytes), b.length = 32 * d ∧ 0 < d :=
  ⟨⟨12, List.replicate 256 4095, by decide +kernel⟩, ⟨12, zeros 384, by decide +kernel⟩⟩

theorem witness_Pack12RoundTrip : (∃ f : Elem, IsElem f) ∧ ∃ b : Bytes, b.length = 384 :=
  ⟨⟨edgeElem, edgeElem_isElem⟩, List.replicate 384 0xFF, by decide +kernel⟩

theorem witness_MessageEncoding : (∃ m : Bytes, m.length = 32) ∧ ∃ w : Elem, IsElem w :=
  ⟨⟨List.replicate 32 0xA5, by decide⟩, edgeElem, edgeElem_isElem⟩

/-- The conditions under which the signature commands reach their own effect, whatever the block's signature lengths are. -/
theorem witness_signature_commands :
    (∃ s : State, ¬ OutOf (s.arg 0) sigSkLen ∧ ¬ OutOf (s.arg 1) sigVkLen ∧ ¬ OutOf (s.arg 2) sigSeedLen) ∧
    (∃ s : State, ¬ OutOf (s.arg 0) (s.arg 1) ∧ ¬ OutOf (s.arg 2) (s.arg 3) ∧ ¬ OutOf (s.arg 4) sigLen ∧
      ¬ OutOf (s.arg 5) sigRndLen ∧ s.arg 1 = sigSkLen) ∧
    ∃ s : State, ¬ OutOf (s.arg 0) (s.arg 1) ∧ ¬ OutOf (s.arg 2) (s.arg 3) ∧ ¬ OutOf (s.arg 4) (s.arg 5) ∧ s.arg 1 = sigVkLen ∧
      s.arg 5 = sigLen := by
  have h1 : sigSkLen < 65536 := Config.params.sigSkLen.isLt
  have h2 : sigVkLen < 65536 := Config.params.sigVkLen.isLt
  have h3 : sigLen < 65536 := Config.params.sigLen.isLt
  have h4 : sigSeedLen < 256 := Config.params.sigSeedLen.isLt
  have h5 : sigRndLen < 256 := Config.params.sigRndLen.isLt
  have e : ∀ n : Nat, n < 65536 → (BitVec.ofNat 32 n).toNat = n := fun n h => by rw [BitVec.toNat_ofNat]; omega
  refine ⟨⟨State.reset, ?_⟩, ⟨pending State.reset 0x08000039 [0, BitVec.ofNat 32 sigSkLen], ?_⟩,
    ⟨pending State.reset 0x0000003A [0, BitVec.ofNat 32 sigVkLen, 0, 0, 0, BitVec.ofNat 32 sigLen], ?_⟩⟩
  · refine ⟨?_, ?_, ?_⟩ <;> simp only [OutOf, Config.dmemSize, show ∀ j, State.reset.arg j = 0 by decide] <;> omega
  · have a1 : (pending State.reset 0x08000039 [0, BitVec.ofNat 32 sigSkLen]).arg 1 = sigSkLen := e _ h1
    have a0 : ∀ j ∈ [(0 : Fin 8), 2, 3, 4, 5], (pending State.reset 0x08000039 [0, BitVec.ofNat 32 sigSkLen]).arg j = 0 := by
      intro j hj; fin_cases hj <;> rfl
    simp only [OutOf, Config.dmemSize, a1, a0 0 (by decide), a0 2 (by decide), a0 3 (by decide), a0 4 (by decide), a0 5 (by decide), and_true]
    omega
  · have a1 : (pending State.reset 0x0000003A [0, BitVec.ofNat 32 sigVkLen, 0, 0, 0, BitVec.ofNat 32 sigLen]).arg 1 = sigVkLen := e _ h2
    have a5 : (pending State.reset 0x0000003A [0, BitVec.ofNat 32 sigVkLen, 0, 0, 0, BitVec.ofNat 32 sigLen]).arg 5 = sigLen := e _ h3
    have a0 : ∀ j ∈ [(0 : Fin 8), 2, 3, 4],
        (pending State.reset 0x0000003A [0, BitVec.ofNat 32 sigVkLen, 0, 0, 0, BitVec.ofNat 32 sigLen]).arg j = 0 := by
      intro j hj; fin_cases hj <;> rfl
    simp only [OutOf, Config.dmemSize, a1, a5, a0 0 (by decide), a0 2 (by decide), a0 3 (by decide), a0 4 (by decide), and_true]
    omega

/-- The conditions under which the blob commands reach their own effect: a signed build at the end of DMEM is impossible for a report
that leaves no room, so the witness takes an empty report; an open of the shortest blob. -/
theorem witness_blob_commands :
    (∃ s : State, ¬ OutOf (s.arg 0) (s.arg 1) ∧ ¬ OutOf (s.arg 2) (s.arg 3) ∧ ¬ OutOf (s.arg 6) (1116 + s.arg 1) ∧ s.arg 3 = 1184 ∧
      (parsePk (s.readMem (s.arg 2) 1184)).isSome = true) ∧
    ∃ s : State, ¬ OutOf (s.arg 0) (s.arg 1) ∧ ¬ OutOf (s.arg 2) (s.arg 3) ∧ ¬ OutOf (s.arg 4) (s.arg 1 - 1116) ∧ s.arg 3 = 2400 ∧
      1116 ≤ s.arg 1 ∧ (parseSk (s.readMem (s.arg 2) 2400)).isSome = true :=
  ⟨⟨pending State.reset 0x00000040 [0, 0, 0, 1184, 0, 0, 0xFBA4], by decide +kernel⟩,
    ⟨pending State.reset 0x00000041 [0, 1116, 0, 2400, 0x10000], by decide +kernel⟩⟩

/-- The signed BLOB_BUILD, seeded, where the block's signatures leave room for a blob in DMEM (else every signed build leaves it). -/
theorem witness_blob_build_signed (h : sigLen ≤ 64420) :
    ∃ s : State, ¬ OutOf (s.arg 0) (s.arg 1) ∧ ¬ OutOf (s.arg 2) (s.arg 3) ∧ ¬ OutOf (s.arg 4) (s.arg 5) ∧
      ¬ OutOf (s.arg 6) (1116 + s.arg 1 + sigLen) ∧ ¬ OutOf (s.arg 7) (44 + sigRndLen) ∧ s.arg 3 = 1184 ∧ s.arg 5 = sigSkLen ∧
      (parsePk (s.readMem (s.arg 2) 1184)).isSome = true := by
  have h3 : sigSkLen < 65536 := Config.params.sigSkLen.isLt
  have h5 : sigRndLen < 256 := Config.params.sigRndLen.isLt
  refine ⟨pending State.reset 0x18000040 [0, 0, 0, 1184, 0, BitVec.ofNat 32 sigSkLen], ?_⟩
  have a5 : (pending State.reset 0x18000040 [0, 0, 0, 1184, 0, BitVec.ofNat 32 sigSkLen]).arg 5 = sigSkLen := by
    show (BitVec.ofNat 32 sigSkLen).toNat = _
    rw [BitVec.toNat_ofNat]; omega
  have a3 : (pending State.reset 0x18000040 [0, 0, 0, 1184, 0, BitVec.ofNat 32 sigSkLen]).arg 3 = 1184 := rfl
  have a0 : ∀ j ∈ [(0 : Fin 8), 1, 2, 4, 6, 7],
      (pending State.reset 0x18000040 [0, 0, 0, 1184, 0, BitVec.ofNat 32 sigSkLen]).arg j = 0 := by
    intro j hj; fin_cases hj <;> rfl
  have p : (parsePk ((pending State.reset 0x18000040 [0, 0, 0, 1184, 0, BitVec.ofNat 32 sigSkLen]).readMem 0 1184)).isSome = true := by
    show (parsePk (Memory.readBytes [] 0 1184)).isSome = true
    decide +kernel
  simp only [OutOf, Config.dmemSize, a3, a5, a0 0 (by decide), a0 1 (by decide), a0 2 (by decide), a0 4 (by decide),
    a0 6 (by decide), a0 7 (by decide), p, and_true]
  omega

/-! ### Streams that never end -/

/-- The loop of R213 never ends on the stream of bytes 0xFF: every group holds 4095 twice. -/
theorem rejHangs_ones : RejHangs fun _ => 0xFF := by
  have h : ∀ fuel p, rejLoop (fun _ => (0xFF : Byte)) fuel p [] = none := by
    intro fuel
    induction fuel with
    | zero => intro p; rfl
    | succ n ih =>
      intro p
      have e : accept (groupHi (fun _ => (0xFF : Byte)) p) (accept (groupLo (fun _ => (0xFF : Byte)) p) []) = [] := by
        simp [groupHi, groupLo, accept, Config.q]
      rw [rejLoop, if_pos (by decide), e]
      exact ih (p + 3)
  exact fun fuel => h fuel 0

/-- Which streams the block's XOF yields is open, so the hung commands are shown under the premise that these streams hang: REJ_SAMPLE
at the edge of its region with a soft reset waiting, and KEM_ENCAPS with a public key of zeros. `rejHangs_ones` is a stream that
does. -/
theorem witness_HangLastsUntilReset (h : ∀ b : Bytes, RejHangs (Config.params.xofA b)) :
    (∃ (s : State) (i : Instr) (v : Word) (rest : List BusAction), Hangs s i ∧ s.port = .write 4 0x020 v :: rest ∧
      v.getLsbD 0 = true) ∧
    ∃ (s t : State) (i : Instr), Hangs s i ∧ step s = .next t ∧ ¬ s.ResetsNext :=
  ⟨⟨{ pending State.reset 0x00000721 [0xFFE0, 1, 2] with port := [.write 4 0x020 1] }, .rejSample 7, 1, [],
      ⟨rfl, by decide +kernel, by decide +kernel, rfl, _, List.mem_singleton_self _, h _⟩, rfl, by decide⟩,
    ⟨{ pending State.reset 0x08000031 [0, 1184, 0x800, 0x1000, 0x1000] with port := [.wait], delay := 1 }, _, .kemEncaps true,
      ⟨rfl, by decide +kernel, by decide +kernel, by decide +kernel, _, List.mem_cons_self, h _⟩, rfl, fun hr => by
        obtain ⟨-, v, rest, hp, -⟩ := hr
        cases hp⟩⟩

/-! ### A toy instance of the parameter functions

Every hash and stream yields zeros, so a key pair, a ciphertext and a blob can be worked out: it shows that the premises of the
statements that quantify over the parameter functions can be met together. -/

def toy : Config.Params where
  hashPk _ := Vector.replicate 32 0
  hashG _ := Vector.replicate 64 0
  xofA _ _ := 0
  noiseStream _ n := Vector.replicate n 0
  kdf _ := Vector.replicate 32 0
  aeadSeal _ _ _ pt := ⟨(pt ++ List.replicate 16 0).toArray, by simp⟩
  aeadOpen _ _ _ c := some ⟨(c.take (c.length - 16)).toArray, by simp⟩
  sigLen := 4
  sigVkLen := 2
  sigSkLen := 2
  sigSeedLen := 1
  sigRndLen := 0
  sigKeygen _ := (Vector.replicate _ 7, Vector.replicate _ 9)
  sigUsable _ := true
  sigSign _ _ _ := Vector.replicate _ 5
  sigVerify _ _ _ := true

def zero3 : List Elem := [elemZero, elemZero, elemZero]
theorem rejLoop_toy (x : Bytes) : rejLoop (toy.xofA x) 128 0 [] = some elemZero := by
  show rejLoop (fun _ => 0) 128 0 [] = some elemZero
  decide +kernel
theorem ntt_zero : ntt elemZero = elemZero := by decide +kernel
theorem intt_zero : intt elemZero = elemZero := by decide +kernel
theorem elemAdd_zero : elemAdd elemZero elemZero = elemZero := by decide +kernel
theorem elemMul_zero : elemMul elemZero elemZero = elemZero := by decide +kernel
theorem cbd_zero : cbd (zeros 128) = elemZero := by decide +kernel
theorem pack12_zero : pack12 elemZero = zeros 384 := by decide +kernel
theorem unpack12_zero : unpack12 (zeros 384) = some elemZero := by decide +kernel

theorem expandA_toy (rho : Bytes) : expandA toy 128 rho = some [zero3, zero3, zero3] := by
  simp only [expandA, rej, rejLoop_toy, Option.map_some, ntt_zero]
  rfl
theorem slice_zeros (a n m : Nat) (h : a + n ≤ m) : slice (zeros m) a n = zeros n := by
  simp [slice, zeros, List.take_replicate, List.drop_replicate]; omega
theorem cbdVec_toy (off m : Nat) (h : off + 384 ≤ m) : cbdVec (zeros m) off 3 = zero3 := by
  show [cbd (slice (zeros m) (off + 128 * 0) 128), cbd (slice (zeros m) (off + 128 * 1) 128), cbd (slice (zeros m) (off + 128 * 2) 128)] = _
  rw [slice_zeros _ _ _ (by omega), slice_zeros _ _ _ (by omega), slice_zeros _ _ _ (by omega), cbd_zero]
  rfl
theorem noise_toy (b : Bytes) (n : Nat) : (toy.noiseStream b n).toList = zeros n := by simp [toy, zeros]
theorem matVec_toy : vecAdd (matVec [zero3, zero3, zero3] (vecNtt zero3)) zero3 = zero3 := by
  have h : intt (dotNtt zero3 zero3) = elemZero := by
    simp only [dotNtt, zero3, List.zipWith_cons_cons, List.zipWith_nil_left, List.foldl_cons, List.foldl_nil, elemMul_zero, elemAdd_zero, intt_zero]
  have h2 : vecNtt zero3 = zero3 := by simp only [vecNtt, zero3, List.map_cons, List.map_nil, ntt_zero]
  rw [h2]
  simp only [matVec, List.map_cons, List.map_nil, h]
  simp only [vecAdd, zero3, List.zipWith_cons_cons, List.zipWith_nil_left, elemAdd_zero]

theorem zeros_length (n : Nat) : (zeros n).length = n := List.length_replicate
theorem zeros_append (a b : Nat) : zeros a ++ zeros b = zeros (a + b) := List.replicate_append_replicate
theorem packs : zero3.flatMap pack12 = zeros 1152 := by
  simp only [zero3, List.flatMap_cons, List.flatMap_nil, pack12_zero, List.append_nil, zeros_append]

def pk0 : Bytes := zeros 1184
def sk0 : Bytes := zeros 2400
theorem keygen_toy (d : Bytes) : keygenInternal toy 128 d (zeros 32) = some (pk0, sk0) := by
  have h2 : (toy.hashG d).toList = zeros 64 := by simp [toy, zeros]
  simp only [keygenInternal, keygenWork, KeygenWork.keys, expandA_toy, noise_toy, cbdVec_toy 0 768 (by omega), cbdVec_toy 384 768 (by omega), Option.map_some, matVec_toy, h2, slice_zeros 0 32 64 (by omega)]
  have h3 : pkBytes (zeros 32) zero3 = pk0 := by
    simp only [pkBytes, packs, zeros_append, pk0]
  have h4 : hashPk toy pk0 = zeros 32 := by simp [hashPk, toy, zeros]
  simp only [h3, skBytes, packs, h4]
  simp only [pk0, sk0, zeros_append]

theorem unpackVec_zeros (n off : Nat) (h : off + 1152 ≤ n) : unpackVec (zeros n) off = some zero3 := by
  show allSome [unpack12 (slice (zeros n) (off + 384 * 0) 384), unpack12 (slice (zeros n) (off + 384 * 1) 384),
    unpack12 (slice (zeros n) (off + 384 * 2) 384)] = _
  rw [slice_zeros _ _ _ (by omega), slice_zeros _ _ _ (by omega), slice_zeros _ _ _ (by omega), unpack12_zero]
  rfl
theorem parsePk_toy : parsePk pk0 = some ⟨zeros 32, zero3⟩ := by
  rw [parsePk, if_neg (show ¬ pk0.length ≠ Config.pkLen from not_not_intro (zeros_length 1184)), pk0, unpackVec_zeros _ _ (by omega), Option.map_some, slice_zeros _ _ _ (by omega)]
theorem parseSk_toy : parseSk sk0 = some ⟨zero3, ⟨zeros 32, zero3⟩, zeros 32, zeros 32⟩ := by
  rw [parseSk, if_neg (show ¬ sk0.length ≠ Config.skLen from not_not_intro (zeros_length 2400)), sk0, unpackVec_zeros _ _ (by omega), slice_zeros _ _ _ (by omega), ← pk0, parsePk_toy,
    slice_zeros _ _ _ (by omega), slice_zeros _ _ _ (by omega)]

def msg0 : Bytes := 0x01 :: 0x80 :: zeros 30
def mu0 : Elem := decompress msg0 1
def ct0 : Bytes := zeros 960 ++ compress mu0 4
theorem mu_add : elemAdd elemZero mu0 = mu0 := by decide +kernel
theorem compress_zero : compress elemZero 10 = zeros 320 := by decide +kernel
theorem encaps_toy (h : Bytes) : encapsInternal toy 128 ⟨zeros 32, zero3⟩ msg0 h = some (ct0, zeros 32) := by
  have h2 : vecNtt zero3 = zero3 := by simp only [vecNtt, zero3, List.map_cons, List.map_nil, ntt_zero]
  have h1 : dotNtt zero3 zero3 = elemZero := by
    simp only [dotNtt, zero3, List.zipWith_cons_cons, List.zipWith_nil_left, List.foldl_cons, List.foldl_nil, elemMul_zero, elemAdd_zero]
  have h3 : vecAdd (matTVec [zero3, zero3, zero3] zero3) zero3 = zero3 := by
    have : matTVec [zero3, zero3, zero3] zero3 = zero3 := by
      show [intt (dotNtt zero3 zero3), intt (dotNtt zero3 zero3), intt (dotNtt zero3 zero3)] = _
      rw [h1, intt_zero]; rfl
    rw [this]
    simp only [vecAdd, zero3, List.zipWith_cons_cons, List.zipWith_nil_left, elemAdd_zero]
  have h4 : ctBytes zero3 mu0 = ct0 := by
    simp only [ctBytes, zero3, List.flatMap_cons, List.flatMap_nil, compress_zero, List.append_nil, zeros_append, ct0]
  have h5 : ∀ b, kdf toy b = zeros 32 := fun b => by simp [kdf, toy, zeros]
  simp only [encapsInternal, encapsWork, EncapsWork.output, expandA_toy, noise_toy, cbdVec_toy 0 896 (by omega), cbdVec_toy 384 896 (by omega), Option.map_some, h2, h3,
    slice_zeros 768 128 896 (by omega), cbd_zero, dot, h1, intt_zero, elemAdd_zero]
  rw [show decompress msg0 1 = mu0 from rfl, mu_add, h4, h5]

theorem decode_toy (b : Bytes) : decodeMessage ⟨zero3, ⟨zeros 32, zero3⟩, zeros 32, zeros 32⟩ (ct0 ++ b) = msg0 := by
  have h1 : decompress (zeros 320) 10 = elemZero := by decide +kernel
  have h2 : vecNtt zero3 = zero3 := by simp only [vecNtt, zero3, List.map_cons, List.map_nil, ntt_zero]
  have h3 : dotNtt zero3 zero3 = elemZero := by
    simp only [dotNtt, zero3, List.zipWith_cons_cons, List.zipWith_nil_left, List.foldl_cons, List.foldl_nil, elemMul_zero, elemAdd_zero]
  have h4 : compress (elemSub (decompress (compress mu0 4) 4) elemZero) 1 = msg0 := by decide +kernel
  have hl : (compress mu0 4).length = 128 := by decide +kernel
  have h5 : ∀ j, j < 3 → slice (ct0 ++ b) (320 * j) 320 = zeros 320 := by
    intro j hj
    have : ct0 ++ b = zeros (320 * j) ++ (zeros 320 ++ (zeros (640 - 320 * j) ++ (compress mu0 4 ++ b))) := by
      simp only [ct0, ← List.append_assoc, zeros_append]
      congr 3; omega
    rw [this, slice, List.drop_left' (zeros_length _), List.take_left' (zeros_length _)]
  have h6 : slice (ct0 ++ b) 960 128 = compress mu0 4 := by
    rw [ct0, List.append_assoc, slice, List.drop_left' (zeros_length _), List.take_left' hl]
  have h7 : (List.range 3).map (fun j => decompress (slice (ct0 ++ b) (320 * j) 320) 10) = zero3 := by
    show [decompress _ _, decompress _ _, decompress _ _] = _
    rw [h5 0 (by omega), h5 1 (by omega), h5 2 (by omega), h1]; rfl
  simp only [decodeMessage, decodeWork, h6, h7, h2, dot, h3, intt_zero, h4]

/-- A secret key that parses, and one of the same length whose first value is q (V6.5g) or whose public key is not canonical; and a key
pair. -/
theorem witness_KeyParsing :
    (∃ (b : Bytes) (k : SecretKey), parseSk b = some k) ∧
    (∀ b ∈ [[0x01, 0x0d] ++ zeros 2398, zeros 1184 ++ [0xff, 0xff] ++ zeros 1214, zeros 2399], (parseSk b).isSome = false) ∧
    ∃ (P : Config.Params) (fuel : Nat) (d z pk sk : Bytes), z.length = 32 ∧ keygenInternal P fuel d z = some (pk, sk) :=
  ⟨⟨sk0, _, parseSk_toy⟩, by decide +kernel, toy, 128, [], zeros 32, pk0, sk0, zeros_length 32, keygen_toy []⟩

theorem hashPk_toy (b : Bytes) : hashPk toy b = zeros 32 := by simp [hashPk, toy, zeros]
def key0 : SecretKey := ⟨zero3, ⟨zeros 32, zero3⟩, zeros 32, zeros 32⟩
theorem ct0_length : ct0.length = 1088 := by
  rw [ct0, List.length_append, zeros_length, show (compress mu0 4).length = 128 by decide +kernel]
theorem decode_ct0 : decodeMessage key0 ct0 = msg0 := by
  have := decode_toy []
  rwa [List.append_nil] at this

theorem witness_ImplicitRejection : ∃ (P : Config.Params) (fuel : Nat) (sk : SecretKey) (ct ct' ss' : Bytes),
    ct.length = 1088 ∧ encapsInternal P fuel sk.pk (decodeMessage sk ct) sk.h = some (ct', ss') :=
  ⟨toy, 128, key0, ct0, ct0, zeros 32, ct0_length, by rw [decode_ct0]; exact encaps_toy _⟩

theorem witness_HonestDecapsulation :
    (∃ (P : Config.Params) (fuel : Nat) (b m h ct ss : Bytes) (k : PublicKey), parsePk b = some k ∧
      encapsInternal P fuel k m h = some (ct, ss)) ∧
    (∃ (b m ct : Bytes) (k : SecretKey), parseSk b = some k ∧ m.length = 32 ∧ decodeMessage k ct = m) ∧
    (∃ (b m ct : Bytes) (k : SecretKey), parseSk b = some k ∧ m.length = 32 ∧ decodeMessage k ct ≠ m) ∧
    ∃ (P : Config.Params) (fuel : Nat) (d z m pk sk ct ss : Bytes) (k : PublicKey) (v : SecretKey), z.length = 32 ∧
      keygenInternal P fuel d z = some (pk, sk) ∧ parsePk pk = some k ∧ parseSk sk = some v ∧
      encapsInternal P fuel k m (hashPk P pk) = some (ct, ss) ∧ decodeMessage v ct = m :=
  ⟨⟨toy, 128, pk0, msg0, [], ct0, zeros 32, ⟨zeros 32, zero3⟩, parsePk_toy, encaps_toy _⟩,
    ⟨sk0, msg0, ct0, key0, parseSk_toy, by decide, decode_ct0⟩,
    ⟨sk0, zeros 32, ct0, key0, parseSk_toy, by decide, by rw [decode_ct0]; decide⟩,
    toy, 128, [], zeros 32, msg0, pk0, sk0, ct0, zeros 32, ⟨zeros 32, zero3⟩, key0, zeros_length 32, keygen_toy [], parsePk_toy,
    parseSk_toy, encaps_toy _, decode_ct0⟩

theorem aeadCorrect_toy : AeadCorrect toy := by
  intro k n a p
  simp [toy]

theorem sigCorrect_toy : SigCorrect toy := fun _ _ _ => ⟨_, rfl, rfl⟩

theorem witness_BlobRoundTrip :
    ∃ (P : Config.Params) (fuel off : Nat) (d z m nonce seed report rnd pk sk blob payload : Bytes) (k : PublicKey) (v : SecretKey),
      AeadCorrect P ∧ SigCorrect P ∧ z.length = 32 ∧ nonce.length = 12 ∧
      keygenInternal P fuel d z = some (pk, sk) ∧ parsePk pk = some k ∧ parseSk sk = some v ∧
      slice report off P.sigVkLen.toNat = (P.sigKeygen seed).2.toList ∧ off + P.sigVkLen.toNat ≤ report.length ∧
      blobPayload P true (P.sigKeygen seed).1.toList report rnd = some payload ∧
      buildBlob P fuel k (hashPk P pk) m nonce payload = some blob ∧ decodeMessage v (blob.take 1088) = m := by
  refine ⟨toy, 128, 1, [], zeros 32, msg0, zeros 12, [], [3, 9, 9], [], pk0, sk0, _, [3, 9, 9, 5, 5, 5, 5], ⟨zeros 32, zero3⟩, key0,
    aeadCorrect_toy, sigCorrect_toy, zeros_length 32, zeros_length 12, keygen_toy [], parsePk_toy, parseSk_toy, rfl, by decide, rfl,
    by rw [buildBlob, encaps_toy]; rfl, ?_⟩
  show decodeMessage key0 ((ct0 ++ zeros 12 ++ _).take 1088) = msg0
  rw [List.append_assoc, List.take_left' ct0_length, decode_ct0]
end Sys2Proof.Tests
end

section
/-! SUPPORT. Whose turn it is and what one access of the host does (R82, R83, R86, R92), said once: the equations of a turn, and the
inversion of a step and of a write. -/

namespace Sys2Proof.Machine

/-! ## Legal accesses (R83) -/

theorem legalAccess_iff {bytes off : Nat} :
    LegalAccess bytes off ↔ off < Config.aperture ∧ legalAccess bytes off = true := by
  unfold LegalAccess legalAccess
  split <;> rename_i ho <;> simp [Config.windowBase, Config.aperture] at ho ⊢ <;> omega

theorem access_of_legal {bytes off : Nat} (h : LegalAccess bytes off) (t : State) : access bytes off t = .next t := by
  obtain ⟨ho, hl⟩ := legalAccess_iff.1 h
  rw [access, if_neg (Nat.not_le.2 ho), if_neg (by simp [hl])]

/-- An access that is answered is a legal one. -/
theorem access_eq_next {bytes off : Nat} {t u : State} (h : access bytes off t = .next u) : LegalAccess bytes off ∧ t = u := by
  unfold access at h
  split at h
  · cases h
  · split at h
    · cases h
    · rename_i ho hl
      exact ⟨legalAccess_iff.2 ⟨Nat.not_le.1 ho, by simpa using hl⟩, Host.Outcome.next.inj h⟩

/-- A legal access to the register area has 32 bits (R83). -/
theorem LegalAccess.bytes_eq {bytes off : Nat} (h : LegalAccess bytes off) (ho : off < 0x10000) : bytes = 4 := by
  unfold LegalAccess at h; omega

/-- A legal access to the window stays in DMEM (R83). -/
theorem LegalAccess.window_end {bytes off : Nat} (h : LegalAccess bytes off) (ho : 0x10000 ≤ off) :
    off - 0x10000 + bytes ≤ Config.dmemSize := by
  unfold LegalAccess at h
  simp only [Config.dmemSize]
  rcases h with h | ⟨-, h2, rfl | rfl | rfl, h4⟩ <;> omega

theorem LegalAccess.bytes_le {bytes off : Nat} (h : LegalAccess bytes off) : bytes ≤ 4 := by
  unfold LegalAccess at h; omega

/-! ## The register area -/

theorem argIndex_add (j : Fin 8) : argIndex (0x040 + 4 * j.val) = some j := by
  have hj := j.isLt
  rw [argIndex, dif_pos (by omega)]
  exact congrArg some (Fin.ext (by simp))

theorem argIndex_eq_none {off : Nat} (h : off < 0x040 ∨ 0x060 ≤ off) : argIndex off = none := by
  rw [argIndex, dif_neg (by omega)]

theorem argIndex_range {off : Nat} {j : Fin 8} (h : argIndex off = some j) : 0x040 ≤ off ∧ off < 0x060 := by
  unfold argIndex at h
  split at h
  · assumption
  · cases h

namespace State

variable (s : State)

theorem writeReg_ctrl (v : Word) : s.writeReg 0x020 v = s.writeCtrl v := rfl

theorem writeReg_cmd (v : Word) : s.writeReg 0x028 v = s.writeCmd v := rfl

theorem writeReg_arg {off : Nat} {j : Fin 8} (h : argIndex off = some j) (v : Word) : s.writeReg off v = s.writeArg j v := by
  have := argIndex_range h
  unfold writeReg
  split
  · omega
  · omega
  · rw [h]

theorem writeReg_ignored {off : Nat} (h1 : off ≠ 0x020) (h2 : off ≠ 0x028) (h : argIndex off = none) (v : Word) :
    s.writeReg off v = s := by
  unfold writeReg
  split
  · exact absurd rfl h1
  · exact absurd rfl h2
  · rw [h]

theorem readReg_arg {off : Nat} {j : Fin 8} (h : argIndex off = some j) : s.readReg off = s.args[j] := by
  have := argIndex_range h
  unfold readReg
  split
  iterate 10 · omega
  · rw [h]

/-- The reserved offsets of the register area read 0 (R37, R83). -/
theorem readReg_reserved {off : Nat} (h : off ∈ [0x018, 0x01C, 0x034, 0x038, 0x03C] ∨ 0x060 ≤ off) : s.readReg off = 0 := by
  have hn : argIndex off = none := argIndex_eq_none (by simp at h; omega)
  simp only [List.mem_cons, List.not_mem_nil, or_false] at h
  unfold readReg
  split
  iterate 10 · omega
  · rw [hn]

/-- STATUS as the concatenation of its fields (R47). -/
theorem status_eq_append : s.status = (0 : BitVec 18) ++ s.kst.bits ++ (0 : BitVec 2) ++ BitVec.ofBool s.shownHz ++
    BitVec.ofBool s.eq ++ s.err.bits ++ (0 : BitVec 2) ++ BitVec.ofBool s.done ++ BitVec.ofBool s.busy := by
  unfold status
  generalize s.kst.bits = k, s.err.bits = e, s.shownHz = hz, s.eq = eq, s.done = d, s.busy = b
  apply BitVec.eq_of_getLsbD_eq
  intro i hi
  simp only [BitVec.getLsbD_or, BitVec.getLsbD_shiftLeft, BitVec.getLsbD_setWidth, BitVec.getLsbD_append]
  interval_cases i <;> simp

/-- Bit 9 of STATUS is the HZ value shown (R47). -/
theorem status_hz : s.status.getLsbD 9 = s.shownHz := by
  rw [status_eq_append]
  simp only [BitVec.getLsbD_append]
  simp

/-- While BUSY the flag itself does not show in any register (R381). -/
theorem readReg_setHz_of_busy (h : s.busy = true) (b : Bool) (off : Nat) : (s.setHz b).readReg off = s.readReg off := by
  have hs : (s.setHz b).status = s.status := by simp [status, shownHz, h]
  unfold readReg
  rw [hs]
  rfl

/-- A read of DMEM while BUSY uses up free values (R381); else a read changes nothing but what the host has seen (R39). -/
theorem afterRead_eq (bytes off : Nat) : s.afterRead bytes off = { s with
    choices := if 0x10000 ≤ off ∧ s.busy = true then s.choices + bytes else s.choices
    seen := s.seen ++ [⟨bytes, off, s.busValue bytes off⟩] } := by
  unfold afterRead afterWindowRead
  by_cases ho : off < Config.windowBase
  · rw [if_pos ho, if_neg (by simp only [Config.windowBase] at ho; omega)]
  · have ho' : 0x10000 ≤ off := Nat.not_lt.1 ho
    rw [if_neg ho]
    cases hb : s.busy <;> simp [ho', hb]

end State

/-! ## What a write does -/

/-- What a legal write of the host can do to the block. -/
inductive WriteEffect (s : State) (bytes off : Nat) (v : Word) : State → Prop where
  | reset (ho : off = 0x020) (hv : v.getLsbD 0 = true) : WriteEffect s bytes off v s.softReset
  | clearHz (ho : off = 0x020) (h0 : v.getLsbD 0 = false) (hv : v.getLsbD 1 = true) : WriteEffect s bytes off v (s.setHz false)
  | accepted (ho : off = 0x028) (hb : s.busy = false) : WriteEffect s bytes off v (s.accept v)
  | arg (j : Fin 8) (ho : argIndex off = some j) (hb : s.busy = false) :
      WriteEffect s bytes off v { s with args := s.args.set j v }
  | stored (ho : 0x10000 ≤ off) (hb : s.busy = false) : WriteEffect s bytes off v (s.writeMem (off - 0x10000) (leBytes bytes v))
  | dropped (ho : off = 0x028 ∨ 0x040 ≤ off ∧ off < 0x060 ∨ 0x10000 ≤ off) (hb : s.busy = true) :
      WriteEffect s bytes off v (s.setHz true)
  | ignored : WriteEffect s bytes off v s

theorem State.writeReg_effect (s : State) (bytes off : Nat) (v : Word) : WriteEffect s bytes off v (s.writeReg off v) := by
  by_cases h1 : off = 0x020
  · subst h1
    rw [s.writeReg_ctrl, State.writeCtrl]
    split
    · exact .reset rfl ‹_›
    · split
      · exact .clearHz rfl (by simp_all) ‹_›
      · exact .ignored
  by_cases h2 : off = 0x028
  · subst h2
    rw [s.writeReg_cmd, State.writeCmd]
    split
    · exact .dropped (.inl rfl) ‹_›
    · exact .accepted rfl (by simp_all)
  cases hj : argIndex off with
  | none => rw [s.writeReg_ignored h1 h2 hj]; exact .ignored
  | some j =>
    rw [s.writeReg_arg hj, State.writeArg]
    split
    · exact .dropped (.inr (.inl (argIndex_range hj))) ‹_›
    · exact .arg j hj (by simp_all)

theorem State.afterWrite_effect (s : State) (bytes off : Nat) (v : Word) :
    WriteEffect s bytes off v (s.afterWrite bytes off v) := by
  unfold State.afterWrite
  split
  · exact s.writeReg_effect bytes off v
  · rename_i ho
    rw [State.writeWindow]
    split
    · exact .dropped (.inr (.inr (Nat.not_lt.1 ho))) ‹_›
    · exact .stored (Nat.not_lt.1 ho) (by simp_all)

/-- A write that R55 names is dropped while BUSY, and sets HZ. -/
theorem State.afterWrite_dropped (s : State) (bytes : Nat) {off : Nat} (v : Word) (hb : s.busy = true)
    (ho : off = 0x028 ∨ 0x040 ≤ off ∧ off < 0x060 ∨ 0x10000 ≤ off) : s.afterWrite bytes off v = s.setHz true := by
  rcases ho with rfl | ho | ho
  · show s.writeCmd v = _
    rw [State.writeCmd, if_pos hb]
  · have hj : argIndex off = some ⟨(off - 0x040) / 4, by omega⟩ := by rw [argIndex, dif_pos ho]
    rw [State.afterWrite, if_pos (show off < 0x10000 by omega), s.writeReg_arg hj, State.writeArg, if_pos hb]
  · rw [State.afterWrite, if_neg (Nat.not_lt.2 ho), State.writeWindow, if_pos hb]

/-! ## Turns -/

/-- `s` once the host has had its turn: `rest` still waits, and the engine is one turn nearer. -/
def State.taken (s : State) (rest : List BusAction) : State := { s with port := rest, delay := s.delay - 1 }

@[simp] theorem State.taken_busy (s : State) (rest : List BusAction) : (s.taken rest).busy = s.busy := rfl

/-- Where a command is pending and the engine goes next, a step is the engine's (R86, R92). -/
theorem step_engine {s : State} (hb : s.busy = true) (hp : s.port = [] ∨ s.delay = 0) : step s = engineTurn s := by
  have h : s.engineNext = true := by rcases hp with hp | hp <;> simp [State.engineNext, hb, hp]
  rw [step, if_pos h]

/-- Else a step is the host's (R92). -/
theorem step_host {s : State} (h : s.busy = false ∨ s.port ≠ [] ∧ s.delay ≠ 0) : step s = hostTurn s.hostPasses := by
  have hn : s.engineNext = false := by rcases h with h | ⟨h1, h2⟩ <;> simp [State.engineNext, *]
  rw [step, if_neg (by simp [hn])]

section
variable {s : State} {bytes off : Nat} {v : Word} {rest : List BusAction}

theorem hostTurn_read (hp : s.port = .read bytes off :: rest) :
    hostTurn s.hostPasses = access bytes off ((s.taken rest).afterRead bytes off) := by
  unfold hostTurn
  rw [State.hostPasses_port, hp]
  rfl

theorem hostTurn_write (hp : s.port = .write bytes off v :: rest) :
    hostTurn s.hostPasses = access bytes off ((s.taken rest).afterWrite bytes off v) := by
  unfold hostTurn
  rw [State.hostPasses_port, hp]
  rfl

/-- The host's turn with a legal read waiting. -/
theorem step_read (hp : s.port = .read bytes off :: rest) (ht : s.busy = false ∨ s.delay ≠ 0) (hl : LegalAccess bytes off) :
    step s = .next ((s.taken rest).afterRead bytes off) := by
  rw [step_host (ht.imp_right fun h => ⟨by simp [hp], h⟩), hostTurn_read hp, access_of_legal hl]

/-- The host's turn with a legal write waiting. -/
theorem step_write (hp : s.port = .write bytes off v :: rest) (ht : s.busy = false ∨ s.delay ≠ 0) (hl : LegalAccess bytes off) :
    step s = .next ((s.taken rest).afterWrite bytes off v) := by
  rw [step_host (ht.imp_right fun h => ⟨by simp [hp], h⟩), hostTurn_write hp, access_of_legal hl]

/-- A CMD write while idle is accepted (R48). -/
theorem step_accept {w : Word} (hp : s.port = .write 4 0x028 w :: rest) (hb : s.busy = false) :
    step s = .next ((s.taken rest).accept w) := by
  rw [step_write hp (.inl hb) (by simp [LegalAccess])]
  show Host.Outcome.next ((s.taken rest).writeCmd w) = _
  rw [State.writeCmd, if_neg (by simp [hb])]

/-- A write to CMD, ARG or DMEM while BUSY is dropped, and sets HZ (R55). -/
theorem step_dropped (hp : s.port = .write bytes off v :: rest) (hb : s.busy = true) (hd : s.delay ≠ 0) (hl : LegalAccess bytes off)
    (ho : off = 0x028 ∨ 0x040 ≤ off ∧ off < 0x060 ∨ 0x10000 ≤ off) : step s = .next ((s.taken rest).setHz true) := by
  rw [step_write hp (.inr hd) hl, State.afterWrite_dropped (s.taken rest) _ _ hb ho]

end

/-- What a step can be. An illegal word leaves what an error of any command leaves (R118), so that `engine` covers it. -/
inductive Turn (s : State) : State → Prop where
  | engine (i : Instr) (t : State) (hb : s.busy = true) (h : Leaves i s t) : Turn s t
  | passes : Turn s s.hostPasses
  | waited (rest : List BusAction) : Turn s (s.taken rest)
  | read (bytes off : Nat) (rest : List BusAction) : Turn s ((s.taken rest).afterRead bytes off)
  | write (bytes off : Nat) (v : Word) (rest : List BusAction) (u : State) (hp : s.port = .write bytes off v :: rest)
      (hl : LegalAccess bytes off) (h : WriteEffect (s.taken rest) bytes off v u) : Turn s u

theorem turn_of_hostTurn {s t : State} (h : hostTurn s.hostPasses = .next t) : Turn s t := by
  match hp : s.port with
  | [] =>
    rw [hostTurn, State.hostPasses_port, hp] at h
    cases h; exact .passes
  | .read bytes off :: rest =>
    rw [hostTurn_read hp] at h
    obtain ⟨-, rfl⟩ := access_eq_next h
    exact .read bytes off rest
  | .write bytes off v :: rest =>
    rw [hostTurn_write hp] at h
    obtain ⟨hl, rfl⟩ := access_eq_next h
    exact .write bytes off v rest _ hp hl (State.afterWrite_effect ..)
  | .wait :: rest =>
    rw [hostTurn, State.hostPasses_port, hp] at h
    cases h
    show Turn s (if s.busy = true then s.hostPasses else s.taken rest)
    split
    · exact .passes
    · exact .waited rest

/-- The one inversion lemma of `step`. -/
theorem turn_of_step {s t : State} (h : step s = .next t) : Turn s t := by
  unfold step at h
  split at h
  · rename_i he
    have hb : s.busy = true := (Bool.and_eq_true_iff.1 he).1
    unfold engineTurn at h
    split at h
    · rename_i i _
      obtain ⟨u, hu, hl⟩ := exec_leaves i s
      rw [hu] at h
      cases h; exact .engine i t hb hl
    · cases h; exact .engine .nop _ hb (.raise .illegal)
  · exact turn_of_hostTurn h

end Sys2Proof.Machine
end

section
/-! SUPPORT. The invariant: it holds at reset, and every step keeps it (R32, R49, R53, R57, R58). -/

namespace Sys2Proof.Machine

/-! ## Reset -/

@[simp] theorem Poly.elem_zero : Poly.zero.elem = List.replicate 256 0 := by
  simp only [Poly.elem, Poly.zero, List.map_replicate]
  rfl

@[simp] theorem State.reset_get (r : PReg) : State.reset.pr.get r = PolyReg.cleared := RegFile.get_cleared r

@[simp] theorem State.reset_coeff (r : PReg) (i : Nat) : State.reset.coeff r i = 0 := by
  simp only [State.coeff, State.elem, State.reset_get, PolyReg.cleared, Poly.elem_zero, List.getD_eq_getElem?_getD,
    List.getElem?_replicate]
  split <;> rfl

/-- Settles O14: each value is read off the reset state. -/
theorem resetValues : Obligations.ResetValues := by
  refine ⟨fun r => ⟨?_, fun i _ => State.reset_coeff r i⟩, fun a => rfl, rfl, rfl, fun j => ?_, rfl, rfl, rfl, rfl, rfl, rfl, rfl,
    rfl, rfl, rfl, rfl⟩
  · rw [State.tag, State.reset_get]; rfl
  · simp [State.reset]

/-- Settles O15: every register is cleared, and nothing is pending. -/
theorem invariantAtReset : Obligations.InvariantAtReset where
  mem := Memory.wf_nil
  regs r := by rw [State.reset_get]; exact Within.regOk_cleared
  busyDone h := Bool.false_ne_true h.1
  scratchZero _ := rfl
  latched h := absurd h Bool.false_ne_true
  pendingZero h := absurd h Bool.false_ne_true
  errorZero _ h := absurd rfl h

/-! ## Steps -/

namespace State.Inv

variable {s : State}

/-- The invariant says nothing of the host's side and of the free values' indices. -/
theorem taken (h : s.Inv) (rest : List BusAction) : (s.taken rest).Inv :=
  ⟨h.mem, h.regs, h.busyDone, h.scratchZero, h.latched, h.pendingZero, h.errorZero⟩

theorem hostPasses (h : s.Inv) : s.hostPasses.Inv := h.taken s.port

theorem afterRead (h : s.Inv) (bytes off : Nat) : (s.afterRead bytes off).Inv := by
  rw [State.afterRead_eq]
  exact ⟨h.mem, h.regs, h.busyDone, h.scratchZero, h.latched, h.pendingZero, h.errorZero⟩

theorem setHz (h : s.Inv) (b : Bool) : (s.setHz b).Inv :=
  ⟨h.mem, h.regs, h.busyDone, h.scratchZero, h.latched, h.pendingZero, h.errorZero⟩

theorem softReset (s : State) : s.softReset.Inv :=
  have h := invariantAtReset
  ⟨h.mem, h.regs, h.busyDone, h.scratchZero, h.latched, h.pendingZero, h.errorZero⟩

/-- An acceptance latches the arguments and clears DONE and the results (R48, R57). -/
theorem accept (h : s.Inv) (w : Word) : (s.accept w).Inv :=
  ⟨h.mem, h.regs, fun hbd => Bool.false_ne_true hbd.2, fun hb => absurd hb.symm Bool.false_ne_true, fun _ => rfl,
    fun _ => ⟨rfl, rfl, rfl⟩, fun hb => absurd hb.symm Bool.false_ne_true⟩

/-- An ARG write taken while idle (R51). -/
theorem setArg (h : s.Inv) (hb : s.busy = false) (j : Fin 8) (v : Word) : State.Inv { s with args := s.args.set j v } :=
  ⟨h.mem, h.regs, h.busyDone, h.scratchZero, fun hb' => absurd (hb.symm.trans hb') Bool.false_ne_true, h.pendingZero, h.errorZero⟩

theorem writeMem (h : s.Inv) {a : Nat} {b : Bytes} (hb : a + b.length ≤ Config.dmemSize) : (s.writeMem a b).Inv :=
  ⟨Memory.write_wf h.mem hb, h.regs, h.busyDone, h.scratchZero, h.latched, h.pendingZero, h.errorZero⟩

/-- A write keeps the invariant. -/
theorem writeEffect (h : s.Inv) {bytes off : Nat} {v : Word} {t : State} (hl : LegalAccess bytes off)
    (hw : WriteEffect s bytes off v t) : t.Inv := by
  cases hw with
  | reset => exact softReset s
  | clearHz => exact h.setHz false
  | accepted => exact h.accept v
  | arg j _ hb => exact h.setArg hb j v
  | stored ho => exact h.writeMem (by rw [leBytes_length]; exact hl.window_end ho)
  | dropped => exact h.setHz true
  | ignored => exact h

/-- What a pending command leaves keeps the invariant: on an error EQ and the results are as they were while it was pending, that is
0 (R49, R342). -/
theorem leaves (h : s.Inv) (hb : s.busy = true) {i : Instr} {t : State} (hl : Leaves i s t) : t.Inv := by
  cases hl with
  | waits w =>
    exact ⟨h.mem, h.regs, h.busyDone, fun hb' => absurd (hb'.symm.trans hb) Bool.false_ne_true, h.latched, h.pendingZero,
      h.errorZero⟩
  | ends u c hu he =>
    refine ⟨hu.mem h.mem, fun r => hu.regs r (h.regs r), fun hbd => Bool.false_ne_true hbd.1, fun _ => rfl,
      fun hb' => absurd hb' Bool.false_ne_true, fun hb' => absurd hb' Bool.false_ne_true, fun _ hc => ?_⟩
    obtain ⟨heq, -, h0, h1⟩ := (he hc).flags
    obtain ⟨peq, p0, p1⟩ := h.pendingZero hb
    exact ⟨heq.trans peq, h0.trans p0, h1.trans p1⟩

end State.Inv

/-- Settles O16: the invariant through each turn of the machine. -/
theorem invariantKept : Obligations.InvariantKept := by
  intro s t h hstep
  cases turn_of_step hstep with
  | engine i _ hb hl => exact h.leaves hb hl
  | passes => exact h.hostPasses
  | waited rest => exact h.taken rest
  | read bytes off rest => exact (h.taken rest).afterRead bytes off
  | write bytes off v rest _ _ hl hw => exact (h.taken rest).writeEffect hl hw

end Sys2Proof.Machine
end

section
/-! SUPPORT. The statements about the step and the host's port (R37 to R55, R82, R92). -/

namespace Sys2Proof.Machine

/-! ## Little-endian bytes (R81, R82) -/

theorem leBytes_getD {w : Nat} (v : BitVec w) : ∀ (n j : Nat), j < n → (leBytes n v).getD j 0 = v.extractLsb' (8 * j) 8
  | n + 1, 0, _ => by
    apply BitVec.eq_of_getLsbD_eq
    intro i hi
    simp [leBytes, hi]
  | n + 1, j + 1, h => by
    rw [leBytes, List.getD_cons_succ, leBytes_getD (v >>> 8) n j (by omega)]
    apply BitVec.eq_of_getLsbD_eq
    intro i hi
    simp only [BitVec.getLsbD_extractLsb', BitVec.getLsbD_ushiftRight]
    congr 2
    omega

theorem leNat_lt : ∀ b : Bytes, leNat b < 256 ^ b.length
  | [] => Nat.one_pos
  | x :: b => by
    have ih := leNat_lt b
    have hx := x.isLt
    rw [leNat, List.length_cons, Nat.pow_succ]
    omega

/-- The number a byte string stands for is the sum of its bytes by their weights (R81). -/
theorem leNat_map_range (f : Nat → Byte) (n : Nat) :
    leNat ((List.range n).map f) = ((List.range n).map fun j => (f j).toNat * 256 ^ j).sum := by
  induction n generalizing f with
  | zero => rfl
  | succ n ih =>
    have h : ∀ l : List Nat, (l.map fun j => (f (j + 1)).toNat * 256 ^ (j + 1)).sum =
        256 * (l.map fun j => (f (j + 1)).toNat * 256 ^ j).sum := fun l => by
      rw [← List.sum_map_mul_left]
      congr 1
      refine List.map_congr_left fun j _ => ?_
      ring
    simp [List.range_succ_eq_map, leNat, Function.comp_def, ih (fun j => f (j + 1)), h]

/-- At most four bytes fit a host read (R82). -/
theorem toNat_ofNat_leNat {b : Bytes} (h : b.length ≤ 4) : (BitVec.ofNat 32 (leNat b)).toNat = leNat b := by
  have h1 := leNat_lt b
  have h2 : 256 ^ b.length ≤ 256 ^ 4 := Nat.pow_le_pow_right (by omega) h
  rw [BitVec.toNat_ofNat, Nat.mod_eq_of_lt (by omega)]

/-! ## The step and the registers -/

/-- Settles O5: the two cases of whose turn it is. -/
theorem stepRunsThePendingCommand : Obligations.StepRunsThePendingCommand :=
  ⟨fun s i hb hp hi => by rw [step_engine hb hp, engineTurn, State.command, hi], fun _ h => step_host h⟩

/-- Settles O17: a CMD write by BUSY. -/
theorem commandAcceptance : Obligations.CommandAcceptance := by
  refine ⟨fun s w rest hp hb => ?_, fun s w rest hp hb hd => ?_, fun s => rfl⟩
  · exact ⟨_, step_accept hp hb, rfl, rfl, rfl, rfl, rfl, rfl, rfl, rfl, rfl, rfl, rfl, rfl, rfl, rfl, rfl, rfl, rfl, rfl⟩
  · exact step_dropped hp hb hd (by simp [LegalAccess]) (.inl rfl)

/-- Settles O19: a CTRL write is taken by its lowest two bits. -/
theorem controlWrites : Obligations.ControlWrites := by
  intro s v rest hp ht
  rw [step_write hp ht (by simp [LegalAccess])]
  show Host.Outcome.next ((s.taken rest).writeCtrl v) = _
  rw [State.writeCtrl]
  cases v.getLsbD 0
  · cases h1 : v.getLsbD 1
    · simp [State.taken]
    · simp [State.taken, State.setHz]
  · rfl

/-- Settles O20: the registers by their offsets, and a read's one effect. -/
theorem registerMap : Obligations.RegisterMap := by
  refine ⟨fun s => ⟨rfl, rfl, rfl, rfl, rfl, rfl, rfl, rfl, rfl, rfl, fun j => ?_, ?_⟩, fun s off ho => s.readReg_reserved ho, ?_⟩
  · exact s.readReg_arg (argIndex_add j)
  · exact s.status_eq_append
  · intro s off rest hp ho h4 ht
    have hl : LegalAccess 4 off := .inl ⟨ho, rfl, h4⟩
    have hv : (s.taken rest).busValue 4 off = s.readReg off := by rw [State.busValue, if_pos ho]; rfl
    rw [step_read hp ht hl, State.afterRead_eq, hv, if_neg (by omega)]
    rfl

/-- Settles O21: by what stands at the offset. -/
theorem registerWrites : Obligations.RegisterWrites := by
  refine ⟨fun s j v rest hp hb => ?_, fun s off v rest hp ho h4 h1 h2 ha ht => ?_⟩
  · have hj := j.isLt
    have hl : LegalAccess 4 (0x040 + 4 * j.val) := .inl ⟨by omega, rfl, by omega⟩
    rw [step_write hp (.inl hb) hl, State.afterWrite, if_pos (show _ < 0x10000 by omega), State.writeReg_arg _ (argIndex_add j),
      State.writeArg, if_neg (by simp [hb])]
    rfl
  · rw [step_write hp ht (.inl ⟨ho, rfl, h4⟩), State.afterWrite, if_pos ho, State.writeReg_ignored _ h1 h2 (argIndex_eq_none ha)]
    rfl

/-! ## HZ -/

/-- HZ is set by a write that is dropped only (R55). -/
theorem WriteEffect.hz_set {s t : State} {bytes off : Nat} {v : Word} (h : WriteEffect s bytes off v t) (hs : s.hz = false)
    (ht : t.hz = true) : s.busy = true ∧ (off = 0x028 ∨ 0x040 ≤ off ∧ off < 0x060 ∨ 0x10000 ≤ off) := by
  cases h with
  | dropped ho hb => exact ⟨hb, ho⟩
  | reset | clearHz => exact absurd ht Bool.false_ne_true
  | accepted | arg | stored | ignored => exact absurd (hs.symm.trans ht) Bool.false_ne_true

/-- HZ is cleared by a write to CTRL only (R55). -/
theorem WriteEffect.hz_cleared {s t : State} {bytes off : Nat} {v : Word} (h : WriteEffect s bytes off v t) (hs : s.hz = true)
    (ht : t.hz = false) : off = 0x020 ∧ (v.getLsbD 0 = true ∨ v.getLsbD 1 = true) := by
  cases h with
  | reset ho hv => exact ⟨ho, .inl hv⟩
  | clearHz ho _ hv => exact ⟨ho, .inr hv⟩
  | dropped => exact absurd ht.symm Bool.false_ne_true
  | accepted | arg | stored | ignored => exact absurd (ht.symm.trans hs) Bool.false_ne_true

/-- A write taken while a command is pending shows in no register read while it still is (R381). -/
theorem WriteEffect.readReg_busy {s t : State} {bytes off : Nat} {v : Word} (h : WriteEffect s bytes off v t) (hs : s.busy = true)
    (ht : t.busy = true) (x : Nat) : t.readReg x = s.readReg x := by
  cases h with
  | reset => exact absurd ht Bool.false_ne_true
  | clearHz | dropped => exact s.readReg_setHz_of_busy hs _ x
  | accepted _ hb | arg _ _ hb | stored _ hb => exact absurd (hb.symm.trans hs) Bool.false_ne_true
  | ignored => rfl

theorem Leaves.kept {i : Instr} {s t : State} (h : Leaves i s t) : Kept s t := by
  cases h with
  | waits => exact ⟨rfl, rfl, rfl, rfl, rfl, rfl, rfl⟩
  | ends u c hu _ => exact (hu.ended c).kept

/-- Only a write changes HZ. -/
theorem Turn.hz_changed {s t : State} (h : Turn s t) (hz : t.hz ≠ s.hz) : ∃ bytes off v rest,
    s.port = .write bytes off v :: rest ∧ LegalAccess bytes off ∧ WriteEffect (s.taken rest) bytes off v t := by
  cases h with
  | engine i _ _ hl => exact absurd hl.kept.hz hz
  | passes => exact absurd rfl hz
  | waited => exact absurd rfl hz
  | read => rw [State.afterRead_eq] at hz; exact absurd rfl hz
  | write bytes off v rest _ hp hl hw => exact ⟨bytes, off, v, rest, hp, hl, hw⟩

/-- What every register reads stays as it was through a step after which the command is still pending (R381). -/
theorem Turn.readReg_busy {s t : State} (h : Turn s t) (hs : s.busy = true) (ht : t.busy = true) (off : Nat) :
    t.readReg off = s.readReg off := by
  cases h with
  | engine i _ _ hl =>
    cases hl with
    | waits => rfl
    | ends => exact absurd ht Bool.false_ne_true
  | passes => rfl
  | waited => rfl
  | read => rw [State.afterRead_eq]; rfl
  | write _ _ _ rest _ _ _ hw => exact hw.readReg_busy (s := s.taken rest) hs ht off

/-- Settles O18: by the turn a step is, and by what a write does. -/
theorem hazardFlag : Obligations.HazardFlag := by
  refine ⟨fun s bytes off v rest hp hb hd hl ho => ?_, fun s t h hs ht => ?_, fun s t h hs ht => ?_, fun s w rest hp hb => ?_,
    fun s t h hs ht off => (turn_of_step h).readReg_busy hs ht off, fun s t i _ h ht => ?_⟩
  · exact step_dropped hp hb hd hl ho
  · obtain ⟨bytes, off, v, rest, hp, hl, hw⟩ := (turn_of_step h).hz_changed (by simp [hs, ht])
    obtain ⟨hb, ho⟩ := hw.hz_set hs ht
    exact ⟨hb, bytes, off, v, rest, hp, hl, ho⟩
  · obtain ⟨bytes, off, v, rest, hp, hl, hw⟩ := (turn_of_step h).hz_changed (by simp [hs, ht])
    obtain ⟨rfl, hv⟩ := hw.hz_cleared hs ht
    obtain rfl := hl.bytes_eq (by omega)
    exact ⟨v, rest, hp, hv⟩
  · exact ⟨_, step_accept hp hb, rfl, rfl, rfl, rfl, State.status_eq_append _⟩
  · obtain ⟨u, hu, hl⟩ := exec_leaves i s
    obtain rfl := Host.Outcome.next.inj (hu.symm.trans h)
    show u.status.getLsbD 9 = true ↔ _
    rw [State.status_hz, State.shownHz, if_neg (by simp [ht]), hl.kept.hz]

/-! ## The DMEM window -/

/-- Settles O22: a window access by BUSY. -/
theorem dmemWindow : Obligations.DmemWindow := by
  refine ⟨fun s bytes a v rest hp hb hl => ?_, fun s bytes a rest hp hb hl => ?_, fun s bytes a rest hp hb hd hl => ?_⟩
  · refine ⟨Memory.write s.dmem a (leBytes bytes v), ?_, fun j hj => ?_, fun x hx => ?_⟩
    · rw [step_write hp (.inl hb) hl, State.afterWrite, if_neg (Nat.not_lt.2 (Nat.le_add_right _ _)), Nat.add_sub_cancel_left,
        State.writeWindow, if_neg (by simp [hb])]
      rfl
    · rw [Memory.read_write, if_pos (by simpa using hj), Nat.add_sub_cancel_left, leBytes_getD v bytes j hj]
    · rw [Memory.read_write, if_neg (by rw [leBytes_length]; omega)]; rfl
  · refine ⟨BitVec.ofNat 32 (leNat (s.readMem a bytes)), ?_, ?_⟩
    · rw [toNat_ofNat_leNat (by simpa using hl.bytes_le)]
      exact leNat_map_range _ bytes
    · have hv : (s.taken rest).busValue bytes (0x10000 + a) = BitVec.ofNat 32 (leNat (s.readMem a bytes)) := by
        rw [State.busValue, if_neg (Nat.not_lt.2 (Nat.le_add_right _ _)), Nat.add_sub_cancel_left, State.readWindow,
          if_neg (by simp [hb])]
        rfl
      rw [step_read hp (.inl hb) hl, State.afterRead_eq, hv, if_neg (by simp [hb])]
      rfl
  · refine ⟨(s.taken rest).busValue bytes (0x10000 + a), s.choices + bytes, ?_, ?_⟩
    · rw [State.busValue, if_neg (Nat.not_lt.2 (Nat.le_add_right _ _)), State.readWindow, if_pos (by simp [hb])]
      refine lt_of_eq_of_lt (toNat_ofNat_leNat (by simpa using hl.bytes_le)) ?_
      simpa using leNat_lt ((List.range bytes).map fun i => Config.busyByte ((s.taken rest).choices + i))
    · rw [step_read hp (.inr hd) hl, State.afterRead_eq, if_pos ⟨Nat.le_add_right _ _, hb⟩]
      rfl

end Sys2Proof.Machine
end

section
/-! SUPPORT. What a command does not read and does not write, said once (R33, R51, R57, R60, R114): a change of the state that no
operation of a command sees goes through the command unchanged. -/

namespace Sys2Proof.Machine

/-- The change `L` of a state is seen by no operation on DMEM, the flags, the results, scratch and the end of a command. -/
structure Unseen (L : State → State) : Prop where
  arg : ∀ s j, (L s).arg j = s.arg j
  readMem : ∀ s a n, (L s).readMem a n = s.readMem a n
  groups : ∀ s, (L s).groups = s.groups
  writeMem : ∀ s a b, (L s).writeMem a b = L (s.writeMem a b)
  holding : ∀ s w, (L s).holding w = L (s.holding w)
  setEq : ∀ s b, (L s).setEq b = L (s.setEq b)
  setKst : ∀ s k, (L s).setKst k = L (s.setKst k)
  setResult0 : ∀ s v, (L s).setResult0 v = L (s.setResult0 v)
  setResult1 : ∀ s v, (L s).setResult1 v = L (s.setResult1 v)
  complete : ∀ s c, (L s).complete c = L (s.complete c)
  keepSampling : ∀ s w, (L s).keepSampling w = L (s.keepSampling w)

/-- No operation on the polynomial registers sees it. -/
structure UnseenByRegs (L : State → State) : Prop where
  pr : ∀ s, (L s).pr = s.pr
  setReg : ∀ s r f t, (L s).setReg r f t = L (s.setReg r f t)
  clearReg : ∀ s r, (L s).clearReg r = L (s.clearReg r)
  wipe : ∀ s, (L s).wipe = L s.wipe

/-- No draw sees it. -/
structure UnseenByDraws (L : State → State) : Prop where
  drawBytes : ∀ s n, (L s).drawBytes n = s.drawBytes n
  afterDraw : ∀ s n, (L s).afterDraw n = L (s.afterDraw n)

section
variable {L : State → State}

namespace Unseen

theorem checked (h : Unseen L) (s : State) (cs : List (Bool × Code)) (t : State) :
    (L s).checked cs (L t) = L (s.checked cs t) := by
  unfold State.checked
  cases firstError cs with
  | none => rfl
  | some c => exact h.complete s c

theorem sampled (h : Unseen L) {α : Type} (s : State) (held : Scratch) (r : Option α) (t : α → State) :
    sampled (L s) held r (fun a => L (t a)) = L (sampled s held r t) := by
  cases r with
  | none => exact h.keepSampling s held
  | some a => rfl

theorem clearKey (h : Unseen L) (s : State) (a n : Nat) : (L s).clearKey a n = L (s.clearKey a n) := h.writeMem s a _

theorem randomBytes (h : Unseen L) {seeded : Bool} (hd : seeded = false → UnseenByDraws L) (s : State) (a n : Nat) :
    (L s).randomBytes seeded a n = s.randomBytes seeded a n := by
  cases seeded
  · exact (hd rfl).drawBytes s n
  · exact h.readMem s a n

theorem blobRandom (h : Unseen L) {seeded : Bool} (hd : seeded = false → UnseenByDraws L) (s : State) (signed : Bool) :
    (L s).blobRandom seeded signed = s.blobRandom seeded signed := by
  simp only [State.blobRandom, h.randomBytes hd, h.arg]

end Unseen

theorem afterRandom_unseen {seeded : Bool} (hd : seeded = false → UnseenByDraws L) (s : State) (n : Nat) :
    (L s).afterRandom seeded n = L (s.afterRandom seeded n) := by
  cases seeded
  · exact (hd rfl).afterDraw s n
  · rfl

namespace UnseenByRegs

variable (h : UnseenByRegs L)
include h

theorem tag (s : State) (r : PReg) : (L s).tag r = s.tag r := by rw [State.tag, h.pr]; rfl

theorem elem (s : State) (r : PReg) : (L s).elem r = s.elem r := by rw [State.elem, h.pr]; rfl

theorem chkWritten (s : State) (r : PReg) : chkWritten (L s) r = chkWritten s r := by
  rw [Machine.chkWritten, h.tag]; rfl

theorem chkTag (s : State) (r : PReg) (t : Tag) : chkTag (L s) r t = chkTag s r t := by rw [Machine.chkTag, h.tag]; rfl

theorem chkSameTag (s : State) (a b : PReg) : chkSameTag (L s) a b = chkSameTag s a b := by
  rw [Machine.chkSameTag, h.tag, h.tag]; rfl

theorem polyEqual (s : State) (a b : PReg) : polyEqual (L s) a b = polyEqual s a b := by rw [Machine.polyEqual, h.pr]; rfl

end UnseenByRegs

/-! ## The commands on the polynomial registers -/

theorem exec_unseen_regs (h : Unseen L) (hr : UnseenByRegs L) {i : Instr} (hi : usesScratchOnly i = false) (s : State) :
    ∃ t, exec i s = .next t ∧ exec i (L s) = .next (L t) := by
  cases i with
  | nop => exact ⟨_, rfl, by simp only [exec, execNop, guarded_eq, h.complete, h.checked]⟩
  | polyLoad rd imm4 =>
    exact ⟨_, rfl, by simp only [exec, execPolyLoad, guarded_eq, h.arg, h.readMem, hr.setReg, h.complete, h.checked]⟩
  | polyStore rs1 =>
    exact ⟨_, rfl, by simp only [exec, execPolyStore, guarded_eq, hr.chkWritten, hr.elem, h.arg, h.writeMem, h.complete, h.checked]⟩
  | polyReduce rd rs1 =>
    exact ⟨_, rfl, by simp only [exec, execPolyReduce, guarded_eq, hr.chkWritten, hr.elem, hr.tag, hr.setReg, h.complete, h.checked]⟩
  | polyAdd rd rs1 rs2 =>
    exact ⟨_, rfl, by simp only [exec, execPolyAdd, guarded_eq, hr.chkWritten, hr.chkSameTag, hr.elem, hr.tag, hr.setReg, h.complete,
      h.checked]⟩
  | polySub rd rs1 rs2 =>
    exact ⟨_, rfl, by simp only [exec, execPolySub, guarded_eq, hr.chkWritten, hr.chkSameTag, hr.elem, hr.tag, hr.setReg, h.complete,
      h.checked]⟩
  | polyEq rs1 rs2 =>
    exact ⟨_, rfl, by simp only [exec, execPolyEq, guarded_eq, hr.chkWritten, hr.chkSameTag, hr.polyEqual, h.setEq, h.setResult0,
      h.complete, h.checked]⟩
  | polyClear rd => exact ⟨_, rfl, by simp only [exec, execPolyClear, guarded_eq, hr.clearReg, h.complete, h.checked]⟩
  | zeroize => exact ⟨_, rfl, by simp only [exec, execZeroize, guarded_eq, hr.wipe, h.setKst, h.complete, h.checked]⟩
  | nttFwd rd rs1 =>
    exact ⟨_, rfl, by simp only [exec, execNttFwd, guarded_eq, hr.chkWritten, hr.chkTag, hr.elem, hr.setReg, h.complete, h.checked]⟩
  | nttInv rd rs1 =>
    exact ⟨_, rfl, by simp only [exec, execNttInv, guarded_eq, hr.chkWritten, hr.chkTag, hr.elem, hr.setReg, h.complete, h.checked]⟩
  | pmul rd rs1 rs2 =>
    exact ⟨_, rfl, by simp only [exec, execPmul, guarded_eq, hr.chkWritten, hr.chkTag, hr.elem, hr.setReg, h.complete, h.checked]⟩
  | cbdSample rd =>
    exact ⟨_, rfl, by simp only [exec, execCbdSample, guarded_eq, h.arg, h.readMem, hr.setReg, h.complete, h.checked]⟩
  | rejSample rd =>
    exact ⟨_, rfl, by simp only [exec, execRejSample, guarded_eq, h.arg, h.readMem, h.groups, hr.setReg, h.complete, h.sampled,
      h.checked]⟩
  | polyCompress rs1 imm4 =>
    exact ⟨_, rfl, by simp only [exec, execPolyCompress, guarded_eq, hr.chkWritten, hr.chkTag, hr.elem, h.arg, h.writeMem, h.complete,
      h.checked]⟩
  | polyDecompress rd imm4 =>
    exact ⟨_, rfl, by simp only [exec, execPolyDecompress, guarded_eq, h.arg, h.readMem, hr.setReg, h.complete, h.checked]⟩
  | polyPack12 rs1 =>
    exact ⟨_, rfl, by simp only [exec, execPolyPack12, guarded_eq, hr.chkWritten, hr.elem, h.arg, h.writeMem, h.complete, h.checked]⟩
  | polyUnpack12 rd imm4 =>
    refine ⟨_, rfl, ?_⟩
    simp only [exec, execPolyUnpack12, guarded_eq, h.arg, h.readMem]
    cases unpack12 (s.readMem (s.arg 0) 384) <;> simp only [hr.setReg, h.complete, h.checked]
  | kemKeygen | kemEncaps | kemDecaps | sigKeygen | sigSign | sigVerify | blobBuild | blobOpen => exact absurd hi.symm Bool.false_ne_true

/-! ## The KEM, signature and blob commands -/

theorem exec_unseen_bytes (h : Unseen L) {i : Instr} (hd : draws i = true → UnseenByDraws L) (hi : usesScratchOnly i = true)
    (s : State) : ∃ t, exec i s = .next t ∧ exec i (L s) = .next (L t) := by
  have hd' : ∀ {seeded : Bool}, draws i = !seeded → seeded = false → UnseenByDraws L := fun he hs => hd (by simp [he, hs])
  cases i with
  | kemKeygen seeded =>
    refine ⟨_, execKemKeygen_eq seeded s, ?_⟩
    simp only [exec, execKemKeygen_eq, guarded_eq, h.arg, h.groups, h.randomBytes (hd' rfl), afterRandom_unseen (hd' rfl), h.writeMem,
      h.setKst, h.complete, h.sampled, h.checked]
  | kemEncaps seeded =>
    refine ⟨_, execKemEncaps_eq seeded s, ?_⟩
    simp only [exec, execKemEncaps_eq, guarded_eq, h.arg, h.readMem, h.groups]
    cases parsePk (s.readMem (s.arg 0) Config.pkLen) <;>
      simp only [h.randomBytes (hd' rfl), afterRandom_unseen (hd' rfl), h.writeMem, h.setKst, h.complete, h.sampled, h.checked]
  | kemDecaps =>
    refine ⟨_, execKemDecaps_eq s, ?_⟩
    simp only [exec, execKemDecaps_eq, guarded_eq, h.arg, h.readMem, h.groups]
    cases parseSk (s.readMem (s.arg 0) Config.skLen) <;> simp only [h.writeMem, h.setKst, h.complete, h.sampled, h.checked]
  | sigKeygen seeded =>
    refine ⟨_, rfl, ?_⟩
    simp only [exec, execSigKeygen, guarded_eq, h.arg, h.randomBytes (hd' rfl), h.holding, afterRandom_unseen (hd' rfl), h.writeMem,
      h.complete, h.checked]
  | sigSign seeded =>
    refine ⟨_, rfl, ?_⟩
    simp only [exec, execSigSign, guarded_eq, h.arg, h.readMem, h.clearKey, h.randomBytes (hd' rfl)]
    cases signMessage Config.params (s.readMem (s.arg 0) sigSkLen) (s.readMem (s.arg 2) (s.arg 3))
        (s.randomBytes seeded (s.arg 5) sigRndLen) <;>
      simp only [h.holding, afterRandom_unseen (hd' rfl), h.writeMem, h.complete, h.checked]
  | sigVerify =>
    exact ⟨_, rfl, by simp only [exec, execSigVerify, guarded_eq, h.arg, h.readMem, h.setResult0, h.complete, h.checked]⟩
  | blobBuild seeded signed =>
    refine ⟨_, execBlobBuild_eq seeded signed s, ?_⟩
    have hc : (if signed then (L s).clearKey (s.arg 4) (s.arg 5) else L s) =
        L (if signed then s.clearKey (s.arg 4) (s.arg 5) else s) := by
      cases signed
      · rfl
      · exact h.clearKey ..
    simp only [exec, execBlobBuild_eq, guarded_eq, h.arg, h.readMem, h.groups, h.blobRandom (hd' rfl), hc]
    generalize blobPayload Config.params signed _ _ _ = payload
    cases parsePk (s.readMem (s.arg 2) Config.pkLen) <;> cases payload <;>
      simp only [afterRandom_unseen (hd' rfl), h.writeMem, h.setResult0, h.complete, h.sampled, h.checked]
  | blobOpen signed =>
    refine ⟨_, execBlobOpen_eq signed s, ?_⟩
    simp only [exec, execBlobOpen_eq, guarded_eq, h.arg, h.readMem, h.groups]
    cases parseSk (s.readMem (s.arg 2) Config.skLen) with
    | none => simp only [h.complete, h.checked]
    | some sk =>
      dsimp only
      generalize openBlob Config.params s.groups signed (s.arg 5) sk (s.readMem (s.arg 0) (s.arg 1)) = r
      rcases r with _ | _ | _ <;>
        simp only [sampled, h.keepSampling, h.writeMem, h.setResult0, h.setResult1, h.complete, h.checked]
  | nop | polyLoad | polyStore | polyReduce | polyAdd | polySub | polyEq | polyClear | zeroize | nttFwd | nttInv | pmul | cbdSample
  | rejSample | polyCompress | polyDecompress | polyPack12 | polyUnpack12 => exact absurd hi Bool.false_ne_true

/-- A change that no operation of a command sees goes through the command unchanged. -/
theorem exec_unseen (h : Unseen L) {i : Instr} (hr : usesScratchOnly i = false → UnseenByRegs L)
    (hd : draws i = true → UnseenByDraws L) {s t : State} (ht : exec i s = .next t) : exec i (L s) = .next (L t) := by
  have key : ∃ u, exec i s = .next u ∧ exec i (L s) = .next (L u) := by
    cases hi : usesScratchOnly i
    · exact exec_unseen_regs h (hr hi) hi s
    · exact exec_unseen_bytes h hd hi s
  obtain ⟨u, hu, hL⟩ := key
  rwa [Host.Outcome.next.inj (ht.symm.trans hu)]

end

/-! ## The three changes -/

/-- Another register file. -/
def State.withRegs (f : RegFile) (s : State) : State := { s with pr := f }

/-- Another entropy index. -/
def State.withDrawn (k : Nat) (s : State) : State := { s with drawn := k }

/-- Other values of the live CMD and ARG registers. -/
def State.withLive (w : Word) (a : Vector Word 8) (s : State) : State := { s with cmdl := w, args := a }

theorem unseen_withRegs (f : RegFile) : Unseen (State.withRegs f) := by
  constructor <;> intros <;> rfl

theorem unseen_withDrawn (k : Nat) : Unseen (State.withDrawn k) := by
  constructor <;> intros <;> rfl

theorem unseenByRegs_withDrawn (k : Nat) : UnseenByRegs (State.withDrawn k) := by
  constructor <;> intros <;> rfl

theorem unseen_withLive (w : Word) (a : Vector Word 8) : Unseen (State.withLive w a) := by
  constructor <;> intros <;> rfl

theorem unseenByRegs_withLive (w : Word) (a : Vector Word 8) : UnseenByRegs (State.withLive w a) := by
  constructor <;> intros <;> rfl

theorem unseenByDraws_withLive (w : Word) (a : Vector Word 8) : UnseenByDraws (State.withLive w a) := by
  constructor <;> intros <;> rfl

/-- What is not seen is not written either: putting a state's own value in changes nothing before the command, so nothing after. -/
theorem eq_of_exec_self {i : Instr} {s t : State} {L : State → State} (hs : L s = s) (ht : exec i s = .next t)
    (h : exec i (L s) = .next (L t)) : t = L t := by
  rw [hs] at h
  exact Host.Outcome.next.inj (ht.symm.trans h)

/-- Settles O11: a register file is not seen by a byte command, whichever it is. -/
theorem byteCommandsIgnoreRegisters : Obligations.ByteCommandsIgnoreRegisters := by
  intro i s t f hi ht
  have key (g : RegFile) : exec i (s.withRegs g) = .next (t.withRegs g) := by
    have hd : draws i = true → UnseenByDraws (State.withRegs g) := fun _ => by constructor <;> intros <;> rfl
    exact exec_unseen (unseen_withRegs g) (fun hf => absurd (hf.symm.trans hi) Bool.false_ne_true) hd ht
  exact ⟨(congrArg State.pr (eq_of_exec_self (L := State.withRegs s.pr) rfl ht (key s.pr)) :), key f⟩

/-- Settles O12: the entropy index is seen by draws only. -/
theorem seededCommandsDrawNothing : Obligations.SeededCommandsDrawNothing := by
  intro i s t k hi ht
  have key (n : Nat) : exec i (s.withDrawn n) = .next (t.withDrawn n) :=
    exec_unseen (unseen_withDrawn n) (fun _ => unseenByRegs_withDrawn n) (fun hd => absurd (hi.symm.trans hd) Bool.false_ne_true) ht
  exact ⟨(congrArg State.drawn (eq_of_exec_self (L := State.withDrawn s.drawn) rfl ht (key s.drawn)) :), key k⟩

/-- Settles O13: no operation sees the live registers. -/
theorem engineReadsLatchedArguments : Obligations.EngineReadsLatchedArguments := by
  intro i s t w a ht
  obtain ⟨u, hu, hl⟩ := exec_leaves i s
  obtain rfl := Host.Outcome.next.inj (ht.symm.trans hu)
  exact ⟨hl.kept.cmdl, hl.kept.args, hl.kept.argl, exec_unseen (unseen_withLive w a) (fun _ => unseenByRegs_withLive w a)
    (fun _ => unseenByDraws_withLive w a) ht⟩

end Sys2Proof.Machine
end

section
/-! SUPPORT. Who writes KST and EQ (R52, R56), and the comparison of POLY_EQ (R156). -/

namespace Sys2Proof.Machine

/-! ## The comparison (R156) -/

theorem xorAccumulate_eq_zero {w : Nat} : ∀ {a b : List (BitVec w)}, a.length = b.length → (xorAccumulate a b = 0#w ↔ a = b)
  | [], [], _ => by simp [xorAccumulate]
  | x :: a, y :: b, h => by
    rw [xorAccumulate, BitVec.or_eq_zero_iff, BitVec.xor_eq_zero_iff, xorAccumulate_eq_zero (Nat.succ.inj h), List.cons.injEq]

theorem allEqual_iff {w : Nat} {a b : List (BitVec w)} (h : a.length = b.length) : allEqual a b = true ↔ a = b := by
  rw [allEqual, beq_iff_eq]
  exact xorAccumulate_eq_zero h

theorem Poly.elem_inj {p r : Poly} : p.elem = r.elem ↔ p.cells = r.cells :=
  (List.map_injective_iff.2 fun _ _ => BitVec.eq_of_toInt_eq).eq_iff

theorem polyEqual_iff (s : State) (a b : PReg) : polyEqual s a b = true ↔ s.elem a = s.elem b := by
  rw [polyEqual, allEqual_iff (by simp [Poly.size]), ← Poly.elem_inj]
  rfl

/-- Two registers hold the same element exactly when their coefficients are equal one by one. -/
theorem State.elem_eq_iff (s : State) (a b : PReg) : s.elem a = s.elem b ↔ ∀ i < 256, s.coeff a i = s.coeff b i := by
  refine ⟨fun h i _ => by rw [State.coeff, h]; rfl, fun h => List.ext_getElem (by simp) fun i h1 h2 => ?_⟩
  have hi : i < 256 := by simpa using h1
  rw [← s.coeff_eq a i hi, ← s.coeff_eq b i hi, h i hi]

/-! ## What a command that ends with OK leaves -/

/-- If the command is over with code OK, its state is one of `P`. -/
def OnOk (P : State → Prop) (t : State) : Prop := t.busy = false → t.err = .ok → P t

namespace OnOk

variable {P : State → Prop} {s t : State}

theorem of (h : P t) : OnOk P t := fun _ _ => h

theorem raise {c : Code} (hc : c ≠ .ok) : OnOk P (s.raise c) := fun _ he => absurd he hc

/-- No check raises OK, so that the command has passed all of them. -/
theorem checked {cs : List (Bool × Code)} (h : OnOk P t)
    (hcs : ∀ p ∈ cs, p.2 ≠ .ok := by simp [chkImmediate, chkWritten, chkTag, chkSameTag, chkRegion, chkRegionIf, chkLength,
      chkLengthIf, chkBlob]) : OnOk P (s.checked cs t) := by
  cases he : firstError cs with
  | none => rw [State.checked_of_none he]; exact h
  | some c => rw [State.checked_of_some he]; exact raise (hcs _ (mem_of_firstError he))

/-- A command that goes on sampling is not over. -/
theorem sampled {α : Type} {held : Scratch} {r : Option α} {u : α → State} (hs : s.busy = true)
    (h : ∀ a, r = some a → OnOk P (u a)) : OnOk P (sampled s held r u) := by
  cases r with
  | none => exact fun hb _ => absurd (hb.symm.trans hs) Bool.false_ne_true
  | some a => exact h a rfl

end OnOk

/-! ## KST and EQ -/

/-- KST after a command that ended with OK (R56). -/
def kstOnOk (s : State) : Instr → Kst
  | .kemKeygen _ => .keyGenerated
  | .kemEncaps _ => .encapsulated
  | .kemDecaps => .decapsulated
  | .zeroize => .uninitialized
  | _ => s.kst

/-- EQ after a command that ended with OK (R52). -/
def eqOnOk (s : State) : Instr → Bool
  | .polyEq rs1 rs2 => decide (s.elem rs1 = s.elem rs2)
  | _ => s.eq

theorem openPayload_error_ne_ok {P : Config.Params} {signed : Bool} {off : Nat} {payload : Bytes} {c : Code}
    (h : openPayload P signed off payload = .error c) : c ≠ .ok := by
  cases signed
  · cases h
  · simp only [openPayload, if_pos] at h
    split at h
    · cases h; simp
    · split at h
      · cases h; simp
      · split at h
        · cases h
        · cases h; simp

/-- Opening a blob reports no error with code OK (R326). -/
theorem openBlob_error_ne_ok {P : Config.Params} {fuel : Nat} {signed : Bool} {off : Nat} {sk : SecretKey} {blob : Bytes} {c : Code}
    (h : openBlob P fuel signed off sk blob = some (.error c)) : c ≠ .ok := by
  simp only [openBlob, Option.map_eq_some_iff] at h
  obtain ⟨ss, -, h⟩ := h
  rw [openSealed] at h
  split at h
  · cases h; simp
  · exact openPayload_error_ne_ok h

/-- A command that ends with OK leaves these values of KST and EQ. -/
theorem exec_kst_eq_onOk (i : Instr) (s : State) (hb : s.busy = true) :
    ∃ t, exec i s = .next t ∧ OnOk (fun u => u.kst = kstOnOk s i ∧ u.eq = eqOnOk s i) t := by
  cases i with
  | nop | polyLoad | polyStore | polyReduce | polyAdd | polySub | polyClear | zeroize | nttFwd | nttInv | pmul | cbdSample
  | polyCompress | polyDecompress | polyPack12 | sigVerify => exact ⟨_, rfl, .checked (.of ⟨rfl, rfl⟩)⟩
  | polyEq rs1 rs2 =>
    refine ⟨_, rfl, .checked (.of ⟨rfl, ?_⟩)⟩
    exact Bool.eq_iff_iff.2 ((polyEqual_iff s rs1 rs2).trans decide_eq_true_iff.symm)
  | rejSample => exact ⟨_, rfl, .checked (.sampled hb fun _ _ => .of ⟨rfl, rfl⟩)⟩
  | polyUnpack12 =>
    refine ⟨_, rfl, .checked ?_⟩
    split
    · exact .raise (by simp)
    · exact .of ⟨rfl, rfl⟩
  | kemKeygen seeded =>
    exact ⟨_, execKemKeygen_eq seeded s, .checked (.sampled hb fun _ _ => .of ⟨rfl, by simp [eqOnOk]⟩)⟩
  | kemEncaps seeded =>
    refine ⟨_, execKemEncaps_eq seeded s, .checked ?_⟩
    split
    · exact .raise (by simp)
    · exact .sampled hb fun _ _ => .of ⟨rfl, by simp [eqOnOk]⟩
  | kemDecaps =>
    refine ⟨_, execKemDecaps_eq s, .checked ?_⟩
    split
    · exact .raise (by simp)
    · exact .sampled hb fun _ _ => .of ⟨rfl, rfl⟩
  | sigKeygen seeded => exact ⟨_, rfl, .checked (.of ⟨by simp [kstOnOk], by simp [eqOnOk]⟩)⟩
  | sigSign seeded =>
    refine ⟨_, rfl, .checked (.checked ?_)⟩
    split
    · exact .raise (by simp)
    · exact .of ⟨by simp [kstOnOk], by simp [eqOnOk]⟩
  | blobBuild seeded signed =>
    refine ⟨_, execBlobBuild_eq seeded signed s, .checked (.checked ?_)⟩
    split
    · exact .sampled hb fun _ _ => .of (by cases signed <;> simp [kstOnOk, eqOnOk])
    · exact .raise (by simp)
  | blobOpen signed =>
    refine ⟨_, execBlobOpen_eq signed s, .checked ?_⟩
    split
    · exact .raise (by simp)
    · refine .sampled hb fun r hr => ?_
      cases r with
      | error c => exact .raise (openBlob_error_ne_ok hr)
      | ok report => exact .of ⟨rfl, rfl⟩

/-- A command that is still pending, or over with an error, leaves KST and EQ as they were. -/
theorem Leaves.kst_eq_kept {i : Instr} {s t : State} (h : Leaves i s t)
    (ht : ¬ (t.busy = false ∧ t.err = .ok)) : t.kst = s.kst ∧ t.eq = s.eq := by
  cases h with
  | waits => exact ⟨rfl, rfl⟩
  | ends u c _ he =>
    have hf := (he fun hc => ht ⟨rfl, hc⟩).flags
    exact ⟨hf.kst, hf.eq⟩

/-- Settles O10: by whether the command is over with OK. -/
theorem whoWritesKstAndEq : Obligations.WhoWritesKstAndEq := by
  intro i s t h hb
  obtain ⟨u, hu, hl⟩ := exec_leaves i s
  obtain rfl := Host.Outcome.next.inj (hu.symm.trans h)
  obtain ⟨v, hv, hok⟩ := exec_kst_eq_onOk i s hb
  obtain rfl := Host.Outcome.next.inj (hv.symm.trans h)
  by_cases ht : v.busy = false ∧ v.err = .ok
  · obtain ⟨hk, he⟩ := hok ht.1 ht.2
    simp only [if_pos ht]
    exact ⟨hk.trans (by cases i <;> rfl), he.trans (by cases i <;> rfl)⟩
  · simp only [if_neg ht]
    exact hl.kst_eq_kept ht

end Sys2Proof.Machine
end

section
/-! SUPPORT. What a command answers, check by check (R343), and the statements of POLY_EQ, POLY_REDUCE and the KEM, signature and
blob commands that write keys, secrets and frames. -/

namespace Sys2Proof.Machine

/-! ## The static checks as conditions -/

section
variable (s u t : State) (cs : List (Bool × Code))

theorem State.checked_cons (b : Bool) (c : Code) : s.checked ((b, c) :: cs) t = if b = true then s.raise c else s.checked cs t := by
  cases b <;> rfl

@[simp] theorem State.checked_nil : s.checked [] t = t := rfl

@[simp] theorem State.checked_written (r : PReg) :
    s.checked (chkWritten u r :: cs) t = if u.tag r = .empty then s.raise .uninit else s.checked cs t := by
  simp [chkWritten, State.checked_cons]

@[simp] theorem State.checked_sameTag (a b : PReg) :
    s.checked (chkSameTag u a b :: cs) t = if u.tag a ≠ u.tag b then s.raise .domain else s.checked cs t := by
  simp [chkSameTag, State.checked_cons]

@[simp] theorem State.checked_region (a n : Nat) :
    s.checked (chkRegion a n :: cs) t = if OutOf a n then s.raise .bounds else s.checked cs t := by
  simp [chkRegion, State.checked_cons, inBounds]

@[simp] theorem State.checked_regionIf (b : Bool) (a n : Nat) :
    s.checked (chkRegionIf b a n :: cs) t = if b = true ∧ OutOf a n then s.raise .bounds else s.checked cs t := by
  simp [chkRegionIf, State.checked_cons, inBounds]

@[simp] theorem State.checked_length (n want : Nat) :
    s.checked (chkLength n want :: cs) t = if n ≠ want then s.raise .format else s.checked cs t := by
  simp [chkLength, State.checked_cons]

@[simp] theorem State.checked_lengthIf (b : Bool) (n want : Nat) :
    s.checked (chkLengthIf b n want :: cs) t = if b = true ∧ n ≠ want then s.raise .format else s.checked cs t := by
  simp [chkLengthIf, State.checked_cons]

end

/-- An answer that depends on a condition, against a statement that depends on the same. -/
theorem exists_next_ite {p : Prop} [Decidable p] {v u : State} {A B : State → Prop} (hv : p → A v)
    (hu : ¬ p → ∃ t, (.next u : Result) = .next t ∧ B t) :
    ∃ t, (.next (if p then v else u) : Result) = .next t ∧ if p then A t else B t := by
  by_cases h : p
  · simp only [if_pos h]; exact ⟨v, rfl, hv h⟩
  · simp only [if_neg h]; exact hu h

/-- The command is over, and what no command changes is kept. -/
theorem ended_complete {s u : State} (h : Kept s u) (c : Code) : Ended s (u.complete c) c :=
  ⟨rfl, rfl, rfl, rfl, ⟨h.cmdl, h.args, h.argl, h.hz, h.hzl, h.port, h.seen⟩⟩

/-! ## DMEM and the random inputs -/

namespace State

variable (s : State)

theorem writeMem_byte_eq (a : Nat) (b : Bytes) : (s.writeMem a b).byte = written a b s.byte := funext (s.writeMem_byte a b)

theorem afterRandom_byte_eq (b : Bool) (n : Nat) : (s.afterRandom b n).byte = s.byte := funext (s.afterRandom_byte b n)

/-- A part of the random inputs: further on in the seed region, or in the entropy (R60, R114). -/
theorem slice_randomBytes (seeded : Bool) (a n k m : Nat) (h : k + m ≤ n) :
    slice (s.randomBytes seeded a n) k m = if seeded then s.readMem (a + k) m else s.entropyBytes k m := by
  cases seeded
  · exact s.slice_drawBytes n k m h
  · exact s.slice_readMem a n k m h

theorem randomBytes_eq (seeded : Bool) (a n : Nat) :
    s.randomBytes seeded a n = if seeded then s.readMem a n else s.entropyBytes 0 n := by
  cases seeded
  · exact s.drawBytes_eq n
  · rfl

theorem afterRandom_drawn_eq (seeded : Bool) (n : Nat) :
    (s.afterRandom seeded n).drawn = s.drawn + if seeded then 0 else n := by cases seeded <;> rfl

end State

/-! ## POLY_REDUCE and POLY_EQ -/

/-- Writing one register touches nothing else. -/
theorem onlyReg_setReg (s : State) (rd : PReg) (f : Elem) (t : Tag) : OnlyReg rd s ((s.setReg rd f t).complete .ok) :=
  ⟨ended_complete (by constructor <;> rfl) _, fun _ h => RegFile.get_set_ne _ _ h, fun _ => rfl, ⟨rfl, rfl, rfl, rfl⟩, rfl⟩

/-- A register written with a ring element holds it. -/
theorem holds_setReg (s : State) (rd : PReg) {f : Elem} (t : Tag) (hf : IsElem f) :
    Holds ((s.setReg rd f t).complete .ok) rd t (fun i => f.getD i 0) :=
  ⟨s.setReg_tag_self rd f t, fun i _ => s.setReg_coeff_self rd t hf i⟩

theorem Poly.ofElem_elem (p : Poly) : Poly.ofElem p.elem = p := by
  obtain ⟨cells, size⟩ := p
  simp only [ofElem, elem, mk.injEq, List.map_map]
  rw [fit_of_length (by simpa using size)]
  exact (List.map_congr_left fun c _ => BitVec.ofInt_toInt).trans (List.map_id cells)

/-- Settles O27: the reduced element is stored; a centred one is its own reduction, so that the register's 12-bit form is copied. -/
theorem polyReduceCopies : Obligations.PolyReduceCopies := by
  intro s rd rs1
  simp only [exec, execPolyReduce, guarded_eq, State.checked_written, State.checked_nil]
  refine exists_next_ite (fun _ => failed_raise s _) fun ht => ⟨_, rfl, onlyReg_setReg .., ?_, fun hok => ?_⟩
  · have h := holds_setReg s rd (s.tag rs1) (IsElem.map_reduce (s.elem_length rs1))
    exact ⟨h.1, fun i hi => (h.2 i hi).trans (getD_map_of_lt reduce 0 (by simpa using hi))⟩
  · have hmap : (s.elem rs1).map reduce = s.elem rs1 :=
      (List.map_congr_left fun c hc => reduce_of_centred (hok.range ht c hc)).trans (List.map_id _)
    rw [State.complete_pr, State.setReg_pr, RegFile.get_set_self, hmap]
    exact congrArg (PolyReg.mk · _) (Poly.ofElem_elem _)

/-- Settles O29: the checks, then the comparison of the stored coefficients. -/
theorem polyEqCompares : Obligations.PolyEqCompares := by
  intro s rs1 rs2
  simp only [exec, execPolyEq, guarded_eq, State.checked_written, State.checked_sameTag, State.checked_nil, ← ite_or]
  refine exists_next_ite (fun _ => failed_raise s _) fun _ => exists_next_ite (fun _ => failed_raise s _) fun _ =>
    ⟨_, rfl, ended_complete (by constructor <;> rfl) _, rfl, fun _ => rfl, rfl, rfl, rfl, ?_, rfl⟩
  exact (polyEqual_iff s rs1 rs2).trans (s.elem_eq_iff rs1 rs2)

/-! ## KEM_KEYGEN and KEM_ENCAPS -/

/-- Settles O49: the checks, the seed, and whether the streams have yielded their values. -/
theorem kemKeygenWritesKeys : Obligations.KemKeygenWritesKeys := by
  intro s seeded
  simp only [exec, execKemKeygen_eq, guarded_eq, State.checked_region, State.checked_regionIf, State.checked_nil, ← ite_or]
  refine exists_next_ite (fun _ => failed_raise s _) fun _ => ?_
  rw [State.slice_randomBytes _ _ _ _ _ _ (by omega), State.slice_randomBytes _ _ _ _ _ _ (by omega), Nat.add_zero]
  cases hk : keygenInternal Config.params s.groups (if seeded then s.readMem (s.arg 2) 32 else s.entropyBytes 0 32)
      (if seeded then s.readMem (s.arg 2 + 32) 32 else s.entropyBytes 32 32) with
  | none => exact ⟨_, rfl, waits_keepSampling s _⟩
  | some k =>
    obtain ⟨pk, sk⟩ := k
    obtain ⟨hpk, hsk⟩ := keygen_lengths (by cases seeded <;> simp [State.entropyBytes]) hk
    refine ⟨State.complete _ _, rfl, ended_complete (by constructor <;> simp) _, by simp, by simp, by simp, by simp, rfl,
      s.afterRandom_drawn_eq seeded 64, hpk, hsk, fun a => ?_⟩
    simp only [State.complete_byte, State.setKst_byte, State.writeMem_byte, State.writeMem_byte_eq, State.afterRandom_byte_eq]

/-- Settles O50: the checks, the parse, and whether the streams have yielded their values. -/
theorem kemEncapsWritesSecret : Obligations.KemEncapsWritesSecret := by
  intro s seeded
  simp only [exec, execKemEncaps_eq, guarded_eq, State.checked_region, State.checked_regionIf, State.checked_length,
    State.checked_nil, ← ite_or, State.randomBytes_eq]
  refine exists_next_ite (fun _ => failed_raise s _) fun _ => exists_next_ite (fun _ => failed_raise s _) fun _ => ?_
  cases parsePk (s.readMem (s.arg 0) 1184) with
  | none => exact ⟨_, rfl, failed_raise s _⟩
  | some pk =>
    dsimp only
    cases hk : encapsInternal Config.params s.groups pk (if seeded then s.readMem (s.arg 4) 32 else s.entropyBytes 0 32)
        (hashPk Config.params (s.readMem (s.arg 0) 1184)) with
    | none => exact ⟨_, rfl, waits_keepSampling s _⟩
    | some k =>
      obtain ⟨ct, ss⟩ := k
      obtain ⟨hct, hss⟩ := encaps_lengths hk
      refine ⟨State.complete _ _, rfl, ended_complete (by constructor <;> simp) _, by simp, by simp, by simp, by simp, rfl,
        s.afterRandom_drawn_eq seeded 32, hct, hss, fun a => ?_⟩
      simp only [State.complete_byte, State.setKst_byte, State.writeMem_byte, State.writeMem_byte_eq, State.afterRandom_byte_eq]

/-! ## SIG_KEYGEN -/

/-- Settles O55: the checks, then the two writes in their order. -/
theorem sigKeygenWritesKeys : Obligations.SigKeygenWritesKeys := by
  intro s seeded
  simp only [exec, execSigKeygen, guarded_eq, State.checked_region, State.checked_regionIf, State.checked_nil, ← ite_or,
    State.randomBytes_eq, State.afterRandom_holding, State.writeMem_holding, State.complete_holding]
  refine exists_next_ite (fun _ => failed_raise s _) fun _ =>
    ⟨_, rfl, ⟨ended_complete (by constructor <;> simp) _, by simp, by constructor <;> simp⟩,
      s.afterRandom_drawn_eq seeded sigSeedLen, fun a => ?_⟩
  simp only [State.complete_byte, State.writeMem_byte, State.writeMem_byte_eq, State.afterRandom_byte_eq]

end Sys2Proof.Machine
end

section
/-! SUPPORT. BLOB_BUILD: the state with the signing key cleared, the random inputs and the frame (R304, R321, R325). -/

namespace Sys2Proof.Machine

/-! ## The state before the frame is written -/

/-- The state once a command that may sign has cleared its signing key (R304). -/
def State.keyCleared (s : State) (signed : Bool) (addr len : Nat) : State := if signed then s.clearKey addr len else s

namespace State

variable (s : State) (signed : Bool) (addr len : Nat)

theorem keyCleared_kept : Kept s (s.keyCleared signed addr len) := by
  cases signed <;> exact ⟨rfl, rfl, rfl, rfl, rfl, rfl, rfl⟩

theorem keyCleared_pr : (s.keyCleared signed addr len).pr = s.pr := by cases signed <;> rfl

theorem keyCleared_flags : FlagsKept s (s.keyCleared signed addr len) := by cases signed <;> exact ⟨rfl, rfl, rfl, rfl⟩

theorem keyCleared_drawn : (s.keyCleared signed addr len).drawn = s.drawn := by cases signed <;> rfl

/-- A command that does not sign clears a region of no bytes. -/
theorem keyCleared_byte_eq :
    (s.keyCleared signed addr len).byte = written addr (zeros (if signed then len else 0)) s.byte := by
  cases signed
  · funext a
    exact (if_neg (by simp)).symm
  · exact s.writeMem_byte_eq addr (zeros len)

/-- An error raised once the key is cleared (R304, R342), whatever was drawn. -/
theorem failedCleared_raise (seeded : Bool) (n : Nat) (c : Code) :
    FailedCleared s (((s.keyCleared signed addr len).afterRandom seeded n).raise c) c addr (if signed then len else 0) := by
  have hk := s.keyCleared_kept signed addr len
  have hf := s.keyCleared_flags signed addr len
  refine ⟨ended_complete ?_ c, ?_, fun a => ?_, ?_⟩
  · constructor <;> simp [hk.cmdl, hk.args, hk.argl, hk.hz, hk.hzl, hk.port, hk.seen]
  · simp [s.keyCleared_pr]
  · simp only [complete_byte, afterRandom_byte_eq, keyCleared_byte_eq]
  · constructor <;> simp [hf.eq, hf.kst, hf.result0, hf.result1]

end State

/-- A frame written once the key is cleared, with its length in RESULT0 (R325). -/
def State.framed (s : State) (seeded signed : Bool) (n : Nat) (blob : Bytes) (v : Word) : State :=
  ((((s.keyCleared signed (s.arg 4) (s.arg 5)).afterRandom seeded n).writeMem (s.arg 6) blob).setResult0 v).complete .ok

namespace State

variable (s : State) (seeded signed : Bool) (n : Nat) (blob : Bytes) (v : Word)

theorem framed_ended : Ended s (s.framed seeded signed n blob v) .ok := by
  have hk := s.keyCleared_kept signed (s.arg 4) (s.arg 5)
  refine ended_complete ?_ _
  constructor <;> simp [hk.cmdl, hk.args, hk.argl, hk.hz, hk.hzl, hk.port, hk.seen]

theorem framed_pr : (s.framed seeded signed n blob v).pr = s.pr := by simp [framed, keyCleared_pr]

theorem framed_eq : (s.framed seeded signed n blob v).eq = s.eq := by
  simp [framed, (s.keyCleared_flags signed (s.arg 4) (s.arg 5)).eq]

theorem framed_kst : (s.framed seeded signed n blob v).kst = s.kst := by
  simp [framed, (s.keyCleared_flags signed (s.arg 4) (s.arg 5)).kst]

theorem framed_result1 : (s.framed seeded signed n blob v).result1 = s.result1 := by
  simp [framed, (s.keyCleared_flags signed (s.arg 4) (s.arg 5)).result1]

theorem framed_drawn : (s.framed seeded signed n blob v).drawn = s.drawn + if seeded then 0 else n := by
  rw [framed, complete_drawn, setResult0_drawn, writeMem_drawn, afterRandom_drawn_eq, keyCleared_drawn]

theorem framed_byte (a : Nat) : (s.framed seeded signed n blob v).byte a =
    written (s.arg 6) blob (written (s.arg 4) (zeros (if signed then s.arg 5 else 0)) s.byte) a := by
  simp only [framed, complete_byte, setResult0_byte, writeMem_byte, afterRandom_byte_eq, keyCleared_byte_eq]

end State

/-! ## The inputs (R325) -/

section
variable (s : State) (seeded signed : Bool)

theorem State.blobRandom_m : (s.blobRandom seeded signed).m =
    if seeded then s.readMem (s.arg 7) 32 else s.entropyBytes (if signed then sigRndLen else 0) 32 := by
  cases seeded
  · exact s.slice_drawBytes _ _ _ (by omega)
  · exact s.slice_readMem _ _ _ _ (by omega)

theorem State.blobRandom_nonce : (s.blobRandom seeded signed).nonce =
    if seeded then s.readMem (s.arg 7 + 32) 12 else s.entropyBytes ((if signed then sigRndLen else 0) + 32) 12 := by
  cases seeded
  · exact s.slice_drawBytes _ _ _ (by omega)
  · exact s.slice_readMem _ _ _ _ (by omega)

theorem State.blobRandom_rnd : (s.blobRandom seeded signed).rnd =
    if seeded then s.readMem (s.arg 7 + 44) (if signed then sigRndLen else 0)
    else s.entropyBytes 0 (if signed then sigRndLen else 0) := by
  cases seeded
  · exact s.slice_drawBytes _ _ _ (by omega)
  · exact s.slice_readMem _ _ _ _ (by omega)

end

/-- The payload does not depend on a key where the command does not sign (R325). -/
theorem blobPayload_eq (P : Config.Params) (signed : Bool) (key report rnd : Bytes) :
    blobPayload P signed (if signed then key else []) report rnd =
      if signed then (signMessage P key report rnd).map (report ++ ·) else some report := by cases signed <;> rfl

/-- The length of the frame (R321). -/
theorem blobBytes_length {P : Config.Params} {fuel : Nat} {pk : PublicKey} {m h ct ss nonce payload : Bytes}
    (hk : encapsInternal P fuel pk m h = some (ct, ss)) (hn : nonce.length = 12) :
    (blobBytes P ct ss nonce payload).length = 1116 + payload.length :=
  buildBlob_length (h := h) hn (by rw [buildBlob, hk]; rfl)

/-- A precise error says less of a region that was not touched. -/
theorem Failed.outside {s t : State} {c : Code} (h : Failed s t c) (addr len : Nat) :
    Ended s t c ∧ t.pr = s.pr ∧ FlagsKept s t ∧ ∀ a, a < addr ∨ addr + len ≤ a → t.byte a = s.byte a :=
  ⟨h.ended, h.regs, h.flags, fun a _ => h.bytes a⟩

/-- Settles O58: the checks before and after the key's, then the random inputs, the parse, the signature and the encapsulation. -/
theorem blobBuildFrames : Obligations.BlobBuildFrames := by
  intro s seeded signed
  rw [exec, execBlobBuild_eq, guarded_eq, State.checked_region, State.checked_region, ← ite_or, State.checked_regionIf,
    State.checked_nil]
  refine exists_next_ite (fun _ => (failed_raise s _).outside ..) fun _ => exists_next_ite (fun _ => failed_raise s _) fun _ => ?_
  simp only [State.checked_region, State.checked_regionIf, State.checked_length, State.checked_lengthIf, State.checked_nil, ← ite_or]
  refine exists_next_ite (fun _ => s.failedCleared_raise signed _ _ true 0 _) fun _ =>
    exists_next_ite (fun _ => s.failedCleared_raise signed _ _ true 0 _) fun _ => ?_
  rw [← State.blobRandom_rnd, ← State.blobRandom_m, ← State.blobRandom_nonce, ← blobPayload_eq]
  have hn := blobRandom_nonce_length s seeded signed
  generalize s.blobRandom seeded signed = r at hn ⊢
  cases parsePk (s.readMem (s.arg 2) 1184) with
  | none => exact ⟨_, rfl, s.failedCleared_raise signed _ _ seeded _ _⟩
  | some pk =>
    cases hp : blobPayload Config.params signed (if signed then s.readMem (s.arg 4) sigSkLen else [])
        (s.readMem (s.arg 0) (s.arg 1)) r.rnd with
    | none => exact ⟨_, rfl, s.failedCleared_raise signed _ _ seeded _ _⟩
    | some payload =>
      dsimp only [buildBlob]
      cases hk : encapsInternal Config.params s.groups pk r.m (hashPk Config.params (s.readMem (s.arg 2) 1184)) with
      | none => exact ⟨_, rfl, waits_keepSampling s _⟩
      | some k =>
        obtain ⟨ct, ss⟩ := k
        refine ⟨s.framed seeded signed _ _ _, rfl, s.framed_ended .., s.framed_pr .., s.framed_eq .., s.framed_kst ..,
          s.framed_result1 .., rfl, s.framed_drawn .., ?_, fun a => s.framed_byte seeded signed _ _ _ a⟩
        refine (blobBytes_length hk hn).trans ?_
        rw [blobPayload_length hp, State.readMem_length, ← Nat.add_assoc]
        rfl

end Sys2Proof.Machine
end

section
/-! SUPPORT. Which steps stop the machine (R83, R345, R347). -/

namespace Sys2Proof.Machine

theorem access_eq_fault_iff {bytes off : Nat} {t : State} : (∃ f, access bytes off t = .fault f) ↔ ¬ LegalAccess bytes off := by
  rw [legalAccess_iff]
  unfold access
  split
  · rename_i ho
    exact iff_of_true ⟨_, rfl⟩ fun h => Nat.not_lt.2 ho h.1
  · split
    · rename_i hl
      exact iff_of_true ⟨_, rfl⟩ fun h => by simp [h.2] at hl
    · rename_i ho hl
      exact iff_of_false (by simp) fun h => h ⟨Nat.not_le.1 ho, by simpa using hl⟩

theorem access_ne_refused (bytes off : Nat) (t : State) (r : Refusal) : access bytes off t ≠ .refused r := by
  unfold access
  split
  · simp
  · split <;> simp

/-- The host's turn stops exactly on an access that is not legal (R83). -/
theorem hostTurn_eq_fault_iff (s : State) : (∃ f, hostTurn s.hostPasses = .fault f) ↔
    ∃ bytes off, s.Accesses bytes off ∧ ¬ LegalAccess bytes off := by
  match hp : s.port with
  | [] | .wait :: rest =>
    rw [hostTurn, State.hostPasses_port, hp]
    exact iff_of_false (by simp) fun ⟨_, _, h, _⟩ => by simp [State.Accesses, hp] at h
  | .read bytes off :: rest =>
    rw [hostTurn_read hp, access_eq_fault_iff]
    simp [State.Accesses, hp]
  | .write bytes off v :: rest =>
    rw [hostTurn_write hp, access_eq_fault_iff]
    simp [State.Accesses, hp]

theorem hostTurn_ne_refused (s : State) (r : Refusal) : hostTurn s ≠ .refused r := by
  unfold hostTurn
  split
  · simp
  · exact access_ne_refused _ _ _ r
  · exact access_ne_refused _ _ _ r
  · simp

/-- The engine's step always answers a state (R345). -/
theorem engineTurn_eq_next (s : State) : ∃ t, engineTurn s = .next t := by
  unfold engineTurn
  split
  · rename_i i _
    obtain ⟨t, ht, -⟩ := exec_leaves i s
    exact ⟨t, ht⟩
  · exact ⟨_, rfl⟩

/-- A host that accesses has an access waiting. -/
theorem State.Accesses.port_ne_nil {s : State} {bytes off : Nat} (h : s.Accesses bytes off) : s.port ≠ [] := by
  rcases h with ⟨rest, hp⟩ | ⟨v, rest, hp⟩ <;> simp [hp]

/-- Settles O23: by whose turn it is. -/
theorem onlyRefusedAccessesStop : Obligations.OnlyRefusedAccessesStop := by
  refine ⟨fun s => ?_, fun s r => ?_⟩ <;> by_cases he : s.busy = true ∧ (s.port = [] ∨ s.delay = 0)
  · obtain ⟨t, ht⟩ := engineTurn_eq_next s
    rw [step_engine he.1 he.2, ht]
    refine iff_of_false (by simp) fun ⟨hturn, bytes, off, ha, _⟩ => ?_
    have hp := ha.port_ne_nil
    simp_all
  · have hh : s.busy = false ∨ s.port ≠ [] ∧ s.delay ≠ 0 := by
      simpa [Classical.or_iff_not_imp_left] using he
    rw [step_host hh, hostTurn_eq_fault_iff, and_iff_right (hh.imp_right And.right)]
  · obtain ⟨t, ht⟩ := engineTurn_eq_next s
    rw [step_engine he.1 he.2, ht]
    simp
  · rw [step_host (by simpa [Classical.or_iff_not_imp_left] using he)]
    exact hostTurn_ne_refused _ r

end Sys2Proof.Machine
end

section
/-! SUPPORT. Numbers, bit strings and pieces of them (R12, R81, R233). -/

namespace Sys2Proof.Machine

/-! ## Bit strings as numbers -/

theorem bitsNat_testBit : ∀ (l : List Bool) (i : Nat), (bitsNat l).testBit i = l.getD i false
  | [], i => by simp [bitsNat]
  | b :: l, 0 => by cases b <;> simp [bitsNat, Nat.testBit_zero]
  | b :: l, i + 1 => by
    have h : (b.toNat + 2 * bitsNat l) / 2 = bitsNat l := by cases b <;> simp; omega
    rw [bitsNat, Nat.testBit_succ, h, bitsNat_testBit l i, List.getD_cons_succ]

/-- The bits of the number of a bit string are the string's. -/
theorem natBits_bitsNat (l : List Bool) : natBits l.length (bitsNat l) = l := by
  refine List.ext_getElem (by simp [natBits]) fun i h1 h2 => ?_
  simp [natBits, bitsNat_testBit, h2]

/-- A number of `d` bits is the number of its first `d` bits. -/
theorem bitsNat_natBits {d v : Nat} (h : v < 2 ^ d) : bitsNat (natBits d v) = v := by
  refine Nat.eq_of_testBit_eq fun i => ?_
  rw [bitsNat_testBit, natBits, List.getD_eq_getElem?_getD, List.getElem?_map]
  by_cases hi : i < d
  · simp [hi]
  · simp [hi, Nat.testBit_lt_two_pow (h.trans_le (Nat.pow_le_pow_right Nat.two_pos (Nat.not_lt.1 hi)))]

/-- The number of a bit string is the sum of its bits by their weights. -/
theorem bitsNat_map_range (f : Nat → Bool) (n : Nat) :
    bitsNat ((List.range n).map f) = ((List.range n).map fun t => (f t).toNat * 2 ^ t).sum := by
  induction n generalizing f with
  | zero => rfl
  | succ n ih =>
    have h : ∀ l : List Nat, (l.map fun t => (f (t + 1)).toNat * 2 ^ (t + 1)).sum =
        2 * (l.map fun t => (f (t + 1)).toNat * 2 ^ t).sum := fun l => by
      rw [← List.sum_map_mul_left]
      exact congrArg List.sum (List.map_congr_left fun t _ => by ring)
    simp [List.range_succ_eq_map, bitsNat, Function.comp_def, ih (fun t => f (t + 1)), h]

/-! ## Pieces -/

/-- The pieces of a list given by its entries. -/
theorem pieces_map_range {α : Type} (f : Nat → α) (d n : Nat) :
    pieces d n ((List.range (d * n)).map f) = (List.range n).map fun i => (List.range d).map fun t => f (d * i + t) := by
  induction n generalizing f with
  | zero => rfl
  | succ n ih =>
    have h : (List.range (d * (n + 1))).map f =
        (List.range d).map f ++ (List.range (d * n)).map fun t => f (d + t) := by
      rw [Nat.mul_succ, Nat.add_comm, List.range_add, List.map_append, List.map_map]
      rfl
    rw [h, pieces, List.take_left' (by simp), List.drop_left' (by simp), ih, List.range_succ_eq_map, List.map_cons, List.map_map]
    simp [Function.comp_def, Nat.mul_succ, Nat.add_comm, Nat.add_left_comm]

/-- Pieces put together come apart again. -/
theorem pieces_flatMap {α β : Type} (g : α → List β) (d : Nat) (hg : ∀ x, (g x).length = d) :
    ∀ l : List α, pieces d l.length (l.flatMap g) = l.map g
  | [] => rfl
  | x :: l => by
    rw [List.flatMap_cons, List.length_cons, pieces, List.take_left' (hg x), List.drop_left' (hg x), pieces_flatMap g d hg l,
      List.map_cons]

theorem pieces_flatten {α : Type} (d : Nat) : ∀ (n : Nat) (l : List α), l.length = d * n → (pieces d n l).flatten = l
  | 0, l, h => (List.length_eq_zero_iff.1 h).symm
  | n + 1, l, h => by
    rw [pieces, List.flatten_cons, pieces_flatten d n _ (by rw [List.length_drop, h, Nat.mul_succ]; omega), List.take_append_drop]

theorem length_of_mem_pieces {α : Type} (d : Nat) : ∀ (n : Nat) (l : List α), l.length = d * n → ∀ p ∈ pieces d n l, p.length = d
  | n + 1, l, h, p, hp => by
    rw [Nat.mul_succ] at h
    rcases List.mem_cons.1 hp with rfl | hp
    · rw [List.length_take]; omega
    · exact length_of_mem_pieces d n _ (by rw [List.length_drop]; omega) p hp

/-! ## Bytes and bits -/

theorem byteBits_ofNat (v : Nat) : byteBits (BitVec.ofNat 8 v) = natBits 8 v := by
  refine List.map_congr_left fun i hi => ?_
  rw [BitVec.getLsbD_ofNat, decide_eq_true (List.mem_range.1 hi), Bool.true_and]

/-- The bits of the bytes made from a bit string are the string (R12). -/
theorem bits_bitsBytes {n : Nat} {l : List Bool} (h : l.length = 8 * n) : bits (bitsBytes n l) = l := by
  rw [bits, bitsBytes, List.flatMap_map]
  calc (pieces 8 n l).flatMap (fun p => byteBits (BitVec.ofNat 8 (bitsNat p)))
      = (pieces 8 n l).flatMap id := List.flatMap_congr fun p hp => by
        rw [byteBits_ofNat, ← length_of_mem_pieces 8 n l h p hp]
        exact natBits_bitsNat p
    _ = l := by rw [List.flatMap_id]; exact pieces_flatten 8 n l h

/-- The bits of a byte string given by its bytes. -/
theorem bits_map_range (g : Nat → Byte) (n : Nat) :
    bits ((List.range n).map g) = (List.range (8 * n)).map fun p => (g (p / 8)).getLsbD (p % 8) := by
  induction n with
  | zero => rfl
  | succ n ih =>
    have hlast : byteBits (g n) = (List.range 8).map fun t => (g ((8 * n + t) / 8)).getLsbD ((8 * n + t) % 8) :=
      List.map_congr_left fun t ht => by
        have := List.mem_range.1 ht
        rw [show (8 * n + t) / 8 = n by omega, show (8 * n + t) % 8 = t by omega]
    rw [List.range_succ, List.map_append, bits, List.flatMap_append, ← bits, ih, Nat.mul_succ, List.range_add, List.map_append,
      List.map_map]
    exact congrArg _ ((List.append_nil _).trans hlast)

/-! ## Packing (R233) -/

@[simp] theorem natBits_length (d v : Nat) : (natBits d v).length = d := by simp [natBits]

/-- Unpacking gives back what was packed. -/
theorem unpack_pack {d : Nat} {v : List Nat} (hl : v.length = 256) (hv : ∀ x ∈ v, x < 2 ^ d) : unpack d (pack d v) = v := by
  have hbits : (v.flatMap (natBits d)).length = 8 * (32 * d) := by
    rw [flatMap_length_const _ d (natBits_length d), hl]; omega
  rw [unpack, pack, bits_bitsBytes hbits, ← hl, pieces_flatMap _ d (natBits_length d), List.map_map]
  exact (List.map_congr_left fun x hx => bitsNat_natBits (hv x hx)).trans (List.map_id v)

end Sys2Proof.Machine
end

section
/-! SUPPORT. The commands that move polynomials between the registers and DMEM (R151, R152, R211, R235 to R238). -/

namespace Sys2Proof.Machine

/-! ## Checks -/

section
variable (s t : State) (cs : List (Bool × Code))

@[simp] theorem State.checked_tagSelect (imm4 : BitVec 4) : s.checked (chkImmediate (legalTagSelect imm4) :: cs) t =
    if imm4 ≠ 0 ∧ imm4 ≠ 1 then s.raise .illegal else s.checked cs t := by
  simp [chkImmediate, State.checked_cons, legalTagSelect]

@[simp] theorem State.checked_depth (imm4 : BitVec 4) : s.checked (chkImmediate (legalDepth imm4) :: cs) t =
    if imm4 ∉ ([1, 4, 10] : List (BitVec 4)) then s.raise .illegal else s.checked cs t := by
  simp [chkImmediate, State.checked_cons, legalDepth, and_assoc]

@[simp] theorem State.checked_tag (u : State) (r : PReg) (tag : Tag) :
    s.checked (chkTag u r tag :: cs) t = if u.tag r ≠ tag then s.raise .domain else s.checked cs t := by
  simp [chkTag, State.checked_cons]

end

/-! ## DMEM as numbers (R12, R81, R233) -/

theorem ofNat_leNat_pair (lo hi : Byte) : BitVec.ofNat 16 (leNat [lo, hi]) = hi ++ lo := by
  have h := BitVec.toNat_append hi lo
  rw [← Nat.shiftLeft_add_eq_or_of_lt lo.isLt, Nat.shiftLeft_eq] at h
  refine BitVec.eq_of_toNat_eq (Eq.trans ?_ h.symm)
  have hlo := lo.isLt
  have hhi := hi.isLt
  simp only [leNat, BitVec.toNat_ofNat]
  omega

theorem append_of_leBytes {v : BitVec 16} {lo hi : Byte} (h : leBytes 2 v = [lo, hi]) : hi ++ lo = v := by
  obtain rfl : v.extractLsb' 0 8 = lo := by rw [← leBytes_getD v 2 0 (by omega), h]; rfl
  obtain rfl : v.extractLsb' 8 8 = hi := by rw [← leBytes_getD v 2 1 (by omega), h]; rfl
  refine BitVec.eq_of_getLsbD_eq fun i hi => ?_
  rw [BitVec.getLsbD_append, BitVec.getLsbD_extractLsb', BitVec.getLsbD_extractLsb']
  by_cases h8 : i < 8
  · simp [h8]
  · simp [h8, show i - 8 < 8 by omega, show 8 + (i - 8) = i by omega]

section
variable (s : State) (addr : Nat)

theorem State.bits_readMem (n : Nat) : bits (s.readMem addr n) = (List.range (8 * n)).map (s.bit addr) := bits_map_range _ n

/-- The values packed in DMEM (R233). -/
theorem State.unpack_readMem (d : Nat) : unpack d (s.readMem addr (32 * d)) = (List.range 256).map (s.packed d addr) := by
  rw [unpack, s.bits_readMem, show 8 * (32 * d) = d * 256 by omega, pieces_map_range, List.map_map]
  exact List.map_congr_left fun i _ => bitsNat_map_range _ d

/-- The int16 numbers in DMEM (R81, R151). -/
theorem State.int16Elem_readMem : int16Elem (s.readMem addr 512) = (List.range 256).map fun i => reduce (s.int16 addr i).toInt := by
  have h : pieces 2 256 (s.readMem addr 512) = _ := pieces_map_range (fun j => s.byte (addr + j)) 2 256
  rw [int16Elem, h, List.map_map]
  exact List.map_congr_left fun i _ => congrArg (fun v : BitVec 16 => reduce v.toInt)
    (ofNat_leNat_pair (s.byte (addr + 2 * i)) (s.byte (addr + (2 * i + 1))))

/-- The bits that CBD counts, in DMEM (R210). -/
theorem State.cbd_readMem : cbd (s.readMem addr 128) = (List.range 256).map fun i =>
    ((s.bit addr (4 * i)).toNat + (s.bit addr (4 * i + 1)).toNat : Int) -
      ((s.bit addr (4 * i + 2)).toNat + (s.bit addr (4 * i + 3)).toNat) := by
  have h : pieces 4 256 (bits (s.readMem addr 128)) = _ := (congrArg _ (s.bits_readMem addr 128)).trans (pieces_map_range _ 4 256)
  rw [cbd, h, List.map_map]
  rfl

theorem State.decompress_readMem (d : Nat) : decompress (s.readMem addr (32 * d)) d =
    (List.range 256).map fun i => decompressCoeff d (s.packed d addr i) := by
  rw [decompress, s.unpack_readMem, List.map_map]
  rfl

theorem State.unpack12_readMem : unpack12 (s.readMem addr 384) =
    if (List.range 256).any (fun i => decide (3329 ≤ s.packed 12 addr i)) = true then none
    else some ((List.range 256).map fun i => reduce (s.packed 12 addr i)) := by
  have h : unpack 12 (s.readMem addr 384) = _ := s.unpack_readMem addr 12
  simp only [unpack12, h, List.any_map, List.map_map, Function.comp_def, Config.q]

/-- Reading what was just written (R14). -/
theorem State.readMem_writeMem (b : Bytes) : (s.writeMem addr b).readMem addr b.length = b := by
  refine List.ext_getElem (by simp) fun j h1 h2 => ?_
  simp [State.readMem, Memory.read_write, h2]

end

theorem getD_of_eq_map_range {α : Type} {l : List α} {n : Nat} {f : Nat → α} {d : α} (h : l = (List.range n).map f) {i : Nat}
    (hi : i < n) : l.getD i d = f i := by
  rw [h, List.getD_eq_getElem?_getD]
  simp [hi]

/-- A register written with 256 centred coefficients given by a formula holds them. -/
theorem holds_setReg_map (s : State) (rd : PReg) {f : Elem} (t : Tag) (hf : IsElem f) {c : Nat → Int}
    (h : f = (List.range 256).map c) : Holds ((s.setReg rd f t).complete .ok) rd t c := by
  have hh := holds_setReg s rd t hf
  exact ⟨hh.1, fun i hi => (hh.2 i hi).trans (getD_of_eq_map_range h hi)⟩

theorem isElem_map_range_reduce (c : Nat → Int) : IsElem ((List.range 256).map fun i => reduce (c i)) := by
  have h : IsElem (((List.range 256).map c).map reduce) := IsElem.map_reduce (by simp)
  rwa [List.map_map] at h

/-- Writing one region touches nothing else. -/
theorem onlyMem_writeMem (s : State) (addr : Nat) {n : Nat} {b : Bytes} (hb : b.length = n) :
    OnlyMem s ((s.writeMem addr b).complete .ok) ∧ ((s.writeMem addr b).complete .ok).drawn = s.drawn ∧
      ∀ a, a < addr ∨ addr + n ≤ a → ((s.writeMem addr b).complete .ok).byte a = s.byte a := by
  refine ⟨⟨ended_complete (by constructor <;> rfl) _, rfl, ⟨rfl, rfl, rfl, rfl⟩⟩, rfl, fun a ha => ?_⟩
  rw [State.complete_byte, State.writeMem_byte, written, if_neg (by omega)]

/-- The values packed in DMEM once they are written (R233). -/
theorem packed_writeMem (s : State) (addr d : Nat) {v : List Nat} (hl : v.length = 256) (hv : ∀ x ∈ v, x < 2 ^ d) {i : Nat}
    (hi : i < 256) : ((s.writeMem addr (pack d v)).complete .ok).packed d addr i = v.getD i 0 := by
  have h := (s.writeMem addr (pack d v)).unpack_readMem addr d
  rw [← pack_length d v, State.readMem_writeMem, unpack_pack hl hv] at h
  exact (getD_of_eq_map_range h hi).symm

/-- The int16 numbers in DMEM once they are written (R152). -/
theorem int16_writeMem (s : State) (addr : Nat) {f : Elem} (hf : f.length = 256) {i : Nat} (hi : i < 256) :
    ((s.writeMem addr (int16Bytes f)).complete .ok).int16 addr i = BitVec.ofInt 16 (f.getD i 0) := by
  have hlen : (int16Bytes f).length = 2 * f.length := int16Bytes_length f
  have h : pieces 2 f.length ((s.writeMem addr (int16Bytes f)).readMem addr (2 * f.length)) = _ :=
    pieces_map_range (fun j => (s.writeMem addr (int16Bytes f)).byte (addr + j)) 2 f.length
  have hp : pieces 2 f.length (int16Bytes f) = f.map fun c => leBytes 2 (BitVec.ofInt 16 c) :=
    pieces_flatMap _ 2 (fun _ => leBytes_length 2 _) f
  rw [← hlen, State.readMem_writeMem, hp] at h
  have hg : (f.map fun c => leBytes 2 (BitVec.ofInt 16 c)).getD i [] = leBytes 2 (BitVec.ofInt 16 (f.getD i 0)) := by
    simp [List.getD_eq_getElem?_getD, hf, hi]
  exact append_of_leBytes (hg.symm.trans (getD_of_eq_map_range h (hf ▸ hi)))

/-! ## The commands -/

/-- Settles O25: the checks, then the int16 numbers of the region. -/
theorem polyLoadReducesInt16 : Obligations.PolyLoadReducesInt16 := by
  intro s rd imm4
  simp only [exec, execPolyLoad, guarded_eq, State.checked_tagSelect, State.checked_region, State.checked_nil]
  exact exists_next_ite (fun _ => failed_raise s _) fun _ => exists_next_ite (fun _ => failed_raise s _) fun _ =>
    ⟨_, rfl, onlyReg_setReg .., holds_setReg_map s rd _ (int16Elem_isElem _) (s.int16Elem_readMem _)⟩

/-- Settles O26: the checks, then the int16 numbers of the region once it is written. -/
theorem polyStoreWritesInt16 : Obligations.PolyStoreWritesInt16 := by
  intro s rs1
  simp only [exec, execPolyStore, guarded_eq, State.checked_written, State.checked_region, State.checked_nil]
  refine exists_next_ite (fun _ => failed_raise s _) fun _ => exists_next_ite (fun _ => failed_raise s _) fun _ => ?_
  obtain ⟨hm, hd, ho⟩ := onlyMem_writeMem s (s.arg 0) (b := int16Bytes (s.elem rs1)) (n := 512) (by simp)
  exact ⟨_, rfl, hm, hd, ho, fun i hi => int16_writeMem s _ (s.elem_length rs1) hi⟩

/-- Settles O37: the check, then the bits of the region. -/
theorem cbdSampleCountsBits : Obligations.CbdSampleCountsBits := by
  intro s rd
  simp only [exec, execCbdSample, guarded_eq, State.checked_region, State.checked_nil]
  exact exists_next_ite (fun _ => failed_raise s _) fun _ =>
    ⟨_, rfl, onlyReg_setReg .., holds_setReg_map s rd _ (cbd_isElem _) (s.cbd_readMem _)⟩

/-- Settles O45: the checks, then the values packed in the region once it is written; a compressed coefficient has d bits. -/
theorem polyCompressPacks : Obligations.PolyCompressPacks := by
  intro s rs1 imm4
  simp only [exec, execPolyCompress, guarded_eq, State.checked_depth, State.checked_written, State.checked_tag,
    State.checked_region, State.checked_nil]
  refine exists_next_ite (fun _ => failed_raise s _) fun _ => exists_next_ite (fun _ => failed_raise s _) fun _ =>
    exists_next_ite (fun _ => failed_raise s _) fun _ => exists_next_ite (fun _ => failed_raise s _) fun _ => ?_
  obtain ⟨hm, hd, ho⟩ := onlyMem_writeMem s (s.arg 0) (compress_length (s.elem rs1) imm4.toNat)
  refine ⟨_, rfl, hm, hd, ho, fun i hi => (packed_writeMem s _ _ (by simp) ?_ hi).trans ?_⟩
  · intro x hx
    obtain ⟨c, -, rfl⟩ := List.mem_map.1 hx
    exact Nat.mod_lt _ (Nat.two_pow_pos _)
  · simp [State.coeff, List.getD_eq_getElem?_getD, hi]

/-- Settles O46: the checks, then the values packed in the region. -/
theorem polyDecompressUnpacks : Obligations.PolyDecompressUnpacks := by
  intro s rd imm4
  simp only [exec, execPolyDecompress, guarded_eq, State.checked_depth, State.checked_region, State.checked_length,
    State.checked_nil]
  exact exists_next_ite (fun _ => failed_raise s _) fun _ => exists_next_ite (fun _ => failed_raise s _) fun _ =>
    exists_next_ite (fun _ => failed_raise s _) fun _ =>
    ⟨_, rfl, onlyReg_setReg .., holds_setReg_map s rd _ (decompress_isElem _ _) (s.decompress_readMem _ _)⟩

/-- Settles O47: the checks, then the values packed in the region once it is written; a canonical residue has 12 bits. -/
theorem polyPack12Packs : Obligations.PolyPack12Packs := by
  intro s rs1
  simp only [exec, execPolyPack12, guarded_eq, State.checked_written, State.checked_region, State.checked_nil]
  refine exists_next_ite (fun _ => failed_raise s _) fun _ => exists_next_ite (fun _ => failed_raise s _) fun _ => ?_
  obtain ⟨hm, hd, ho⟩ := onlyMem_writeMem s (s.arg 0) (pack12_length (s.elem rs1))
  refine ⟨_, rfl, hm, hd, ho, fun i hi => ?_⟩
  have h := packed_writeMem s (s.arg 0) 12 (v := (s.elem rs1).map canon) (by simp) (fun x hx => ?_) hi
  · rw [pack12, h, List.getD_eq_getElem _ _ (by simpa using hi), List.getElem_map, ← s.coeff_eq rs1 i hi]
    exact Int.toNat_of_nonneg (Int.emod_nonneg _ (by decide))
  · obtain ⟨c, -, rfl⟩ := List.mem_map.1 hx
    exact (canon_lt c).trans (by decide)

/-- Settles O48: the static checks, then whether a value packed in the region is q or more. -/
theorem polyUnpack12Checks : Obligations.PolyUnpack12Checks := by
  intro s rd imm4
  simp only [exec, execPolyUnpack12, guarded_eq, State.checked_tagSelect, State.checked_region, State.checked_length,
    State.checked_nil, s.unpack12_readMem, ite_or]
  refine exists_next_ite (fun _ => failed_raise s _) fun _ => exists_next_ite (fun _ => failed_raise s _) fun _ =>
    exists_next_ite (fun _ => failed_raise s _) fun _ => ?_
  by_cases hq : ((List.range 256).any fun i => decide (3329 ≤ s.packed 12 (s.arg 0) i)) = true
  · simp only [if_pos hq]
    exact ⟨_, rfl, failed_raise s _⟩
  · simp only [if_neg hq]
    exact ⟨_, rfl, onlyReg_setReg .., holds_setReg_map s rd _ (isElem_map_range_reduce _) rfl⟩

end Sys2Proof.Machine
end

section
/-! SUPPORT. SIG_SIGN (R304, R306). -/

namespace Sys2Proof.Machine

/-- The signature written once the key is cleared is the only thing that changes DMEM (R306). -/
theorem onlyMem_sign (s : State) (seeded : Bool) (n addr len out : Nat) (sig : Bytes) :
    OnlyMem s ((((s.keyCleared true addr len).afterRandom seeded n).writeMem out sig).complete .ok) := by
  have hk := s.keyCleared_kept true addr len
  have hf := s.keyCleared_flags true addr len
  refine ⟨ended_complete ?_ _, ?_, ?_⟩
  · constructor <;> simp [hk.cmdl, hk.args, hk.argl, hk.hz, hk.hzl, hk.port, hk.seen]
  · simp [s.keyCleared_pr]
  · constructor <;> simp [hf.eq, hf.kst, hf.result0, hf.result1]

/-- Settles O56: the key's own check, then the checks with the key cleared, then whether the key can be used. -/
theorem sigSignSignsAndClears : Obligations.SigSignSignsAndClears := by
  intro s seeded
  simp only [exec, execSigSign, guarded_eq, State.checked_region, State.checked_regionIf, State.checked_length, State.checked_nil,
    ← ite_or, State.randomBytes_eq, State.afterRandom_holding, State.writeMem_holding, State.complete_holding]
  refine exists_next_ite (fun _ => failed_raise s _) fun _ =>
    exists_next_ite (fun _ => s.failedCleared_raise true _ _ true 0 _) fun _ =>
    exists_next_ite (fun _ => s.failedCleared_raise true _ _ true 0 _) fun _ => ?_
  cases hs : signMessage Config.params (s.readMem (s.arg 0) sigSkLen) (s.readMem (s.arg 2) (s.arg 3))
      (if seeded then s.readMem (s.arg 5) sigRndLen else s.entropyBytes 0 sigRndLen) with
  | none => exact ⟨_, rfl, s.failedCleared_raise true _ _ seeded _ _⟩
  | some sig =>
    refine ⟨_, rfl, onlyMem_sign s seeded sigRndLen (s.arg 0) (s.arg 1) (s.arg 4) sig, signMessage_length hs,
      State.afterRandom_drawn_eq _ seeded sigRndLen, fun a => ?_⟩
    simp only [State.complete_byte, State.writeMem_byte, State.afterRandom_byte_eq]
    rw [State.clearKey, State.writeMem_byte_eq]

end Sys2Proof.Machine
end

section
/-! SUPPORT. Hung commands: what they depend on, that their checks pass and that they go on sampling (R215, R348, R371). -/

namespace Sys2Proof.Machine

/-! ## What a hung command depends on -/

/-- `t` differs from `s` at most in HZ, scratch, the host's side and the indices of the model's choices: a command that is pending
in `s` is still pending, with nothing of it visible and the same values to read (R86, R348). -/
structure StillPending (s t : State) : Prop where
  busy : t.busy = s.busy
  done : t.done = s.done
  err : t.err = s.err
  cmdl : t.cmdl = s.cmdl
  argl : t.argl = s.argl
  regs : t.pr = s.pr
  dmem : t.dmem = s.dmem
  flags : FlagsKept s t
  drawn : t.drawn = s.drawn

/-- Whether a command hangs depends on what `StillPending` keeps only. -/
theorem Hangs.of_stillPending {s t : State} {i : Instr} (h : Hangs s i) (hk : StillPending s t) : Hangs t i := by
  obtain ⟨hbusy, -, -, hcmdl, hargl, hregs, hdmem, -, hdrawn⟩ := hk
  cases s
  cases t
  subst hbusy hcmdl hargl hregs hdmem hdrawn
  exact ⟨h.busy, h.command, h.static, h.dynamic, h.stream⟩

/-! ## Its static checks pass -/

theorem staticError_eq_none {s : State} {i : Instr} (h : staticError s i = none) :
    (∀ r ∈ regions s i, ¬ OutOf r.1 r.2) ∧ (∀ p ∈ lengths s i, p.1 = p.2) ∧ shortBlob s i = false := by
  have hp := firstError_eq_none.1 h
  simp only [List.forall_mem_append, List.forall_mem_map, List.forall_mem_singleton] at hp
  obtain ⟨⟨⟨-, hreg⟩, hlen⟩, hshort⟩ := hp
  exact ⟨fun r hr => of_decide_eq_false (hreg r hr), fun p hl => by simpa using hlen p hl, hshort⟩

section
variable {b : Bool} {addr n want : Nat} {cs : List (Bool × Code)}

theorem passes_cons {c : Code} : firstError ((b, c) :: cs) = none ↔ b = false ∧ firstError cs = none := by cases b <;> simp

@[simp] theorem passes_region : firstError (chkRegion addr n :: cs) = none ↔ ¬ OutOf addr n ∧ firstError cs = none := by
  simp [chkRegion, passes_cons, inBounds]

@[simp] theorem passes_regionIf :
    firstError (chkRegionIf b addr n :: cs) = none ↔ (b = true → ¬ OutOf addr n) ∧ firstError cs = none := by
  simp [chkRegionIf, passes_cons, inBounds]

@[simp] theorem passes_length : firstError (chkLength n want :: cs) = none ↔ n = want ∧ firstError cs = none := by
  simp [chkLength, passes_cons]

@[simp] theorem passes_lengthIf :
    firstError (chkLengthIf b n want :: cs) = none ↔ (b = true → n = want) ∧ firstError cs = none := by
  simp [chkLengthIf, passes_cons]

@[simp] theorem passes_blob : firstError (chkBlob n want :: cs) = none ↔ ¬ n < want ∧ firstError cs = none := by
  simp [chkBlob, passes_cons]

end

/-- What holds of the entries of a list that is there only under a condition. -/
theorem forall_mem_ite_nil {α : Type} {b : Bool} {l : List α} {p : α → Prop} :
    (∀ x ∈ if b then l else [], p x) ↔ (b = true → ∀ x ∈ l, p x) := by cases b <;> simp

/-- A command whose checks pass and whose streams have not yielded their values goes on sampling. -/
theorem guarded_sampled_none {α : Type} {s : State} {cs : List (Bool × Code)} (h : firstError cs = none) (held : Scratch)
    {r : Option α} (hr : r = none) (t : α → State) : guarded s cs (sampled s held r t) = .next (s.keepSampling held) := by
  subst hr
  rw [guarded_eq, State.checked_of_none h]
  rfl

/-! ## Its streams do not yield their values -/

theorem allSome_eq_none {α : Type} : ∀ {l : List (Option α)}, none ∈ l → allSome l = none
  | none :: _, _ => rfl
  | some a :: l, h => by
    have hl : none ∈ l := by simpa using h
    rw [allSome, allSome_eq_none hl]
    rfl

/-- The matrix is not expanded while one of its streams hangs (R216). -/
theorem expandA_eq_none {rho : Bytes} (h : ∃ str ∈ matrixStreams rho, RejHangs str) (fuel : Nat) :
    expandA Config.params fuel rho = none := by
  obtain ⟨str, hm, hs⟩ := h
  obtain ⟨i, hi, hm⟩ := List.mem_flatMap.1 hm
  obtain ⟨j, hj, rfl⟩ := List.mem_map.1 hm
  have hrej : rej Config.params fuel rho i j = none := hs fuel
  refine allSome_eq_none (List.mem_map.2 ⟨i, hi, allSome_eq_none (List.mem_map.2 ⟨j, hj, ?_⟩)⟩)
  rw [hrej]
  rfl

section
variable {P : Config.Params} {fuel : Nat}

theorem keygenInternal_eq_none {d z : Bytes} (h : expandA P fuel ((P.hashG d).toList.take 32) = none) :
    keygenInternal P fuel d z = none := by
  have h0 : expandA P fuel (slice (P.hashG d).toList 0 32) = none := h
  rw [keygenInternal, keygenWork, h0]
  rfl

theorem encapsInternal_eq_none {pk : PublicKey} {m b : Bytes} (h : expandA P fuel pk.rho = none) :
    encapsInternal P fuel pk m b = none := by
  rw [encapsInternal, encapsWork, h]
  rfl

theorem decapsInternal_eq_none {sk : SecretKey} {ct : Bytes} (h : expandA P fuel sk.pk.rho = none) :
    decapsInternal P fuel sk ct = none := by
  rw [decapsInternal, decapsWork, encapsWork, h]
  rfl

theorem buildBlob_eq_none {pk : PublicKey} {b m nonce payload : Bytes} (h : expandA P fuel pk.rho = none) :
    buildBlob P fuel pk b m nonce payload = none := by
  rw [buildBlob, encapsInternal_eq_none h]
  rfl

theorem openBlob_eq_none {signed : Bool} {off : Nat} {sk : SecretKey} {blob : Bytes} (h : expandA P fuel sk.pk.rho = none) :
    openBlob P fuel signed off sk blob = none := by
  rw [openBlob, decapsInternal_eq_none h]
  rfl

end

/-! ## The parsed keys' seeds (R267, R269) -/

theorem parsePk_rho {b : Bytes} {pk : PublicKey} (h : parsePk b = some pk) : pk.rho = slice b 0 32 := by
  unfold parsePk at h
  split at h
  · cases h
  · obtain ⟨t, -, rfl⟩ := Option.map_eq_some_iff.1 h
    rfl

theorem parseSk_pk {b : Bytes} {sk : SecretKey} (h : parseSk b = some sk) : parsePk (slice b 1152 1184) = some sk.pk := by
  unfold parseSk at h
  split at h
  · cases h
  · split at h
    · rename_i hpk
      cases h
      exact hpk
    · cases h

theorem State.parsePk_readMem_rho (s : State) {a : Nat} {pk : PublicKey} (h : parsePk (s.readMem a 1184) = some pk) :
    pk.rho = s.readMem a 32 := (parsePk_rho h).trans (s.slice_readMem a 1184 0 32 (by omega))

theorem State.parseSk_readMem_rho (s : State) {a : Nat} {sk : SecretKey} (h : parseSk (s.readMem a 2400) = some sk) :
    sk.pk.rho = s.readMem (a + 1152) 32 := by
  have hpk := parseSk_pk h
  rw [s.slice_readMem a 2400 1152 1184 (by omega)] at hpk
  exact s.parsePk_readMem_rho hpk

/-! ## The engine's step of a hung command -/

theorem blobPayload_isSome {P : Config.Params} {signed : Bool} {key : Bytes} (h : (!signed || P.sigUsable key) = true)
    (report rnd : Bytes) :
    ∃ payload, blobPayload P signed (if signed then key else []) report rnd = some payload := by
  cases signed
  · exact ⟨report, rfl⟩
  · simp only [Bool.not_true, Bool.false_or] at h
    simp [blobPayload, signMessage, h]

theorem Hangs.rejSample_eq {s : State} {rd : PReg} (h : Hangs s (.rejSample rd)) :
    ∃ w, exec (.rejSample rd) s = .next (s.keepSampling w) := by
  obtain ⟨hreg, -, -⟩ := staticError_eq_none h.static
  obtain ⟨str, hm, hs⟩ := h.stream
  obtain rfl := List.mem_singleton.1 hm
  have hi (v : Nat) : BitVec.ofNat 8 (idx8 v) = BitVec.ofNat 8 v := BitVec.eq_of_toNat_eq (Nat.mod_mod v 256)
  refine ⟨Scratch.zero, guarded_sampled_none ?_ _ ?_ _⟩
  · simp only [passes_region, firstError_nil, and_true]
    exact hreg _ (List.mem_singleton_self _)
  · rw [rej, hi, hi]
    exact hs _

theorem Hangs.kemKeygen_eq {s : State} {seeded : Bool} (h : Hangs s (.kemKeygen seeded)) :
    ∃ w, exec (.kemKeygen seeded) s = .next (s.keepSampling w) := by
  obtain ⟨hreg, -, -⟩ := staticError_eq_none h.static
  simp only [regions, List.forall_mem_append, forall_mem_ite_nil, List.forall_mem_cons, List.not_mem_nil,
    false_implies, implies_true, and_true] at hreg
  obtain ⟨⟨hpk, hsk⟩, hseed⟩ := hreg
  refine ⟨Scratch.zero, (execKemKeygen_eq seeded s).trans (guarded_sampled_none ?_ _ (keygenInternal_eq_none ?_) _)⟩
  · simp only [passes_region, passes_regionIf, firstError_nil, and_true]
    exact ⟨hpk, hsk, hseed⟩
  · rw [State.slice_randomBytes _ _ _ _ _ _ (by omega), Nat.add_zero]
    exact expandA_eq_none h.stream _

theorem Hangs.kemEncaps_eq {s : State} {seeded : Bool} (h : Hangs s (.kemEncaps seeded)) :
    ∃ w, exec (.kemEncaps seeded) s = .next (s.keepSampling w) := by
  obtain ⟨hreg, hlen, -⟩ := staticError_eq_none h.static
  simp only [regions, lengths, List.forall_mem_append, forall_mem_ite_nil, List.forall_mem_cons, List.not_mem_nil,
    false_implies, implies_true, and_true] at hreg hlen
  obtain ⟨⟨hpk, hct, hss⟩, hseed⟩ := hreg
  obtain ⟨pk, hp⟩ : ∃ pk, parsePk (s.readMem (s.arg 0) 1184) = some pk := Option.isSome_iff_exists.1 h.dynamic
  refine ⟨{ keys := pk.t }, (execKemEncaps_eq seeded s).trans ?_⟩
  rw [hp]
  refine guarded_sampled_none ?_ _ (encapsInternal_eq_none ?_) _
  · simp only [passes_region, passes_regionIf, passes_length, firstError_nil, and_true]
    exact ⟨hpk, hct, hss, hseed, hlen⟩
  · rw [s.parsePk_readMem_rho hp]
    exact expandA_eq_none h.stream _

theorem Hangs.kemDecaps_eq {s : State} (h : Hangs s .kemDecaps) : ∃ w, exec .kemDecaps s = .next (s.keepSampling w) := by
  obtain ⟨hreg, hlen, -⟩ := staticError_eq_none h.static
  simp only [regions, lengths, List.forall_mem_cons, List.not_mem_nil, false_implies, implies_true, and_true] at hreg hlen
  obtain ⟨hsk, hct, hss⟩ := hreg
  obtain ⟨sk, hp⟩ : ∃ sk, parseSk (s.readMem (s.arg 0) 2400) = some sk := Option.isSome_iff_exists.1 h.dynamic
  refine ⟨decodeScratch sk (s.readMem (s.arg 2) 1088), (execKemDecaps_eq s).trans ?_⟩
  rw [hp]
  refine guarded_sampled_none ?_ _ (decapsInternal_eq_none ?_) _
  · simp only [passes_region, passes_length, firstError_nil, and_true]
    exact ⟨hsk, hct, hss, hlen⟩
  · rw [s.parseSk_readMem_rho hp]
    exact expandA_eq_none h.stream _

theorem Hangs.blobBuild_eq {s : State} {seeded signed : Bool} (h : Hangs s (.blobBuild seeded signed)) :
    ∃ w, exec (.blobBuild seeded signed) s = .next (s.keepSampling w) := by
  obtain ⟨hreg, hlen, -⟩ := staticError_eq_none h.static
  simp only [regions, lengths, List.forall_mem_append, forall_mem_ite_nil, List.forall_mem_cons, List.not_mem_nil,
    false_implies, implies_true, and_true] at hreg hlen
  obtain ⟨⟨⟨⟨hreport, hpk⟩, hkey⟩, hblob⟩, hseed⟩ := hreg
  obtain ⟨hpkLen, hkeyLen⟩ := hlen
  have hdyn := h.dynamic
  simp only [reachesSampling, Bool.and_eq_true] at hdyn
  obtain ⟨hparses, husable⟩ := hdyn
  obtain ⟨pk, hp⟩ := Option.isSome_iff_exists.1 hparses
  obtain ⟨payload, hpayload⟩ := blobPayload_isSome husable (s.readMem (s.arg 0) (s.arg 1)) (s.blobRandom seeded signed).rnd
  refine ⟨{ keys := pk.t, signingKey := if signed then s.readMem (s.arg 4) sigSkLen else [] },
    (execBlobBuild_eq seeded signed s).trans ?_⟩
  rw [hp, hpayload, State.checked_of_none]
  · refine guarded_sampled_none ?_ _ (buildBlob_eq_none ?_) _
    · simp only [passes_region, passes_regionIf, firstError_nil, and_true]
      exact ⟨hreport, hpk, hkey⟩
    · rw [s.parsePk_readMem_rho hp]
      exact expandA_eq_none h.stream _
  · simp only [passes_region, passes_regionIf, passes_length, passes_lengthIf, firstError_nil, and_true]
    exact ⟨hblob, hseed, hpkLen, hkeyLen⟩

theorem Hangs.blobOpen_eq {s : State} {signed : Bool} (h : Hangs s (.blobOpen signed)) :
    ∃ w, exec (.blobOpen signed) s = .next (s.keepSampling w) := by
  obtain ⟨hreg, hlen, hshort⟩ := staticError_eq_none h.static
  simp only [regions, lengths, List.forall_mem_cons, List.not_mem_nil, false_implies, implies_true, and_true] at hreg hlen
  obtain ⟨hblob, hsk, hreport⟩ := hreg
  obtain ⟨sk, hp⟩ : ∃ sk, parseSk (s.readMem (s.arg 2) 2400) = some sk := Option.isSome_iff_exists.1 h.dynamic
  refine ⟨decodeScratch sk (slice (s.readMem (s.arg 0) (s.arg 1)) 0 1088), (execBlobOpen_eq signed s).trans ?_⟩
  rw [hp]
  refine guarded_sampled_none ?_ _ (openBlob_eq_none ?_) _
  · simp only [passes_region, passes_length, passes_blob, firstError_nil, and_true]
    exact ⟨hblob, hsk, hreport, hlen, of_decide_eq_false hshort⟩
  · rw [s.parseSk_readMem_rho hp]
    exact expandA_eq_none h.stream _

/-- A hung command goes on sampling in every step of the engine (R215, R348). -/
theorem Hangs.exec_eq {s : State} {i : Instr} (h : Hangs s i) : ∃ w, exec i s = .next (s.keepSampling w) := by
  cases i with
  | rejSample => exact h.rejSample_eq
  | kemKeygen => exact h.kemKeygen_eq
  | kemEncaps => exact h.kemEncaps_eq
  | kemDecaps => exact h.kemDecaps_eq
  | blobBuild => exact h.blobBuild_eq
  | blobOpen => exact h.blobOpen_eq
  | nop | polyLoad | polyStore | polyReduce | polyAdd | polySub | polyEq | polyClear | zeroize | nttFwd | nttInv | pmul | cbdSample
  | polyCompress | polyDecompress | polyPack12 | polyUnpack12 | sigKeygen | sigSign | sigVerify =>
    exact absurd h.dynamic Bool.false_ne_true

theorem Hangs.engine_step {s : State} {i : Instr} (h : Hangs s i) (hp : s.port = [] ∨ s.delay = 0) :
    ∃ w, step s = .next (s.keepSampling w) := by
  rw [step_engine h.busy hp, engineTurn, State.command, h.command]
  exact h.exec_eq

/-! ## The host's turn -/

/-- A write while a command is pending resets the block or touches HZ only (R55, R371). -/
theorem WriteEffect.stillPending {s u : State} {bytes off : Nat} {v : Word} (h : WriteEffect s bytes off v u)
    (hb : s.busy = true) : StillPending s u ∨ off = 0x020 ∧ v.getLsbD 0 = true := by
  cases h with
  | reset ho hv => exact .inr ⟨ho, hv⟩
  | clearHz | dropped | ignored => exact .inl ⟨rfl, rfl, rfl, rfl, rfl, rfl, rfl, ⟨rfl, rfl, rfl, rfl⟩, rfl⟩
  | accepted _ hi | arg _ _ hi | stored _ hi => exact absurd (hi.symm.trans hb) Bool.false_ne_true

/-- The host's turn but for a soft reset, while a command is pending. -/
theorem stillPending_of_hostTurn {s t : State} (hb : s.busy = true) (h : hostTurn s.hostPasses = .next t) :
    StillPending s t ∨ ∃ (v : Word) (rest : List BusAction), s.port = .write 4 0x020 v :: rest ∧ v.getLsbD 0 = true := by
  match hp : s.port with
  | [] =>
    rw [hostTurn, State.hostPasses_port, hp] at h
    cases h
    exact .inl ⟨rfl, rfl, rfl, rfl, rfl, rfl, rfl, ⟨rfl, rfl, rfl, rfl⟩, rfl⟩
  | .read bytes off :: rest =>
    rw [hostTurn_read hp] at h
    obtain ⟨-, rfl⟩ := access_eq_next h
    rw [State.afterRead_eq]
    exact .inl ⟨rfl, rfl, rfl, rfl, rfl, rfl, rfl, ⟨rfl, rfl, rfl, rfl⟩, rfl⟩
  | .write bytes off v :: rest =>
    rw [hostTurn_write hp] at h
    obtain ⟨hl, rfl⟩ := access_eq_next h
    rcases (State.afterWrite_effect (s.taken rest) bytes off v).stillPending hb with hk | ⟨rfl, hv⟩
    · exact .inl ⟨hk.busy, hk.done, hk.err, hk.cmdl, hk.argl, hk.regs, hk.dmem,
        ⟨hk.flags.eq, hk.flags.kst, hk.flags.result0, hk.flags.result1⟩, hk.drawn⟩
    · obtain rfl := hl.bytes_eq (by omega)
      exact .inr ⟨v, rest, rfl, hv⟩
  | .wait :: rest =>
    rw [hostTurn, State.hostPasses_port, hp] at h
    cases h
    rw [if_pos (show s.hostPasses.busy = true from hb)]
    exact .inl ⟨rfl, rfl, rfl, rfl, rfl, rfl, rfl, ⟨rfl, rfl, rfl, rfl⟩, rfl⟩

/-- Every step of a hung command but a soft reset leaves it pending, with nothing of it visible. -/
theorem Hangs.stillPending {s t : State} {i : Instr} (h : Hangs s i) (hstep : step s = .next t) (hr : ¬ s.ResetsNext) :
    StillPending s t := by
  by_cases hp : s.port = [] ∨ s.delay = 0
  · obtain ⟨w, hw⟩ := h.engine_step hp
    obtain rfl := Host.Outcome.next.inj (hw.symm.trans hstep)
    exact ⟨rfl, rfl, rfl, rfl, rfl, rfl, rfl, ⟨rfl, rfl, rfl, rfl⟩, rfl⟩
  · rw [not_or] at hp
    rw [step_host (.inr hp)] at hstep
    exact (stillPending_of_hostTurn h.busy hstep).resolve_right fun hw => hr ⟨hp.2, hw⟩

/-- Settles O40: the hang through each turn, and the soft reset by whether the engine still goes before it. -/
theorem hangLastsUntilReset : Obligations.HangLastsUntilReset := by
  refine ⟨fun s t i h hstep hr => ?_, fun s i v rest h hp hv => ?_⟩
  · have hk := h.stillPending hstep hr
    exact ⟨h.of_stillPending hk, hk.done, hk.err, hk.regs, fun a => congrArg (Memory.read · a) hk.dmem, hk.flags⟩
  · have hreset (u : State) (hu : u.port = .write 4 0x020 v :: rest) (hd : u.delay ≠ 0) :
        step u = .next { State.reset with port := rest, seen := u.seen, drawn := u.drawn, choices := u.choices } := by
      rw [controlWrites u v rest hu (.inr hd), if_pos hv]
    by_cases hd : s.delay = 0
    · obtain ⟨w, hw⟩ := h.engine_step (.inr hd)
      exact ⟨_, s.choices + 1, .inr ⟨_, hw, hreset (s.keepSampling w) hp (Nat.succ_ne_zero _)⟩, rfl⟩
    · exact ⟨_, s.choices, .inl (hreset s hp hd), rfl⟩

end Sys2Proof.Machine
end

section
/-! SUPPORT. The decoder against the encoder and the opcode table (R111 to R117, R128). -/

namespace Sys2Proof.Laws.OpcodeRow

/-- Every command stands in its row of the opcode map. -/
theorem all (i : Instr) : Statement i := by
  cases i with
  | nop => exact nop
  | polyLoad => exact polyLoad ..
  | polyStore => exact polyStore ..
  | polyReduce => exact polyReduce ..
  | polyAdd => exact polyAdd ..
  | polySub => exact polySub ..
  | polyEq => exact polyEq ..
  | polyClear => exact polyClear ..
  | zeroize => exact zeroize
  | nttFwd => exact nttFwd ..
  | nttInv => exact nttInv ..
  | pmul => exact pmul ..
  | cbdSample => exact cbdSample ..
  | rejSample => exact rejSample ..
  | polyCompress => exact polyCompress ..
  | polyDecompress => exact polyDecompress ..
  | polyPack12 => exact polyPack12 ..
  | polyUnpack12 => exact polyUnpack12 ..
  | kemKeygen => exact kemKeygen ..
  | kemEncaps => exact kemEncaps ..
  | kemDecaps => exact kemDecaps
  | sigKeygen => exact sigKeygen ..
  | sigSign => exact sigSign ..
  | sigVerify => exact sigVerify
  | blobBuild => exact blobBuild ..
  | blobOpen => exact blobOpen ..

end Sys2Proof.Laws.OpcodeRow

namespace Sys2Proof

/-! ## The tests of R116 -/

theorem Fields.unusedZero_iff {f : Fields} {u : Uses} : f.unusedZero u = true ↔
    (u.rd = false → f.rd = 0) ∧ (u.rs1 = false → f.rs1 = 0) ∧ (u.rs2 = false → f.rs2 = 0) ∧ (u.imm4 = false → f.imm4 = 0) := by
  simp [Fields.unusedZero, or_iff_not_imp_left, and_assoc]

theorem Fields.flagsTaken_iff {f : Fields} {u : Uses} : f.flagsTaken u = true ↔
    (u.s = false → f.s = false) ∧ (u.k = false → f.k = false) := by
  simp [Fields.flagsTaken, or_iff_not_imp_left]

/-- Fields that meet R116 for the row of their opcode are all kept in the command the row makes: a row uses exactly the fields its
command holds. -/
theorem fields_of_row {f : Fields} {row : Uses × (Fields → Instr)} (h : opcodeMap f.opc = some row) (hres : f.res = 0)
    (hz : f.unusedZero row.1 = true) (hf : f.flagsTaken row.1 = true) : (row.2 f).fields = f := by
  obtain ⟨hrd, hrs1, hrs2, himm4⟩ := Fields.unusedZero_iff.1 hz
  obtain ⟨hs, hk⟩ := Fields.flagsTaken_iff.1 hf
  obtain ⟨opc, rd, rs1, rs2, imm4, s, k, res⟩ := f
  have hopc : opc = BitVec.ofNat 8 opc.toNat := by simp
  dsimp only at *
  unfold opcodeMap at h
  split at h
  case h_27 => cases h
  all_goals
    rename_i ho
    rw [ho] at hopc
    cases h
    simp [Instr.fields, hopc, hres, hrd, hrs1, hrs2, himm4, hs, hk]

/-- Whether the command a row makes is well formed is decided by IMM4 (R113). -/
theorem wf_of_row {o : BitVec 8} {row : Uses × (Fields → Instr)} (h : opcodeMap o = some row) (f : Fields) :
    (row.2 f).wf = (row.2 { opc := 0, imm4 := f.imm4 }).wf := by
  unfold opcodeMap at h
  split at h <;> cases h <;> rfl

/-- The decoder refuses a word that fails a test, else it goes on. -/
theorem refuse_eq_instr_iff {c : Prop} [Decidable c] {why : IllegalWord} {d : Decoded} {i : Instr} :
    (if c then .illegal why else d) = .instr i ↔ ¬ c ∧ d = .instr i := by
  by_cases h : c <;> simp [h]

/-- A word is a command exactly when its opcode has a row, its fields pass the tests of R116 and the row makes the command. -/
theorem decode_eq_instr_iff {w : Word} {i : Instr} : decode w = .instr i ↔
    ∃ row, opcodeMap (Fields.ofWord w).opc = some row ∧ (Fields.ofWord w).res = 0 ∧ (Fields.ofWord w).unusedZero row.1 = true ∧
      (Fields.ofWord w).flagsTaken row.1 = true ∧ (row.2 (Fields.ofWord w)).wf = true ∧ row.2 (Fields.ofWord w) = i := by
  unfold decode
  generalize Fields.ofWord w = f
  cases h : opcodeMap f.opc with
  | none => simp [h]
  | some row =>
    simp only [h, refuse_eq_instr_iff, Option.some.injEq, exists_eq_left', Decoded.instr.injEq]
    simp

/-- Settles O1: the fields of the word are those of the command, which stands in its row of the opcode map. -/
theorem decodeOfEncode : Obligations.DecodeOfEncode := by
  intro i hw
  obtain ⟨row, ho, hres, hz, hf, hi⟩ := Laws.OpcodeRow.all i
  rw [decode_eq_instr_iff, encode, Fields.ofWord_toWord]
  exact ⟨row, ho, hres, hz, hf, by rwa [hi], hi⟩

/-- Settles O2: the command of a legal word has the word's own fields. -/
theorem encodeOfDecode : Obligations.EncodeOfDecode := by
  intro w i h
  obtain ⟨row, ho, hres, hz, hf, hw, rfl⟩ := decode_eq_instr_iff.1 h
  exact ⟨hw, by rw [encode, fields_of_row ho hres hz hf, Fields.toWord_ofWord]⟩

/-! ## The opcode table (R113, R115) -/

/-- The bits of a word that an opcode with the given uses fixes: 1 in every field that it does not use, OPC and RES among them. -/
def Uses.fixed (u : Uses) : Fields where
  opc := 0xFF
  rd := if u.rd then 0 else 31
  rs1 := if u.rs1 then 0 else 31
  rs2 := if u.rs2 then 0 else 31
  imm4 := if u.imm4 then 0 else 15
  s := !u.s
  k := !u.k
  res := 7

/-- The values of IMM4 a row of the opcode map takes: those with which its command is well formed, and 0 only where it does not use
the field. -/
def rowImms (row : Uses × (Fields → Instr)) : List (BitVec 4) :=
  ((List.range 16).map (BitVec.ofNat 4)).filter fun d => (row.1.imm4 || d == 0) && (row.2 { opc := 0, imm4 := d }).wf

theorem mem_rowImms {row : Uses × (Fields → Instr)} {d : BitVec 4} :
    d ∈ rowImms row ↔ (row.1.imm4 = false → d = 0) ∧ (row.2 { opc := 0, imm4 := d }).wf = true := by
  have hd : d ∈ (List.range 16).map (BitVec.ofNat 4) := List.mem_map.2 ⟨d.toNat, List.mem_range.2 d.isLt, by simp⟩
  simp [rowImms, List.mem_filter, hd, or_iff_not_imp_left]

/-- The row of an opcode in the opcode table, read off the opcode map. -/
def tableRow (o : BitVec 8) : Option Machine.OpcodeRow :=
  (opcodeMap o).map fun row => ⟨Fields.toWord { opc := o }, row.1.fixed.toWord, rowImms row⟩

/-- The opcode table of the spec is the opcode map, by rising opcode. -/
theorem opcodeRows_eq : Machine.opcodeRows = ((List.range 256).map (BitVec.ofNat 8)).filterMap tableRow := by decide

theorem mem_opcodeRows {r : Machine.OpcodeRow} : r ∈ Machine.opcodeRows ↔ ∃ o, tableRow o = some r := by
  rw [opcodeRows_eq, List.mem_filterMap]
  refine ⟨fun ⟨o, _, h⟩ => ⟨o, h⟩, fun ⟨o, h⟩ => ⟨o, ?_, h⟩⟩
  exact List.mem_map.2 ⟨o.toNat, List.mem_range.2 o.isLt, by simp⟩

theorem Fields.ofWord_and (v w : Word) : Fields.ofWord (v &&& w) =
    { opc := (ofWord v).opc &&& (ofWord w).opc
      rd := (ofWord v).rd &&& (ofWord w).rd
      rs1 := (ofWord v).rs1 &&& (ofWord w).rs1
      rs2 := (ofWord v).rs2 &&& (ofWord w).rs2
      imm4 := (ofWord v).imm4 &&& (ofWord w).imm4
      s := (ofWord v).s && (ofWord w).s
      k := (ofWord v).k && (ofWord w).k
      res := (ofWord v).res &&& (ofWord w).res } := by
  simp [ofWord, BitVec.extractLsb'_and]

/-- A word matches the mask of a row with its opcode as value exactly when its fields meet R116 (a), (b), (c) and (e). -/
theorem and_fixed_eq_iff (w : Word) (u : Uses) (o : BitVec 8) : w &&& u.fixed.toWord = Fields.toWord { opc := o } ↔
    (Fields.ofWord w).opc = o ∧ (Fields.ofWord w).res = 0 ∧ (Fields.ofWord w).unusedZero u = true ∧
      (Fields.ofWord w).flagsTaken u = true := by
  have hinj : w &&& u.fixed.toWord = Fields.toWord { opc := o } ↔ Fields.ofWord (w &&& u.fixed.toWord) = { opc := o } :=
    ⟨fun h => by rw [h, Fields.ofWord_toWord], fun h => by rw [← h, Fields.toWord_ofWord]⟩
  have hreg (b : Bool) (r : PReg) : r &&& (if b then 0 else 31) = 0 ↔ (b = false → r = 0) := by revert b r; decide
  have himm (b : Bool) (d : BitVec 4) : d &&& (if b then 0 else 15) = 0 ↔ (b = false → d = 0) := by revert b d; decide
  have hflag (b c : Bool) : (c && !b) = false ↔ (b = false → c = false) := by revert b c; decide
  have hopc (d : BitVec 8) : d &&& 0xFF = d := BitVec.and_allOnes
  have hres (d : BitVec 3) : d &&& 7 = d := BitVec.and_allOnes
  rw [hinj, Fields.ofWord_and, Fields.ofWord_toWord, Fields.unusedZero_iff, Fields.flagsTaken_iff]
  simp only [Uses.fixed, Fields.mk.injEq, hreg, himm, hflag, hopc, hres]
  tauto

/-- Settles O3: a legal word matches the row of its opcode, and a word that matches a row has its opcode. -/
theorem legalWordsAreTheTable : Obligations.LegalWordsAreTheTable := by
  intro w
  constructor
  · rintro ⟨i, h⟩
    obtain ⟨row, ho, hres, hz, hf, hw, -⟩ := decode_eq_instr_iff.1 h
    refine ⟨_, mem_opcodeRows.2 ⟨(Fields.ofWord w).opc, by rw [tableRow, ho]; rfl⟩, (and_fixed_eq_iff ..).2 ⟨rfl, hres, hz, hf⟩, ?_⟩
    obtain ⟨-, -, -, hunused⟩ := Fields.unusedZero_iff.1 hz
    exact mem_rowImms.2 ⟨hunused, (wf_of_row ho _).symm.trans hw⟩
  · rintro ⟨r, hr, hm, hd⟩
    obtain ⟨o, ho⟩ := mem_opcodeRows.1 hr
    obtain ⟨row, hrow, rfl⟩ := Option.map_eq_some_iff.1 ho
    obtain ⟨rfl, hres, hz, hf⟩ := (and_fixed_eq_iff ..).1 hm
    obtain ⟨-, hlegal⟩ := mem_rowImms.1 hd
    exact ⟨_, decode_eq_instr_iff.2 ⟨row, hrow, hres, hz, hf, (wf_of_row hrow _).trans hlegal, rfl⟩⟩

/-! ## The worked words (R128) -/

/-- Settles O4: each word is decoded. -/
theorem specWordsDecode : Obligations.SpecWordsDecode := by
  unfold Obligations.SpecWordsDecode
  decide

end Sys2Proof
end

section
/-! SUPPORT. The engine's step of an illegal word (R118) and REJ_SAMPLE (R215). -/

namespace Sys2Proof.Machine

/-- Settles O6: the engine raises the error in the state before the command. -/
theorem illegalWordCompletes : Obligations.IllegalWordCompletes := by
  intro s why hb hp hd
  refine ⟨s.raise .illegal, ?_, failed_raise s .illegal, rfl⟩
  rw [step_engine hb hp, engineTurn, State.command, hd]

/-- The stream of REJ_SAMPLE in terms of the latched arguments: the XOF input takes their low bytes (R213, R215). -/
theorem rej_idx8 (P : Config.Params) (fuel : Nat) (rho : Bytes) (row col : Nat) :
    rej P fuel rho (idx8 row) (idx8 col) = rejLoop (P.xofA (rho ++ [BitVec.ofNat 8 col, BitVec.ofNat 8 row])) fuel 0 [] := by
  have h (v : Nat) : BitVec.ofNat 8 (idx8 v) = BitVec.ofNat 8 v := BitVec.eq_of_toNat_eq (Nat.mod_mod v 256)
  rw [rej, h, h]

/-- Settles O39: the check, then whether the stream has yielded its values. -/
theorem rejSampleFromStream : Obligations.RejSampleFromStream := by
  intro s rd
  simp only [exec, execRejSample, guarded_eq, State.checked_region, State.checked_nil, ← rej_idx8]
  refine exists_next_ite (fun _ => failed_raise s _) fun _ => ?_
  cases hr : rej Config.params s.groups (s.readMem (s.arg 0) 32) (idx8 (s.arg 1)) (idx8 (s.arg 2)) with
  | none => exact ⟨_, rfl, waits_keepSampling s _⟩
  | some f => exact ⟨_, rfl, onlyReg_setReg .., s.setReg_tag_self rd f .coeff, s.setReg_elem_self rd .coeff (rej_isElem hr)⟩

end Sys2Proof.Machine
end

section
/-! SUPPORT. The order of the static checks (R343), and what a command whose static checks pass leaves. -/

namespace Sys2Proof.Machine

/-! ## How a command concludes -/

/-- What a command leaves whose static checks pass: it goes on sampling, or it ends with OK or with one of the codes of its dynamic
checks (R343 step 7). -/
inductive Concludes (i : Instr) (s : State) : State → Prop
  | waits (w : Scratch) : Concludes i s (s.keepSampling w)
  | ok {u : State} (h : Kept s u := by constructor <;> simp) : Concludes i s (u.complete .ok)
  | dynamic {u : State} {c : Code} (hc : c ∈ dynamicErrors i) (h : Kept s u := by constructor <;> simp) :
      Concludes i s (u.complete c)

theorem Concludes.sampled {α : Type} {i : Instr} {s : State} {held : Scratch} {r : Option α} {t : α → State}
    (h : ∀ a, r = some a → Concludes i s (t a)) : Concludes i s (sampled s held r t) := by
  cases r with
  | none => exact .waits held
  | some a => exact h a rfl

/-- A command reports a failed static check by ending with its code; if none failed, it concludes. -/
inductive Reports (i : Instr) (s : State) : Option Code → State → Prop
  | error {c : Code} {t : State} (h : Ended s t c) : Reports i s (some c) t
  | passed {t : State} (h : Concludes i s t) : Reports i s none t

theorem kept_refl (s : State) : Kept s s := ⟨rfl, rfl, rfl, rfl, rfl, rfl, rfl⟩

theorem firstError_cons (p : Bool × Code) (cs : List (Bool × Code)) :
    firstError (p :: cs) = if p.1 then some p.2 else firstError cs := rfl

theorem chkRegion_eq (addr len : Nat) : chkRegion addr len = (decide (OutOf addr len), .bounds) := by
  simp [chkRegion, inBounds, ← decide_not]

theorem chkRegionIf_eq (b : Bool) (addr len : Nat) :
    chkRegionIf b addr len = (b && (chkRegion addr len).1, (chkRegion addr len).2) := rfl

theorem chkLengthIf_eq (b : Bool) (len want : Nat) :
    chkLengthIf b len want = (b && (chkLength len want).1, (chkLength len want).2) := rfl

/-- Steps 2 to 6 of R343 in terms of the checks the commands make. -/
theorem staticError_eq (s : State) (i : Instr) : staticError s i =
    firstError ((sources i).map (chkWritten s) ++ [(wrongDomain s i, .domain)] ++ (regions s i).map (fun r => chkRegion r.1 r.2) ++
      (lengths s i).map (fun p => chkLength p.1 p.2) ++ [(shortBlob s i, .auth)]) := by
  simp only [chkRegion_eq]
  rfl

/-- A check that is listed only under a condition. -/
theorem firstError_map_if {α : Type} (b : Bool) (x : α) (f : α → Bool × Code) (cs : List (Bool × Code)) :
    firstError ((if b then [x] else []).map f ++ cs) = if b && (f x).1 then some (f x).2 else firstError cs := by cases b <;> rfl

section
variable {i : Instr} {s t u : State} {cs : List (Bool × Code)} {e : Option Code}

/-- Checks before the rest of a command, whose errors are raised in the state `u`: the key is cleared in it where the command
signs (R304). -/
theorem Reports.after_checks (hu : Kept s u) (h : Reports i s e t) : Reports i s ((firstError cs).or e) (u.checked cs t) := by
  cases he : firstError cs with
  | none => rw [State.checked_of_none he]; exact h
  | some c => rw [State.checked_of_some he]; exact .error (ended_complete hu c)

theorem Reports.checked (hu : Kept s u) (h : Concludes i s t) : Reports i s (firstError cs) (u.checked cs t) := by
  rw [← Option.or_none (o := firstError cs)]
  exact .after_checks hu (.passed h)

/-- A command whose checks, with the later ones that it makes once a key is cleared, are the static checks of R343. That they are is the
comparison of two lists, which each command's use of this lemma leaves to `simp`. -/
theorem Reports.of_checks (later : List (Bool × Code)) (h : Reports i s (firstError later) t)
    (hcs : staticError s i = firstError (cs ++ later) := by
      simp [staticError_eq, sources, wrongDomain, regions, lengths, shortBlob, firstError_cons, firstError_map_if, chkImmediate,
        chkTag, chkSameTag, chkRegionIf_eq, chkLengthIf_eq, chkBlob, ite_or, blobLen, blobRndLen, *]) :
    Reports i s (staticError s i) (s.checked cs t) := by
  rw [hcs, firstError_append]
  exact .after_checks (kept_refl s) h

end

/-! ## The commands -/

theorem openPayload_error_mem {P : Config.Params} {signed : Bool} {off : Nat} {payload : Bytes} {c : Code}
    (h : openPayload P signed off payload = .error c) : c ∈ dynamicErrors (.blobOpen signed) := by
  cases signed
  · cases h
  · simp only [openPayload, if_pos] at h
    split at h
    · cases h; simp [dynamicErrors]
    · split at h
      · cases h; simp [dynamicErrors]
      · split at h <;> cases h
        simp [dynamicErrors]

/-- The errors of opening a blob are those of R326. -/
theorem openBlob_error_mem {P : Config.Params} {fuel : Nat} {signed : Bool} {off : Nat} {sk : SecretKey} {blob : Bytes} {c : Code}
    (h : openBlob P fuel signed off sk blob = some (.error c)) : c ∈ dynamicErrors (.blobOpen signed) := by
  simp only [openBlob, Option.map_eq_some_iff] at h
  obtain ⟨ss, -, h⟩ := h
  rw [openSealed] at h
  split at h
  · cases h; cases signed <;> simp [dynamicErrors]
  · exact openPayload_error_mem h

/-- The checks every command makes are those of R343, in their order, and it concludes where they pass. -/
theorem exec_reports (i : Instr) (s : State) (hw : i.wf = true) : ∃ t, exec i s = .next t ∧ Reports i s (staticError s i) t := by
  cases i with
  | nop | polyStore | polyReduce | polyAdd | polySub | polyEq | polyClear | zeroize | nttFwd | nttInv | pmul | cbdSample
  | polyPack12 | sigVerify => exact ⟨_, rfl, .of_checks [] (.passed .ok)⟩
  | polyLoad | polyCompress | polyDecompress =>
    rw [Instr.wf] at hw
    exact ⟨_, rfl, .of_checks [] (.passed .ok)⟩
  | polyUnpack12 =>
    rw [Instr.wf] at hw
    refine ⟨_, rfl, .of_checks [] (.passed ?_)⟩
    split
    · exact .dynamic (by simp [dynamicErrors])
    · exact .ok
  | rejSample => exact ⟨_, rfl, .of_checks [] (.passed (.sampled fun _ _ => .ok))⟩
  | kemKeygen seeded =>
    exact ⟨_, execKemKeygen_eq seeded s, .of_checks [] (.passed (.sampled fun _ _ => .ok))⟩
  | sigKeygen seeded => exact ⟨_, rfl, .of_checks [] (.passed .ok)⟩
  | kemEncaps seeded =>
    refine ⟨_, execKemEncaps_eq seeded s, .of_checks [] (.passed ?_)⟩
    split
    · exact .dynamic (by simp [dynamicErrors])
    · exact .sampled fun _ _ => .ok
  | kemDecaps =>
    refine ⟨_, execKemDecaps_eq s, .of_checks [] (.passed ?_)⟩
    split
    · exact .dynamic (by simp [dynamicErrors])
    · exact .sampled fun _ _ => .ok
  | sigSign seeded =>
    refine ⟨_, rfl, .of_checks _ (.checked (by constructor <;> simp) ?_)⟩
    split
    · exact .dynamic (by simp [dynamicErrors])
    · exact .ok
  | blobBuild seeded signed =>
    refine ⟨_, execBlobBuild_eq seeded signed s, .of_checks _ (.checked (s.keyCleared_kept signed _ _) ?_)⟩
    split
    · exact .sampled fun _ _ => .ok (by cases signed <;> constructor <;> simp)
    · exact .dynamic (by simp [dynamicErrors]) (by cases signed <;> constructor <;> simp)
  | blobOpen signed =>
    refine ⟨_, execBlobOpen_eq signed s, .of_checks [] (.passed ?_)⟩
    split
    · exact .dynamic (by cases signed <;> simp [dynamicErrors])
    · refine .sampled fun r hr => ?_
      cases r with
      | error c => exact .dynamic (openBlob_error_mem hr)
      | ok report => exact .ok

/-- Settles O7: the static check that failed, or how the command concludes. -/
theorem checkOrder : Obligations.CheckOrder := by
  intro s i hw
  obtain ⟨t, ht, hr⟩ := exec_reports i s hw
  refine ⟨t, ht, ?_⟩
  generalize staticError s i = e at hr ⊢
  cases hr with
  | error h => exact h
  | passed h =>
    cases h with
    | waits w => exact .inl (waits_keepSampling s w)
    | ok h => exact .inr (.inl (ended_complete h _))
    | dynamic hc h => exact .inr (.inr ⟨_, hc, ended_complete h _⟩)

end Sys2Proof.Machine
end

section
/-! SUPPORT. The reducer, POLY_ADD, POLY_SUB, POLY_CLEAR, ZEROIZE and NOP (R150, R154, R155, R157 to R159, R161). -/

namespace Sys2Proof.Machine

/-! ## The reducer -/

/-- Settles O24: existence and uniqueness of the centred residue, then sums and products of reduced values. -/
theorem reduceIsCentred : Obligations.ReduceIsCentred := by
  refine ⟨fun x => ?_, fun a b => ⟨reduce_add a b, reduce_mul a b⟩⟩
  obtain ⟨hlo, hhi⟩ := reduce_centred x
  exact ⟨reduce_emod x, hlo, hhi, fun y hy hlo hhi => eq_reduce_of_centred ⟨hlo, hhi⟩ hy⟩

/-! ## POLY_ADD and POLY_SUB -/

/-- A register written with the reduced results of a coefficient-wise operation on two registers holds them. -/
theorem holds_setReg_zipWith (op : Int → Int → Int) (s : State) (rd rs1 rs2 : PReg) (t : Tag) :
    Holds ((s.setReg rd (List.zipWith (fun a b => reduce (op a b)) (s.elem rs1) (s.elem rs2)) t).complete .ok) rd t
      fun i => reduce (op (s.coeff rs1 i) (s.coeff rs2 i)) := by
  obtain ⟨htag, hcoeff⟩ := holds_setReg s rd t (IsElem.zipWith_reduce op (s.elem_length rs1) (s.elem_length rs2))
  exact ⟨htag, fun i hi => (hcoeff i hi).trans
    (getD_zipWith (fun a b => reduce (op a b)) (by rwa [s.elem_length]) (by rwa [s.elem_length]))⟩

/-- The checks of POLY_ADD and POLY_SUB, then the reduced results of the operation (R154, R155). -/
theorem guarded_zipWith_reduce (op : Int → Int → Int) (s : State) (rd rs1 rs2 : PReg) :
    ∃ t, guarded s [chkWritten s rs1, chkWritten s rs2, chkSameTag s rs1 rs2]
        ((s.setReg rd (List.zipWith (fun a b => reduce (op a b)) (s.elem rs1) (s.elem rs2)) (s.tag rs1)).complete .ok) = .next t ∧
      if s.tag rs1 = .empty ∨ s.tag rs2 = .empty then Failed s t .uninit
      else if s.tag rs1 ≠ s.tag rs2 then Failed s t .domain
      else OnlyReg rd s t ∧ Holds t rd (s.tag rs1) fun i => reduce (op (s.coeff rs1 i) (s.coeff rs2 i)) := by
  simp only [guarded_eq, State.checked_written, State.checked_sameTag, State.checked_nil, ← ite_or]
  exact exists_next_ite (fun _ => failed_raise s _) fun _ => exists_next_ite (fun _ => failed_raise s _) fun _ =>
    ⟨_, rfl, onlyReg_setReg .., holds_setReg_zipWith op s rd rs1 rs2 _⟩

/-- Settles O28: both commands are one coefficient-wise operation. -/
theorem polyAddAndSub : Obligations.PolyAddAndSub := fun s rd rs1 rs2 =>
  ⟨guarded_zipWith_reduce (· + ·) s rd rs1 rs2, guarded_zipWith_reduce (· - ·) s rd rs1 rs2⟩

/-! ## POLY_CLEAR, ZEROIZE and NOP -/

/-- A cleared register is EMPTY and holds zeros (R34, R157). -/
theorem holds_of_get_cleared {t : State} {r : PReg} (h : t.pr.get r = PolyReg.cleared) : Holds t r .empty fun _ => 0 := by
  refine ⟨by rw [State.tag, h]; rfl, fun i hi => ?_⟩
  rw [State.coeff, State.elem, h, PolyReg.cleared, Poly.elem_zero, List.getD_replicate _ hi]

/-- Clearing one register touches nothing else. -/
theorem onlyReg_clearReg (s : State) (rd : PReg) : OnlyReg rd s ((s.clearReg rd).complete .ok) :=
  ⟨ended_complete (by constructor <;> rfl) _, fun _ h => RegFile.get_set_ne _ _ h, fun _ => rfl, ⟨rfl, rfl, rfl, rfl⟩, rfl⟩

/-- Settles O30: NOP only ends, POLY_CLEAR clears its register, and ZEROIZE ends with DMEM and every register cleared. -/
theorem nopClearAndZeroize : Obligations.NopClearAndZeroize := by
  intro s
  refine ⟨⟨s.complete .ok, rfl, ?nop, fun _ => rfl, rfl⟩, fun rd => ⟨(s.clearReg rd).complete .ok, rfl, ?clear⟩,
    ⟨(s.wipe.setKst .uninitialized).complete .ok, rfl, ?zeroize, s.wipe_byte, ?registers, rfl, rfl, rfl, rfl, rfl⟩⟩
  case nop => exact ⟨ended_complete (kept_refl s) _, rfl, ⟨rfl, rfl, rfl, rfl⟩⟩
  case clear => exact ⟨onlyReg_clearReg s rd, holds_of_get_cleared (RegFile.get_set_self ..)⟩
  case zeroize => exact ended_complete (by constructor <;> rfl) _
  case registers => exact fun r => holds_of_get_cleared (RegFile.get_cleared r)

end Sys2Proof.Machine
end

section
/-! SUPPORT. The transforms (R180 to R183), coefficient by coefficient in ℤ/q: what a layer does, that the layers undo each other in
pairs (R186), the values the outputs are (R188), linearity (R187), and NTT_FWD and NTT_INV (R184, R185). -/

namespace Sys2Proof.Machine

/-! ## Coefficients mod q -/

/-- Coefficient i of an element, mod q. -/
def residue (f : Elem) (i : Nat) : ZMod 3329 := f.getD i 0

@[simp] theorem cast_reduce (x : Int) : ((reduce x : Int) : ZMod 3329) = x :=
  (ZMod.intCast_eq_intCast_iff' _ _ _).2 (reduce_emod x)

/-- A centred value is the reduction of every integer of its residue class. -/
theorem eq_reduce_of_cast_eq {x y : Int} (hy : Centred y) (h : (y : ZMod 3329) = x) : y = reduce x :=
  eq_reduce_of_centred hy ((ZMod.intCast_eq_intCast_iff' _ _ _).1 h)

theorem IsElem.centred_getD {f : Elem} (hf : IsElem f) {i : Nat} (hi : i < 256) : Centred (f.getD i 0) := by
  rw [List.getD_eq_getElem _ _ (hf.length.symm ▸ hi)]
  exact hf.centred _ (List.getElem_mem _)

/-- A ring element is determined by its coefficients mod q. -/
theorem IsElem.ext_residue {f g : Elem} (hf : IsElem f) (hg : IsElem g) (h : ∀ i < 256, residue f i = residue g i) : f = g := by
  refine List.ext_getElem (hf.length.trans hg.length.symm) fun i hi hi' => ?_
  have hlt : i < 256 := hf.length ▸ hi
  rw [← List.getD_eq_getElem f 0, ← List.getD_eq_getElem g 0, eq_reduce_of_cast_eq (hf.centred_getD hlt) (h i hlt),
    reduce_of_centred (hg.centred_getD hlt)]

theorem residue_zipWith_reduce (op : Int → Int → Int) {f g : Elem} {i : Nat} (hf : i < f.length) (hg : i < g.length) :
    residue (List.zipWith (fun a b => reduce (op a b)) f g) i = op (f.getD i 0) (g.getD i 0) := by
  rw [residue, getD_zipWith (fun a b => reduce (op a b)) hf hg, cast_reduce]

theorem residue_elemAdd {f g : Elem} (hf : f.length = 256) (hg : g.length = 256) {i : Nat} (hi : i < 256) :
    residue (elemAdd f g) i = residue f i + residue g i := by
  rw [elemAdd, residue_zipWith_reduce (· + ·) (hf ▸ hi) (hg ▸ hi)]
  exact Int.cast_add ..

/-- c times an element, as `Linear` writes it. -/
theorem scale_isElem (c : Int) {f : Elem} (hf : f.length = 256) : IsElem (f.map fun x => reduce (c * x)) := by
  rw [← Function.comp_def reduce, ← List.map_map]
  exact IsElem.map_reduce (by rw [List.length_map, hf])

theorem residue_scale (c : Int) {f : Elem} (hf : f.length = 256) {i : Nat} (hi : i < 256) :
    residue (f.map fun x => reduce (c * x)) i = c * residue f i := by
  rw [residue, getD_map_of_lt (fun x => reduce (c * x)) 0 (hf ▸ hi), cast_reduce]
  exact Int.cast_mul ..

/-! ## The roots -/

/-- The table holds the powers of 17 by bit-reversed exponents (R180). -/
theorem residue_zetas {k : Nat} (hk : k < 128) : residue zetas k = 17 ^ bitRev7 k := by
  have h : ∀ k < 128, zetas.getD k 0 = ((17 ^ bitRev7 k % 3329 : Nat) : Int) := by decide +kernel
  rw [residue, h k hk, Int.cast_natCast, ZMod.natCast_mod, Nat.cast_pow]
  rfl

theorem seventeen_pow_128 : (17 : ZMod 3329) ^ 128 = -1 := by decide +kernel

/-- Exponents of 17 count mod 256 (R180). -/
theorem seventeen_pow_congr {a b : Nat} (h : a % 256 = b % 256) : (17 : ZMod 3329) ^ a = 17 ^ b :=
  pow_eq_pow_of_modEq h (by rw [show 256 = 128 * 2 from rfl, pow_mul, seventeen_pow_128, neg_one_sq])

/-- The table entries of a block in a layer and in the layer that undoes it (R181, R183): their exponents add up to 128, so that each
is the negated inverse of the other. -/
theorem zetas_mul_mirror {t b : Nat} (ht : t < 7) (hb : b < 2 ^ t) :
    residue zetas (2 ^ t + (2 ^ t - 1 - b)) * residue zetas (2 ^ t + b) = -1 := by
  have h : ∀ t < 7, ∀ b < 2 ^ t, 2 ^ t + 2 ^ t ≤ 128 ∧
      bitRev7 (2 ^ t + (2 ^ t - 1 - b)) + bitRev7 (2 ^ t + b) = 128 := by decide
  obtain ⟨hk, he⟩ := h t ht b hb
  rw [residue_zetas (by omega), residue_zetas (by omega), ← pow_add, he, seventeen_pow_128]

/-- γᵢ = 17^(2·BitRev7(i)+1) mod q (R188). -/
def gamma (i : Nat) : ZMod 3329 := 17 ^ (2 * bitRev7 i + 1)

/-- The power of γᵢ by which layer t splits the block of index 2i is the table entry of the block, or its negative where 2i lies in the
second half. -/
theorem gamma_pow {t i : Nat} (ht : t < 7) (hi : i < 128) :
    gamma i ^ 2 ^ (6 - t) = (-1) ^ (i / 2 ^ (6 - t)) * residue zetas (2 ^ t + i / 2 ^ (6 - t) / 2) := by
  have h : ∀ t < 7, ∀ i < 128, 2 ^ t + i / 2 ^ (6 - t) / 2 < 128 ∧ (2 * bitRev7 i + 1) * 2 ^ (6 - t) % 256 =
      (128 * (i / 2 ^ (6 - t)) + bitRev7 (2 ^ t + i / 2 ^ (6 - t) / 2)) % 256 := by decide +kernel
  obtain ⟨hk, he⟩ := h t ht i hi
  rw [residue_zetas hk, gamma, ← pow_mul, seventeen_pow_congr he, pow_add, pow_mul, seventeen_pow_128]

/-! ## Blocks of two halves -/

/-- The two indices of butterfly j of block b, where the blocks have two halves of `len` coefficients (R181). -/
def lower (len b j : Nat) : Nat := 2 * len * b + j
@[inherit_doc lower]
def upper (len b j : Nat) : Nat := 2 * len * b + len + j

/-- Every index lies in the first or the second half of a block. -/
theorem forall_index_of_halves {len k : Nat} {P : Nat → Prop}
    (h : ∀ b < k, ∀ j < len, P (lower len b j) ∧ P (upper len b j)) : ∀ i < 2 * len * k, P i := by
  intro i hi
  have hb := Nat.div_lt_of_lt_mul hi
  have hd := Nat.div_add_mod i (2 * len)
  have hm : i % (2 * len) < 2 * len := Nat.mod_lt _ (Nat.pos_of_mul_pos_right (Nat.zero_lt_of_lt hi))
  by_cases hj : i % (2 * len) < len
  · have hlower := (h _ hb _ hj).1
    rwa [lower, hd] at hlower
  · have hupper := (h _ hb (i % (2 * len) - len) (by omega)).2
    rwa [upper, Nat.add_assoc, Nat.add_sub_cancel' (Nat.not_lt.1 hj), hd] at hupper

theorem residue_append_left {a : Elem} (b : Elem) {i : Nat} (h : i < a.length) : residue (a ++ b) i = residue a i :=
  congrArg _ (List.getD_append _ _ _ _ h)

theorem residue_append_right {a : Elem} (b : Elem) {n : Nat} (h : a.length = n) (i : Nat) :
    residue (a ++ b) (n + i) = residue b i := by
  rw [residue, List.getD_append_right _ _ _ _ (by omega), h, Nat.add_sub_cancel_left]; rfl

theorem getD_slice (f : Elem) {a n j : Nat} (h : j < n) : (slice f a n).getD j 0 = f.getD (a + j) 0 := by
  simp [slice, List.getD_eq_getElem?_getD, h]

theorem getD_drop (f : Elem) (a j : Nat) : (f.drop a).getD j 0 = f.getD (a + j) 0 := by
  simp [List.getD_eq_getElem?_getD]

/-- The first block of a layer's output, and what follows it. -/
theorem residue_block (op op' : Int → Int → Int) {len : Nat} {lo hi : Elem} (rest : Elem) (hlo : lo.length = len)
    (hhi : hi.length = len) :
    let out := List.zipWith (fun a b => reduce (op a b)) lo hi ++ List.zipWith (fun a b => reduce (op' a b)) lo hi ++ rest
    (∀ j < len, residue out j = op (lo.getD j 0) (hi.getD j 0) ∧ residue out (len + j) = op' (lo.getD j 0) (hi.getD j 0)) ∧
      ∀ i, residue out (2 * len + i) = residue rest i := by
  have hlen (op : Int → Int → Int) : (List.zipWith (fun a b => reduce (op a b)) lo hi).length = len := by
    rw [List.length_zipWith, hlo, hhi, min_self]
  refine ⟨fun j hj => ?_, fun i => residue_append_right _ (by rw [List.length_append, hlen, hlen, Nat.two_mul]) i⟩
  rw [List.append_assoc, residue_append_left _ (by rwa [hlen]), residue_append_right _ (hlen op),
    residue_append_left _ (by rwa [hlen])]
  exact ⟨residue_zipWith_reduce op (hlo ▸ hj) (hhi ▸ hj), residue_zipWith_reduce op' (hlo ▸ hj) (hhi ▸ hj)⟩

/-- What a layer does that replaces the two halves of each block by two combinations of them, with one table entry for each block. -/
theorem residue_layer {len : Nat} (op op' : Int → Int → Int → Int) {L : List Int → Elem → Elem}
    (hL : ∀ z zs f, L (z :: zs) f =
      List.zipWith (fun a b => reduce (op z a b)) (slice f 0 len) (slice f len len) ++
      List.zipWith (fun a b => reduce (op' z a b)) (slice f 0 len) (slice f len len) ++ L zs (f.drop (2 * len))) :
    ∀ (table : List Int) (f : Elem), f.length = 2 * len * table.length → ∀ b < table.length, ∀ j < len,
      residue (L table f) (lower len b j) = op (table.getD b 0) (f.getD (lower len b j) 0) (f.getD (upper len b j) 0) ∧
      residue (L table f) (upper len b j) = op' (table.getD b 0) (f.getD (lower len b j) 0) (f.getD (upper len b j) 0)
  | [], _, _, _, hb, _, _ => absurd hb (Nat.not_lt_zero _)
  | z :: zs, f, hf, b, hb, j, hj => by
    have hlen : f.length = 2 * len * zs.length + 2 * len := by rw [hf, List.length_cons, Nat.mul_succ]
    obtain ⟨hfirst, hrest⟩ := residue_block (op z) (op' z) (lo := slice f 0 len) (hi := slice f len len)
      (L zs (f.drop (2 * len))) (len := len) (by rw [slice_length]; omega) (by rw [slice_length]; omega)
    rw [← hL] at hfirst hrest
    cases b with
    | zero => simpa only [lower, upper, Nat.mul_zero, Nat.zero_add, List.getD_cons_zero, getD_slice f hj] using hfirst j hj
    | succ b =>
      have ih := residue_layer op op' hL zs (f.drop (2 * len)) (by rw [List.length_drop]; omega) b (Nat.lt_of_succ_lt_succ hb) j hj
      have hlower : lower len (b + 1) j = 2 * len + lower len b j := by simp only [lower]; ring
      have hupper : upper len (b + 1) j = 2 * len + upper len b j := by simp only [upper]; ring
      rw [getD_drop, getD_drop] at ih
      rwa [hlower, hupper, hrest, hrest, List.getD_cons_succ]

/-! ## The layers -/

/-- Layer t of the forward transform: 2^t blocks (R181). -/
def fwdLayer (t : Nat) (f : Elem) : Elem := nttLayer (2 ^ (7 - t)) (slice zetas (2 ^ t) (2 ^ t)) f

/-- The layer of the inverse transform that undoes it (R183). -/
def invLayer (t : Nat) (f : Elem) : Elem := inttLayer (2 ^ (7 - t)) (slice zetas (2 ^ t) (2 ^ t)).reverse f

/-- The first n layers of the forward transform. -/
def fwdLayers : Nat → Elem → Elem
  | 0, f => f
  | n + 1, f => fwdLayer n (fwdLayers n f)

/-- The last n layers of the inverse transform, which undo them. -/
def invLayers : Nat → Elem → Elem
  | 0, f => f
  | n + 1, f => invLayers n (invLayer n f)

theorem ntt_eq (f : Elem) : ntt f = fwdLayers 7 f := by rfl

theorem intt_eq (f : Elem) : intt f = (invLayers 7 f).map fun x => reduce (inttScale * x) := by
  have h : intt f = (invLayers 7 f).map fun x => reduce (x * inttScale) := rfl
  exact h.trans (List.map_congr_left fun x _ => by rw [mul_comm])

/-- The blocks of a layer are the 256 coefficients. -/
theorem layer_size : ∀ {t : Nat}, t < 7 → 2 * 2 ^ (7 - t) * 2 ^ t = 256 := by decide

theorem index_lt {t b j : Nat} (ht : t < 7) (hb : b < 2 ^ t) (hj : j < 2 ^ (7 - t)) :
    lower (2 ^ (7 - t)) b j < 256 ∧ upper (2 ^ (7 - t)) b j < 256 := by
  have h := Nat.mul_le_mul_left (2 * 2 ^ (7 - t)) (Nat.succ_le_of_lt hb)
  rw [layer_size ht, Nat.mul_succ] at h
  simp only [lower, upper]
  omega

theorem slice_zetas_length {t : Nat} (ht : t < 7) : (slice zetas (2 ^ t) (2 ^ t)).length = 2 ^ t := by
  have h : ∀ t < 7, 2 ^ t + 2 ^ t ≤ 128 := by decide
  rw [slice_length, zetas_length, min_eq_left (Nat.le_sub_of_add_le (h t ht))]

section
variable {t : Nat} {f : Elem} (ht : t < 7) (hf : f.length = 256)
include ht hf

theorem fwdLayer_length : (fwdLayer t f).length = 256 :=
  (nttLayer_isElem _ _ f (by rw [slice_zetas_length ht, layer_size ht, hf])).1.trans hf

theorem invLayer_length : (invLayer t f).length = 256 :=
  (inttLayer_isElem _ _ f (by rw [List.length_reverse, slice_zetas_length ht, layer_size ht, hf])).1.trans hf

variable {b j : Nat} (hb : b < 2 ^ t) (hj : j < 2 ^ (7 - t))
include hb hj

/-- The butterfly (R182), mod q. -/
theorem residue_fwdLayer :
    residue (fwdLayer t f) (lower (2 ^ (7 - t)) b j) = residue f (lower (2 ^ (7 - t)) b j) +
      residue zetas (2 ^ t + b) * residue f (upper (2 ^ (7 - t)) b j) ∧
    residue (fwdLayer t f) (upper (2 ^ (7 - t)) b j) = residue f (lower (2 ^ (7 - t)) b j) -
      residue zetas (2 ^ t + b) * residue f (upper (2 ^ (7 - t)) b j) := by
  have hl := slice_zetas_length ht
  have h := residue_layer (L := nttLayer (2 ^ (7 - t))) (fun z a b => a + reduce (z * b)) (fun z a b => a - reduce (z * b))
    (fun _ _ _ => rfl) (slice zetas (2 ^ t) (2 ^ t)) f (by rw [hl, layer_size ht, hf]) b (by rwa [hl]) j hj
  simp only [getD_slice zetas hb, Int.cast_add, Int.cast_sub, cast_reduce, Int.cast_mul] at h
  exact h

/-- The inverse butterfly (R183), mod q. -/
theorem residue_invLayer :
    residue (invLayer t f) (lower (2 ^ (7 - t)) b j) = residue f (lower (2 ^ (7 - t)) b j) +
      residue f (upper (2 ^ (7 - t)) b j) ∧
    residue (invLayer t f) (upper (2 ^ (7 - t)) b j) = residue zetas (2 ^ t + (2 ^ t - 1 - b)) *
      (residue f (upper (2 ^ (7 - t)) b j) - residue f (lower (2 ^ (7 - t)) b j)) := by
  have hl := slice_zetas_length ht
  have h := residue_layer (L := inttLayer (2 ^ (7 - t))) (fun _ a b => a + b) (fun z a b => z * (b - a)) (fun _ _ _ => rfl)
    (slice zetas (2 ^ t) (2 ^ t)).reverse f (by rw [List.length_reverse, hl, layer_size ht, hf]) b
    (by rwa [List.length_reverse, hl]) j hj
  rw [List.getD_reverse b (by rwa [hl]), hl, getD_slice zetas (by omega)] at h
  simp only [Int.cast_add, Int.cast_sub, Int.cast_mul] at h
  exact h

end

/-! ## Multiples -/

/-- g is c times f, mod q. -/
structure Multiple (c : ZMod 3329) (f g : Elem) : Prop where
  length_left : f.length = 256
  length_right : g.length = 256
  eq_mul : ∀ i < 256, residue g i = c * residue f i

namespace Multiple

variable {c d : ZMod 3329} {f g h : Elem} {t : Nat}

theorem refl (hf : f.length = 256) : Multiple 1 f f := ⟨hf, hf, fun _ _ => (one_mul _).symm⟩

theorem trans (hfg : Multiple c f g) (hgh : Multiple d g h) : Multiple (d * c) f h :=
  ⟨hfg.length_left, hgh.length_right, fun i hi => by rw [hgh.eq_mul i hi, hfg.eq_mul i hi, mul_assoc]⟩

theorem scale (c : Int) (hf : f.length = 256) : Multiple c f (f.map fun x => reduce (c * x)) :=
  ⟨hf, by rw [List.length_map, hf], fun _ hi => residue_scale c hf hi⟩

/-- Only one ring element is c times f. -/
theorem unique (hg : Multiple c f g) (hh : Multiple c f h) (hge : IsElem g) (hhe : IsElem h) : g = h :=
  hge.ext_residue hhe fun i hi => by rw [hg.eq_mul i hi, hh.eq_mul i hi]

theorem of_halves (ht : t < 7) (hf : f.length = 256) (hg : g.length = 256) (h : ∀ b < 2 ^ t, ∀ j < 2 ^ (7 - t),
      residue g (lower (2 ^ (7 - t)) b j) = c * residue f (lower (2 ^ (7 - t)) b j) ∧
      residue g (upper (2 ^ (7 - t)) b j) = c * residue f (upper (2 ^ (7 - t)) b j)) : Multiple c f g :=
  ⟨hf, hg, layer_size ht ▸ forall_index_of_halves h⟩

theorem eq_mul_halves (hm : Multiple c f g) (ht : t < 7) {b j : Nat} (hb : b < 2 ^ t) (hj : j < 2 ^ (7 - t)) :
    residue g (lower (2 ^ (7 - t)) b j) = c * residue f (lower (2 ^ (7 - t)) b j) ∧
    residue g (upper (2 ^ (7 - t)) b j) = c * residue f (upper (2 ^ (7 - t)) b j) := by
  obtain ⟨hlo, hhi⟩ := index_lt ht hb hj
  exact ⟨hm.eq_mul _ hlo, hm.eq_mul _ hhi⟩

theorem map_fwdLayer (ht : t < 7) (hm : Multiple c f g) : Multiple c (fwdLayer t f) (fwdLayer t g) := by
  refine of_halves ht (fwdLayer_length ht hm.length_left) (fwdLayer_length ht hm.length_right) fun b hb j hj => ?_
  obtain ⟨hlo, hhi⟩ := hm.eq_mul_halves ht hb hj
  obtain ⟨hlof, hhif⟩ := residue_fwdLayer ht hm.length_left hb hj
  obtain ⟨hlog, hhig⟩ := residue_fwdLayer ht hm.length_right hb hj
  rw [hlof, hhif, hlog, hhig, hlo, hhi]
  exact ⟨by ring, by ring⟩

theorem map_invLayer (ht : t < 7) (hm : Multiple c f g) : Multiple c (invLayer t f) (invLayer t g) := by
  refine of_halves ht (invLayer_length ht hm.length_left) (invLayer_length ht hm.length_right) fun b hb j hj => ?_
  obtain ⟨hlo, hhi⟩ := hm.eq_mul_halves ht hb hj
  obtain ⟨hlof, hhif⟩ := residue_invLayer ht hm.length_left hb hj
  obtain ⟨hlog, hhig⟩ := residue_invLayer ht hm.length_right hb hj
  rw [hlof, hhif, hlog, hhig, hlo, hhi]
  exact ⟨by ring, by ring⟩

theorem map_fwdLayers (hm : Multiple c f g) : ∀ n ≤ 7, Multiple c (fwdLayers n f) (fwdLayers n g)
  | 0, _ => hm
  | n + 1, hn => (hm.map_fwdLayers n (Nat.le_of_succ_le hn)).map_fwdLayer hn

theorem map_invLayers : ∀ n ≤ 7, ∀ {f g : Elem}, Multiple c f g → Multiple c (invLayers n f) (invLayers n g)
  | 0, _, _, _, hm => hm
  | n + 1, hn, _, _, hm => map_invLayers n (Nat.le_of_succ_le hn) (hm.map_invLayer hn)

end Multiple

/-! ## The round trip -/

/-- An inverse layer undoes a forward layer but for a factor 2. -/
theorem invLayer_fwdLayer {t : Nat} {f : Elem} (ht : t < 7) (hf : f.length = 256) :
    Multiple 2 f (invLayer t (fwdLayer t f)) := by
  have hl := fwdLayer_length ht hf
  refine .of_halves ht hf (invLayer_length ht hl) fun b hb j hj => ?_
  obtain ⟨hlo, hhi⟩ := residue_fwdLayer ht hf hb hj
  obtain ⟨hlo', hhi'⟩ := residue_invLayer ht hl hb hj
  rw [hlo', hhi', hlo, hhi]
  exact ⟨by ring, by linear_combination -2 * residue f (upper (2 ^ (7 - t)) b j) * zetas_mul_mirror ht hb⟩

/-- A forward layer undoes an inverse layer but for a factor 2. -/
theorem fwdLayer_invLayer {t : Nat} {f : Elem} (ht : t < 7) (hf : f.length = 256) :
    Multiple 2 f (fwdLayer t (invLayer t f)) := by
  have hl := invLayer_length ht hf
  refine .of_halves ht hf (fwdLayer_length ht hl) fun b hb j hj => ?_
  obtain ⟨hlo, hhi⟩ := residue_invLayer ht hf hb hj
  obtain ⟨hlo', hhi'⟩ := residue_fwdLayer ht hl hb hj
  have hz := zetas_mul_mirror ht hb
  rw [hlo', hhi', hlo, hhi]
  generalize residue f (upper (2 ^ (7 - t)) b j) = y, residue f (lower (2 ^ (7 - t)) b j) = x
  exact ⟨by linear_combination (y - x) * hz, by linear_combination (x - y) * hz⟩

theorem fwdLayers_length {f : Elem} (hf : f.length = 256) : ∀ n ≤ 7, (fwdLayers n f).length = 256
  | 0, _ => hf
  | n + 1, hn => fwdLayer_length hn (fwdLayers_length hf n (Nat.le_of_succ_le hn))

theorem invLayers_length : ∀ n ≤ 7, ∀ {f : Elem}, f.length = 256 → (invLayers n f).length = 256
  | 0, _, _, hf => hf
  | n + 1, hn, _, hf => invLayers_length n (Nat.le_of_succ_le hn) (invLayer_length hn hf)

/-- Forward layers and then their inverses: the innermost pair goes first. -/
theorem invLayers_fwdLayers {f : Elem} (hf : f.length = 256) : ∀ n ≤ 7, Multiple (2 ^ n) f (invLayers n (fwdLayers n f))
  | 0, _ => pow_zero (2 : ZMod 3329) ▸ .refl hf
  | n + 1, hn => by
    have hn' := Nat.le_of_succ_le hn
    rw [pow_succ']
    exact (invLayers_fwdLayers hf n hn').trans (.map_invLayers n hn' (invLayer_fwdLayer hn (fwdLayers_length hf n hn')))

/-- Inverse layers and then the forward ones: the innermost pair goes first. -/
theorem fwdLayers_invLayers : ∀ n ≤ 7, ∀ {f : Elem}, f.length = 256 → Multiple (2 ^ n) f (fwdLayers n (invLayers n f))
  | 0, _, _, hf => pow_zero (2 : ZMod 3329) ▸ .refl hf
  | n + 1, hn, _, hf => by
    rw [pow_succ]
    exact (fwdLayer_invLayer hn hf).trans
      ((fwdLayers_invLayers n (Nat.le_of_succ_le hn) (invLayer_length hn hf)).map_fwdLayer hn)

/-- The final scaling takes back the factors of the seven layers (R183). -/
theorem inttScale_mul : (inttScale : ZMod 3329) * 2 ^ 7 = 1 := by decide

theorem intt_ntt {f : Elem} (hf : IsElem f) : intt (ntt f) = f := by
  have h := invLayers_fwdLayers hf.length 7 le_rfl
  have hs := h.trans (.scale inttScale h.length_right)
  rw [inttScale_mul, ← ntt_eq, ← intt_eq] at hs
  exact hs.unique (.refl hf.length) (intt_isElem (ntt_isElem hf.length).length) hf

theorem ntt_intt {f : Elem} (hf : IsElem f) : ntt (intt f) = f := by
  have hscale := Multiple.scale inttScale (invLayers_length 7 le_rfl hf.length)
  have hs := (fwdLayers_invLayers 7 le_rfl hf.length).trans (hscale.map_fwdLayers 7 le_rfl)
  rw [inttScale_mul, ← ntt_eq, ← intt_eq] at hs
  exact hs.unique (.refl hf.length) (ntt_isElem (intt_isElem hf.length).length) hf

/-! ## The values -/

/-- The value at γᵢ of the coefficients of parity p in the block that holds index 2i, where the blocks have 2·len coefficients. -/
def blockValue (len p i : Nat) (f : Elem) : ZMod 3329 :=
  ∑ j ∈ Finset.range len, residue f (lower len (i / len) (2 * j + p)) * gamma i ^ j

/-- The value of a block from its two halves. -/
theorem blockValue_two_mul (len p i : Nat) (f : Elem) : blockValue (2 * len) p i f =
    ∑ j ∈ Finset.range len, (residue f (lower (2 * len) (i / len / 2) (2 * j + p)) +
      gamma i ^ len * residue f (upper (2 * len) (i / len / 2) (2 * j + p))) * gamma i ^ j := by
  rw [blockValue, Nat.div_div_eq_div_mul, Nat.mul_comm len 2]
  generalize i / (2 * len) = b
  have hupper (j : Nat) : lower (2 * len) b (2 * (len + j) + p) = upper (2 * len) b (2 * j + p) := by
    simp only [lower, upper]; ring
  rw [Nat.two_mul len, Finset.sum_range_add, ← Finset.sum_add_distrib, ← Nat.two_mul len]
  refine Finset.sum_congr rfl fun j _ => ?_
  rw [hupper, pow_add]
  ring

/-- A layer splits each block into two of the same values: X^(2·len) − ζ² into X^len − ζ and X^len + ζ. -/
theorem blockValue_fwdLayer {t p i : Nat} {f : Elem} (ht : t < 7) (hi : i < 128) (hp : p < 2) (hf : f.length = 256) :
    blockValue (2 ^ (6 - t)) p i (fwdLayer t f) = blockValue (2 ^ (7 - t)) p i f := by
  have hsize := layer_size ht
  have hlayer := @residue_fwdLayer t f ht hf
  have hpow := gamma_pow ht hi
  rw [show 7 - t = 6 - t + 1 by omega, pow_succ'] at hsize hlayer ⊢
  generalize 2 ^ (6 - t) = len at *
  have hb : i / len / 2 < 2 ^ t := by
    rw [Nat.div_div_eq_div_mul]
    exact Nat.div_lt_of_lt_mul (by linarith)
  rw [blockValue_two_mul, blockValue, hpow]
  refine Finset.sum_congr rfl fun j hj => ?_
  obtain ⟨hlo, hhi⟩ := hlayer hb (j := 2 * j + p) (by have := Finset.mem_range.1 hj; omega)
  rcases Nat.even_or_odd' (i / len) with ⟨b, he | he⟩
  · rw [he, Nat.mul_div_cancel_left b Nat.two_pos] at hlo ⊢
    rw [show lower len (2 * b) (2 * j + p) = lower (2 * len) b (2 * j + p) by simp only [lower]; ring, hlo, pow_mul]
    ring
  · rw [he, show (2 * b + 1) / 2 = b by omega] at hhi ⊢
    rw [show lower len (2 * b + 1) (2 * j + p) = upper (2 * len) b (2 * j + p) by simp only [lower, upper]; ring, hhi, pow_succ,
      pow_mul]
    ring

theorem blockValue_fwdLayers {p i : Nat} {f : Elem} (hi : i < 128) (hp : p < 2) (hf : f.length = 256) :
    ∀ n ≤ 7, blockValue (2 ^ (7 - n)) p i (fwdLayers n f) = blockValue 128 p i f
  | 0, _ => rfl
  | n + 1, hn => by
    rw [Nat.add_sub_add_right 6 1 n, fwdLayers, blockValue_fwdLayer hn hi hp (fwdLayers_length hf n (Nat.le_of_succ_le hn)),
      blockValue_fwdLayers hi hp hf n (Nat.le_of_succ_le hn)]

/-- The outputs of the forward transform (R188), mod q. -/
theorem residue_ntt {p i : Nat} {f : Elem} (hi : i < 128) (hp : p < 2) (hf : f.length = 256) :
    residue (ntt f) (2 * i + p) = ∑ j ∈ Finset.range 128, residue f (2 * j + p) * gamma i ^ j := by
  have h := blockValue_fwdLayers hi hp hf 7 le_rfl
  simpa [blockValue, lower, Nat.div_eq_of_lt hi, ntt_eq] using h

theorem getD_ntt {p i : Nat} {f : Elem} (hi : i < 128) (hp : p < 2) (hf : f.length = 256) : (ntt f).getD (2 * i + p) 0 =
    reduce (∑ j ∈ Finset.range 128, f.getD (2 * j + p) 0 * (17 ^ (2 * bitRev7 i + 1)) ^ j) := by
  refine eq_reduce_of_cast_eq ((ntt_isElem hf).centred_getD (by omega)) ((residue_ntt hi hp hf).trans ?_)
  push_cast
  rfl

/-- Settles O34: every layer keeps the values of the blocks, and the last leaves blocks of one coefficient of each parity. -/
theorem nttValues : Obligations.NttValues := fun _ hf _ hi =>
  ⟨getD_ntt (p := 0) hi Nat.two_pos hf, getD_ntt hi Nat.one_lt_two hf⟩

/-! ## Linearity -/

theorem ntt_elemAdd {f g : Elem} (hf : f.length = 256) (hg : g.length = 256) : ntt (elemAdd f g) = elemAdd (ntt f) (ntt g) := by
  have hnf := (ntt_isElem hf).length
  have hng := (ntt_isElem hg).length
  have hfg := (elemAdd_isElem hf hg).length
  refine (ntt_isElem hfg).ext_residue (elemAdd_isElem hnf hng) fun i hi => ?_
  have hi2 : i / 2 < 128 := by omega
  have hp : i % 2 < 2 := Nat.mod_lt _ Nat.two_pos
  rw [residue_elemAdd hnf hng hi, ← Nat.div_add_mod i 2, residue_ntt hi2 hp hfg, residue_ntt hi2 hp hf, residue_ntt hi2 hp hg,
    ← Finset.sum_add_distrib]
  refine Finset.sum_congr rfl fun j hj => ?_
  rw [residue_elemAdd hf hg (by have := Finset.mem_range.1 hj; omega), add_mul]

theorem ntt_scale (c : Int) {f : Elem} (hf : f.length = 256) :
    ntt (f.map fun x => reduce (c * x)) = (ntt f).map fun x => reduce (c * x) := by
  have hm := (Multiple.scale c hf).map_fwdLayers 7 le_rfl
  have hnf := (ntt_isElem hf).length
  exact hm.unique (.scale c hnf) (ntt_isElem (scale_isElem c hf).length) (scale_isElem c hnf)

theorem linear_ntt : Linear ntt := fun _ _ hf hg => ⟨ntt_elemAdd hf.length hg.length, fun c => ntt_scale c hf.length⟩

/-- The inverse of a linear map is linear. -/
theorem Linear.of_inverse {T S : Elem → Elem} (hT : Linear T) (hS : ∀ f, IsElem f → IsElem (S f))
    (hST : ∀ f, IsElem f → S (T f) = f) (hTS : ∀ f, IsElem f → T (S f) = f) : Linear S := by
  intro f g hf hg
  have hSf := hS f hf
  have hSg := hS g hg
  obtain ⟨hadd, hscale⟩ := hT (S f) (S g) hSf hSg
  rw [hTS f hf] at hadd hscale
  rw [hTS g hg] at hadd
  exact ⟨by rw [← hadd, hST _ (elemAdd_isElem hSf.length hSg.length)],
    fun c => by rw [← hscale c, hST _ (scale_isElem c hSf.length)]⟩

/-- Settles O33: the layers undo each other in pairs; the forward transform is linear, and so is its inverse. -/
theorem nttRoundTrip : Obligations.NttRoundTrip :=
  ⟨fun _ hf => ⟨intt_ntt hf, ntt_intt hf⟩, linear_ntt,
    linear_ntt.of_inverse (fun _ hf => intt_isElem hf.length) (fun _ => intt_ntt) (fun _ => ntt_intt)⟩

/-! ## NTT_FWD and NTT_INV -/

/-- The checks of the two commands, then the register written with a ring element (R184, R185). -/
theorem guarded_setReg_of_tag (s : State) (rd rs1 : PReg) (src dst : Tag) {f : Elem} (hf : IsElem f) :
    ∃ t, guarded s [chkWritten s rs1, chkTag s rs1 src] ((s.setReg rd f dst).complete .ok) = .next t ∧
      if s.tag rs1 = .empty then Failed s t .uninit
      else if s.tag rs1 ≠ src then Failed s t .domain
      else OnlyReg rd s t ∧ t.tag rd = dst ∧ t.elem rd = f := by
  simp only [guarded_eq, State.checked_written, State.checked_tag, State.checked_nil]
  exact exists_next_ite (fun _ => failed_raise s _) fun _ => exists_next_ite (fun _ => failed_raise s _) fun _ =>
    ⟨_, rfl, onlyReg_setReg .., s.setReg_tag_self .., s.setReg_elem_self rd dst hf⟩

/-- Settles O31: both commands write a ring element under the same checks. -/
theorem nttCommands : Obligations.NttCommands := fun s rd rs1 =>
  ⟨guarded_setReg_of_tag s rd rs1 .coeff .ntt (ntt_isElem (s.elem_length rs1)),
    guarded_setReg_of_tag s rd rs1 .ntt .coeff (intt_isElem (s.elem_length rs1))⟩

end Sys2Proof.Machine
end

section
/-! SUPPORT. Pointwise multiplication and the product it induces on coefficient-domain elements (R200 to R202): the laws of both,
and that the second multiplies the even and the odd coefficients separately, each mod Y^128 + 1. -/

namespace Sys2Proof.Machine

/-! ## PMUL -/

/-- Settles O32: the four checks, two for each source, then the reduced products. -/
theorem pmulMultiplies : Obligations.PmulMultiplies := by
  intro s rd rs1 rs2
  simp only [exec, execPmul, guarded_eq, State.checked_written, State.checked_tag, State.checked_nil, ← ite_or]
  exact exists_next_ite (fun _ => failed_raise s _) fun _ => exists_next_ite (fun _ => failed_raise s _) fun _ =>
    ⟨_, rfl, onlyReg_setReg .., holds_setReg_zipWith (· * ·) s rd rs1 rs2 .ntt⟩

/-! ## The laws of the pointwise product (R201) -/

theorem reduce_mul_reduce_right (x y : Int) : reduce (x * reduce y) = reduce (x * y) := by
  rw [← reduce_mul x (reduce y), reduce_reduce, reduce_mul]

/-- The unit of the pointwise product. -/
def elemOne : Elem := List.replicate 256 1

theorem elemOne_isElem : IsElem elemOne :=
  ⟨List.length_replicate, fun _ hx => List.eq_of_mem_replicate hx ▸ by decide⟩

theorem elemMul_comm (a b : Elem) : elemMul a b = elemMul b a := by
  rw [elemMul, List.zipWith_comm]
  simp only [mul_comm, elemMul]

theorem elemMul_assoc (a b c : Elem) : elemMul (elemMul a b) c = elemMul a (elemMul b c) := by
  refine List.ext_getElem (by simp only [elemMul, List.length_zipWith, min_assoc]) fun i _ _ => ?_
  simp only [elemMul, List.getElem_zipWith]
  rw [mul_comm (reduce _), reduce_mul_reduce_right, reduce_mul_reduce_right, mul_comm, mul_assoc]

/-- The pointwise product distributes over every reduced operation that multiplication of integers distributes over. -/
theorem elemMul_zipWith_reduce {op : Int → Int → Int} (hmul : ∀ x y z, x * op y z = op (x * y) (x * z))
    (hred : ∀ x y, reduce (op (reduce x) (reduce y)) = reduce (op x y)) (a b c : Elem) :
    elemMul a (List.zipWith (fun x y => reduce (op x y)) b c) =
      List.zipWith (fun x y => reduce (op x y)) (elemMul a b) (elemMul a c) := by
  refine List.ext_getElem (by simp only [elemMul, List.length_zipWith]; omega) fun i _ _ => ?_
  simp only [elemMul, List.getElem_zipWith, reduce_mul_reduce_right, hmul, hred]

theorem elemMul_elemAdd (a b c : Elem) : elemMul a (elemAdd b c) = elemAdd (elemMul a b) (elemMul a c) :=
  elemMul_zipWith_reduce mul_add reduce_add a b c

theorem elemMul_elemSub (a b c : Elem) : elemMul a (elemSub b c) = elemSub (elemMul a b) (elemMul a c) :=
  elemMul_zipWith_reduce mul_sub reduce_sub a b c

theorem elemMul_elemOne {a : Elem} (ha : IsElem a) : elemMul a elemOne = a := by
  have hlen := (elemMul_isElem ha.length elemOne_isElem.length).length
  refine List.ext_getElem (hlen.trans ha.length.symm) fun i _ hi => ?_
  simp only [elemMul, elemOne, List.getElem_zipWith, List.getElem_replicate, mul_one]
  exact reduce_of_centred (ha.centred _ (List.getElem_mem hi))

/-! ## The laws of the induced product (R201) -/

/-- The transform takes the induced product to the pointwise one. -/
theorem ntt_ringMul {a b : Elem} (ha : a.length = 256) (hb : b.length = 256) :
    ntt (ringMul a b) = elemMul (ntt a) (ntt b) :=
  ntt_intt (elemMul_isElem (ntt_isElem ha).length (ntt_isElem hb).length)

theorem ringMul_comm (a b : Elem) : ringMul a b = ringMul b a := by
  rw [ringMul, elemMul_comm, ringMul]

theorem ringMul_assoc {a b c : Elem} (ha : a.length = 256) (hb : b.length = 256) (hc : c.length = 256) :
    ringMul (ringMul a b) c = ringMul a (ringMul b c) := by
  rw [ringMul, ntt_ringMul ha hb, elemMul_assoc, ← ntt_ringMul hb hc, ← ringMul]

theorem ringMul_elemAdd {a b c : Elem} (ha : a.length = 256) (hb : b.length = 256) (hc : c.length = 256) :
    ringMul a (elemAdd b c) = elemAdd (ringMul a b) (ringMul a c) := by
  have hna := (ntt_isElem ha).length
  obtain ⟨-, -, hlinear⟩ := nttRoundTrip
  obtain ⟨hadd, -⟩ := hlinear _ _ (elemMul_isElem hna (ntt_isElem hb).length) (elemMul_isElem hna (ntt_isElem hc).length)
  rw [ringMul, ntt_elemAdd hb hc, elemMul_elemAdd, hadd, ← ringMul, ← ringMul]

theorem ringMul_intt_elemOne {a : Elem} (ha : IsElem a) : ringMul a (intt elemOne) = a := by
  rw [ringMul, ntt_intt elemOne_isElem, elemMul_elemOne (ntt_isElem ha.length), intt_ntt ha]

/-- Settles O35: PMUL has the laws of ℤ/q coefficient by coefficient, and the transform carries them to the induced product. -/
theorem productLaws : Obligations.ProductLaws :=
  ⟨fun a b c ha _ _ => ⟨elemMul_comm a b, elemMul_assoc a b c, elemMul_elemAdd a b c, elemMul_elemSub a b c, elemMul_elemOne ha⟩,
    fun a b _ ha hb hc => ⟨ringMul_comm a b, ringMul_assoc ha.length hb.length hc.length,
      ringMul_elemAdd ha.length hb.length hc.length, ringMul_intt_elemOne ha⟩⟩

/-! ## Products mod Y^n + 1 -/

section
variable {R : Type} [CommRing R]

/-- Coefficient m of the product of two polynomials of n coefficients each mod Y^n + 1. -/
def negacyclic (n : Nat) (f g : Nat → R) (m : Nat) : R :=
  ∑ j ∈ Finset.range n, ∑ k ∈ Finset.range n, if j + k = m then f j * g k else if j + k = m + n then -(f j * g k) else 0

/-- Y^(j + k), wrapped with its sign into the exponents below n, at a root x of Y^n + 1. -/
theorem sum_wrapped_pow {n j k : Nat} (hj : j < n) (hk : k < n) {x : R} (hx : x ^ n = -1) (c : R) :
    ∑ m ∈ Finset.range n, (if j + k = m then c else if j + k = m + n then -c else 0) * x ^ m = c * x ^ (j + k) := by
  rcases lt_or_ge (j + k) n with h | h
  · rw [Finset.sum_eq_single_of_mem (j + k) (Finset.mem_range.2 h), if_pos rfl]
    intro m hm hne
    rw [if_neg hne.symm, if_neg (by omega), zero_mul]
  · obtain ⟨w, hw⟩ := Nat.exists_eq_add_of_le' h
    rw [Finset.sum_eq_single_of_mem w (Finset.mem_range.2 (by omega)), if_neg (by omega), if_pos hw, hw, pow_add, hx]
    · ring
    · intro m hm hne
      have := Finset.mem_range.1 hm
      rw [if_neg (by omega), if_neg (by omega), zero_mul]

/-- At a root of Y^n + 1 the product mod Y^n + 1 has the product of the values. -/
theorem sum_negacyclic_mul_pow {n : Nat} {x : R} (hx : x ^ n = -1) (f g : Nat → R) :
    ∑ m ∈ Finset.range n, negacyclic n f g m * x ^ m =
      (∑ j ∈ Finset.range n, f j * x ^ j) * ∑ k ∈ Finset.range n, g k * x ^ k := by
  rw [Finset.sum_mul_sum]
  simp only [negacyclic, Finset.sum_mul]
  rw [Finset.sum_comm]
  refine Finset.sum_congr rfl fun j hj => ?_
  rw [Finset.sum_comm]
  refine Finset.sum_congr rfl fun k hk => ?_
  rw [sum_wrapped_pow (Finset.mem_range.1 hj) (Finset.mem_range.1 hk) hx, pow_add, mul_mul_mul_comm]

theorem cast_negacyclic (n : Nat) (f g : Nat → Int) (m : Nat) :
    ((negacyclic n f g m : Int) : R) = negacyclic n (fun j => (f j : R)) (fun k => (g k : R)) m := by
  simp only [negacyclic]
  push_cast
  rfl

end

/-! ## The ring of the induced product (R202) -/

/-- The product mod Y^128 + 1 of the even coefficients and that of the odd ones, as one element. -/
def parityMul (a b : Elem) : Elem := (List.range 256).map fun i =>
  reduce (negacyclic 128 (fun j => a.getD (2 * j + i % 2) 0) (fun k => b.getD (2 * k + i % 2) 0) (i / 2))

theorem parityMul_isElem (a b : Elem) : IsElem (parityMul a b) := by
  rw [parityMul, ← Function.comp_def reduce, ← List.map_map]
  exact IsElem.map_reduce (by rw [List.length_map, List.length_range])

theorem getD_parityMul (a b : Elem) {m p : Nat} (hm : m < 128) (hp : p < 2) : (parityMul a b).getD (2 * m + p) 0 =
    reduce (negacyclic 128 (fun j => a.getD (2 * j + p) 0) (fun k => b.getD (2 * k + p) 0) m) := by
  have hi : 2 * m + p < (List.range 256).length := by rw [List.length_range]; omega
  rw [parityMul, getD_map_of_lt _ 0 hi, List.getD_eq_getElem _ _ hi, List.getElem_range, Nat.mul_add_mod, Nat.mod_eq_of_lt hp,
    Nat.mul_add_div Nat.two_pos, Nat.div_eq_of_lt hp, Nat.add_zero]

/-- Every γᵢ is a root of Y^128 + 1 (R188). -/
theorem gamma_pow_128 (i : Nat) : gamma i ^ 128 = -1 := by
  rw [gamma, ← pow_mul, mul_comm, pow_mul, seventeen_pow_128, Odd.neg_one_pow (odd_two_mul_add_one _)]

theorem residue_elemMul {f g : Elem} (hf : f.length = 256) (hg : g.length = 256) {i : Nat} (hi : i < 256) :
    residue (elemMul f g) i = residue f i * residue g i := by
  rw [elemMul, residue_zipWith_reduce (· * ·) (hf ▸ hi) (hg ▸ hi)]
  exact Int.cast_mul ..

/-- The values of the product mod Y^128 + 1 are the products of the values. -/
theorem ntt_parityMul {a b : Elem} (ha : a.length = 256) (hb : b.length = 256) :
    ntt (parityMul a b) = elemMul (ntt a) (ntt b) := by
  have hprod := (parityMul_isElem a b).length
  have hna := (ntt_isElem ha).length
  have hnb := (ntt_isElem hb).length
  refine (ntt_isElem hprod).ext_residue (elemMul_isElem hna hnb) fun i hi => ?_
  have hi2 : i / 2 < 128 := by omega
  have hp : i % 2 < 2 := Nat.mod_lt _ Nat.two_pos
  rw [residue_elemMul hna hnb hi, ← Nat.div_add_mod i 2, residue_ntt hi2 hp hprod, residue_ntt hi2 hp ha, residue_ntt hi2 hp hb,
    ← sum_negacyclic_mul_pow (gamma_pow_128 _)]
  refine Finset.sum_congr rfl fun m hm => ?_
  rw [residue, getD_parityMul a b (Finset.mem_range.1 hm) hp, cast_reduce, cast_negacyclic]
  rfl

theorem ringMul_eq_parityMul {a b : Elem} (ha : a.length = 256) (hb : b.length = 256) : ringMul a b = parityMul a b := by
  rw [ringMul, ← ntt_parityMul ha hb, intt_ntt (parityMul_isElem a b)]

/-- Settles O36: the two products have the same transform, since every γᵢ is a root of Y^128 + 1. -/
theorem productRing : Obligations.ProductRing := by
  intro a b ha hb m hm p hp
  rw [ringMul_eq_parityMul ha hb, getD_parityMul a b hm hp]
  rfl

end Sys2Proof.Machine
end

section
/-! SUPPORT. The rejection loop (R213, R215): what it has accepted is the first 256 of the values below q it has seen. -/

namespace Sys2Proof.Machine

/-- What the loop of R213 has accepted once it has seen the 12-bit values `ds`, earliest first. -/
def firstAccepted (ds : List Nat) : Elem := ((ds.filter fun d => decide (d < 3329)).take 256).map fun (d : Nat) => reduce d

/-- The 12-bit values of the `n` groups of a stream from position p on, the low half of each group first (R213). -/
def groupValues (str : Nat → Byte) (p n : Nat) : List Nat :=
  (List.range n).flatMap fun g => [groupLo str (p + 3 * g), groupHi str (p + 3 * g)]

theorem groupValues_succ (str : Nat → Byte) (p n : Nat) :
    groupValues str p (n + 1) = groupLo str p :: groupHi str p :: groupValues str (p + 3) n := by
  have hpos : ∀ g, p + 3 * (g + 1) = p + 3 + 3 * g := fun g => by omega
  simp [groupValues, List.range_succ_eq_map, List.flatMap_map, hpos]

theorem firstAccepted_length (ds : List Nat) :
    (firstAccepted ds).length = min 256 (ds.filter fun d => decide (d < 3329)).length := by
  rw [firstAccepted, List.length_map, List.length_take]

/-- Once 256 values are accepted, later ones change nothing. -/
theorem firstAccepted_append_of_full {ds : List Nat} (h : ¬ (firstAccepted ds).length < 256) (es : List Nat) :
    firstAccepted (ds ++ es) = firstAccepted ds := by
  rw [firstAccepted_length] at h
  rw [firstAccepted, List.filter_append, List.take_append_of_le_length (by omega), ← firstAccepted]

/-- One value more: it is accepted if it is below q and 256 are not yet there. -/
theorem accept_firstAccepted (d : Nat) (ds : List Nat) :
    accept d (firstAccepted ds).reverse = (firstAccepted (ds ++ [d])).reverse := by
  rw [accept, List.length_reverse]
  by_cases hfull : (firstAccepted ds).length < 256
  · have hlen := firstAccepted_length ds
    by_cases hd : d < 3329
    · have htake : ∀ l : List Nat, l.length < 256 → (l ++ [d]).take 256 = l.take 256 ++ [d] := fun l hl => by
        rw [List.take_append, List.take_of_length_le (l := [d]) (by rw [List.length_singleton]; omega)]
      rw [if_pos ⟨hd, hfull⟩, firstAccepted, firstAccepted, List.filter_append, List.filter_singleton, decide_eq_true hd, cond_true,
        htake _ (by omega), List.map_append, List.reverse_append]
      rfl
    · rw [if_neg fun h => hd h.1, firstAccepted, firstAccepted, List.filter_append, List.filter_singleton, decide_eq_false hd,
        cond_false, List.append_nil]
  · rw [if_neg fun h => hfull h.2, firstAccepted_append_of_full hfull]

theorem rejLoop_firstAccepted (str : Nat → Byte) (fuel p : Nat) (ds : List Nat) :
    rejLoop str fuel p (firstAccepted ds).reverse =
      if (firstAccepted (ds ++ groupValues str p fuel)).length < 256 then none
      else some (firstAccepted (ds ++ groupValues str p fuel)) := by
  induction fuel generalizing p ds with
  | zero => rw [rejLoop, List.length_reverse, List.reverse_reverse, groupValues, List.range_zero, List.flatMap_nil, List.append_nil]
  | succ fuel ih =>
    rw [rejLoop, List.length_reverse, List.reverse_reverse]
    by_cases hfull : (firstAccepted ds).length < 256
    · rw [if_pos hfull, accept_firstAccepted, accept_firstAccepted, ih, groupValues_succ, List.append_assoc, List.append_assoc]
      rfl
    · rw [if_neg hfull, firstAccepted_append_of_full hfull, if_neg hfull]

/-- Settles O38: what the loop has accepted so far is `firstAccepted` of the values it has seen, by induction on the number of
groups. -/
theorem rejectionAcceptsInOrder : Obligations.RejectionAcceptsInOrder := by
  intro str fuel accepted
  have hseen : firstAccepted (groupValues str 0 fuel) = (accepted.take 256).map fun (d : Nat) => reduce d := by
    simp only [firstAccepted, groupValues, Nat.zero_add]
    rfl
  have hlen : (firstAccepted (groupValues str 0 fuel)).length < 256 ↔ accepted.length < 256 := by
    rw [hseen, List.length_map, List.length_take]
    omega
  have hloop := rejLoop_firstAccepted str fuel 0 []
  rw [List.nil_append, if_congr hlen rfl rfl, hseen] at hloop
  exact hloop

end Sys2Proof.Machine
end

section
/-! SUPPORT. The parses undo the layouts (R233, R234, R263, R267, R269). -/

namespace Sys2Proof.Machine

/-! ## Packing what was unpacked (R233) -/

@[simp] theorem bits_length (b : Bytes) : (bits b).length = 8 * b.length :=
  flatMap_length_const byteBits 8 (fun _ => by simp [byteBits]) b

theorem ofNat_bitsNat_byteBits (x : Byte) : BitVec.ofNat 8 (bitsNat (byteBits x)) = x := by
  refine BitVec.eq_of_getLsbD_eq fun i hi => ?_
  rw [BitVec.getLsbD_ofNat, decide_eq_true hi, Bool.true_and, bitsNat_testBit]
  exact getD_of_eq_map_range rfl hi

theorem bitsBytes_bits (b : Bytes) : bitsBytes b.length (bits b) = b := by
  rw [bitsBytes, bits, pieces_flatMap byteBits 8 (fun _ => by simp [byteBits]), List.map_map]
  exact (List.map_congr_left fun x _ => ofNat_bitsNat_byteBits x).trans (List.map_id b)

theorem pack_unpack {d : Nat} {b : Bytes} (h : b.length = 32 * d) : pack d (unpack d b) = b := by
  have hbits : (bits b).length = d * 256 := by rw [bits_length, h]; omega
  have hflat : (unpack d b).flatMap (natBits d) = bits b := by
    rw [unpack, List.flatMap_map]
    calc (pieces d 256 (bits b)).flatMap (fun p => natBits d (bitsNat p))
        = (pieces d 256 (bits b)).flatMap id := List.flatMap_congr fun p hp => by
          rw [← length_of_mem_pieces d 256 (bits b) hbits p hp]
          exact natBits_bitsNat p
      _ = bits b := by rw [List.flatMap_id]; exact pieces_flatten d 256 (bits b) hbits
  rw [pack, hflat, ← h, bitsBytes_bits]

/-! ## Pack12 and Unpack12 (R234) -/

theorem canon_reduce {v : Nat} (h : v < 3329) : canon (reduce v) = v := by
  rw [canon, Config.q, Nat.cast_ofNat, reduce_emod]
  omega

theorem unpack12_isSome_iff (b : Bytes) : (unpack12 b).isSome = true ↔ ∀ v ∈ unpack 12 b, v < 3329 := by
  rw [unpack12]
  split <;> simp_all

theorem unpack12_pack12 {f : Elem} (hf : IsElem f) : unpack12 (pack12 f) = some f := by
  have hcanon : ∀ v ∈ f.map canon, v < 3329 := by
    intro v hv
    obtain ⟨x, -, rfl⟩ := List.mem_map.1 hv
    exact canon_lt x
  have hval : unpack 12 (pack12 f) = f.map canon :=
    unpack_pack (by rw [List.length_map, hf.length]) fun v hv => (hcanon v hv).trans (by decide)
  have hsome : ¬ (unpack 12 (pack12 f)).any (fun v => decide (Config.q ≤ v)) = true := by
    rw [hval]
    simpa using hcanon
  rw [unpack12, if_neg hsome, hval, List.map_map]
  exact congrArg some ((List.map_congr_left fun x hx => canon_of_centred (hf.centred x hx)).trans (List.map_id f))

/-- Unpack12 and Pack12 are inverse to each other (R234). -/
theorem unpack12_eq_some_iff {b : Bytes} (hb : b.length = 384) {f : Elem} : unpack12 b = some f ↔ IsElem f ∧ b = pack12 f := by
  refine ⟨fun h => ⟨unpack12_isElem h, ?_⟩, fun ⟨hf, hbf⟩ => hbf ▸ unpack12_pack12 hf⟩
  have hlt := (unpack12_isSome_iff b).1 (h ▸ rfl)
  rw [unpack12] at h
  split at h
  · cases h
  · cases h
    have hmap : ((unpack 12 b).map fun (v : Nat) => reduce v).map canon = unpack 12 b := by
      rw [List.map_map]
      exact (List.map_congr_left fun v hv => canon_reduce (hlt v hv)).trans (List.map_id _)
    rw [pack12, hmap, pack_unpack hb]

/-! ## Three Pack12 images (R263) -/

/-- A vector of three ring elements (R260). -/
structure IsVec (v : List Elem) : Prop where
  length : v.length = 3
  elems : ∀ f ∈ v, IsElem f

theorem IsVec.getD {v : List Elem} (hv : IsVec v) {i : Nat} (hi : i < 3) : IsElem (v.getD i []) := by
  rw [List.getD_eq_getElem _ _ (hv.length.symm ▸ hi)]
  exact hv.elems _ (List.getElem_mem _)

theorem allSome_eq_some_iff {α : Type} {l : List (Option α)} {m : List α} : allSome l = some m ↔ l = m.map some := by
  induction l generalizing m with
  | nil => cases m <;> simp [allSome]
  | cons o l ih => cases o <;> cases m <;> simp [allSome, ih, and_comm]

theorem allSome_isSome_iff {α : Type} {l : List (Option α)} : (allSome l).isSome = true ↔ ∀ o ∈ l, o.isSome = true := by
  induction l with
  | nil => simp [allSome]
  | cons o l ih => cases o <;> simp [allSome, ih]

/-- Consecutive slices are the pieces of one slice. -/
theorem map_slice_range {α : Type} (l : List α) (d n a : Nat) :
    (List.range n).map (fun i => slice l (a + d * i) d) = pieces d n (slice l a (d * n)) := by
  induction n generalizing a with
  | zero => rfl
  | succ n ih =>
    have hstart : ∀ i, a + d * (i + 1) = a + d + d * i := fun i => by rw [Nat.mul_succ]; omega
    have hrest : (slice l a (d * (n + 1))).drop d = slice l (a + d) (d * n) := by
      rw [slice, List.drop_take, List.drop_drop, Nat.mul_succ, Nat.add_sub_cancel, slice]
    have hhead : (slice l a (d * (n + 1))).take d = slice l a d := by
      rw [slice, List.take_take, Nat.min_eq_left (Nat.le_mul_of_pos_right d n.succ_pos), slice]
    rw [List.range_succ_eq_map, List.map_cons, List.map_map, pieces, hhead, hrest, ← ih]
    simp [Function.comp_def, hstart]

theorem map_unpack12_eq_iff {l : List Bytes} (hl : ∀ p ∈ l, p.length = 384) {v : List Elem} :
    l.map unpack12 = v.map some ↔ (∀ f ∈ v, IsElem f) ∧ l = v.map pack12 := by
  induction l generalizing v with
  | nil => cases v <;> simp
  | cons p l ih =>
    obtain ⟨hp, hl⟩ := List.forall_mem_cons.1 hl
    cases v with
    | nil => simp
    | cons f v =>
      simp only [List.map_cons, List.cons.injEq, unpack12_eq_some_iff hp, ih hl, List.forall_mem_cons]
      tauto

theorem unpackVec_isSome_iff {b : Bytes} {off : Nat} :
    (unpackVec b off).isSome = true ↔ ∀ i < 3, ∀ v ∈ unpack 12 (slice b (off + 384 * i) 384), v < 3329 := by
  simp only [unpackVec, allSome_isSome_iff, List.forall_mem_map, List.mem_range, unpack12_isSome_iff]

/-- Reading three Pack12 images gives the vector they are made of. -/
theorem unpackVec_eq_some_iff {b : Bytes} {off : Nat} (hb : off + 1152 ≤ b.length) {v : List Elem} :
    unpackVec b off = some v ↔ IsVec v ∧ v.flatMap pack12 = slice b off 1152 := by
  have hlen : (slice b off 1152).length = 384 * 3 := by rw [slice_length]; omega
  have hpieces := map_slice_range b 384 3 off
  have hread : unpackVec b off = some v ↔ (∀ f ∈ v, IsElem f) ∧ pieces 384 3 (slice b off 1152) = v.map pack12 := by
    rw [← map_unpack12_eq_iff (length_of_mem_pieces 384 3 _ hlen), ← hpieces, List.map_map]
    exact allSome_eq_some_iff
  rw [hread]
  constructor
  · rintro ⟨hv, hp⟩
    refine ⟨⟨?_, hv⟩, ?_⟩
    · rw [← List.length_map pack12, ← hp, pieces_length]
    · rw [List.flatMap_def, ← hp, pieces_flatten 384 3 _ hlen]
  · rintro ⟨⟨hv3, hv⟩, hflat⟩
    exact ⟨hv, by rw [← hflat, ← hv3, pieces_flatMap pack12 384 pack12_length]⟩

/-! ## Keys (R263, R267, R269) -/

theorem pack12_flatMap_length {v : List Elem} (hv : v.length = 3) : (v.flatMap pack12).length = 1152 := by
  rw [flatMap_length_const pack12 384 pack12_length, hv]

theorem slice_append_left {α : Type} {a : List α} {n : Nat} (h : a.length = n) (b : List α) : slice (a ++ b) 0 n = a := by
  rw [slice, List.drop_zero, List.take_left' h]

theorem slice_append_right {α : Type} {a : List α} {k : Nat} (h : a.length = k) (b : List α) (i n : Nat) :
    slice (a ++ b) (k + i) n = slice b i n := by
  rw [slice, ← List.drop_drop, List.drop_left' h, slice]

theorem parsePk_eq_some_iff {b : Bytes} {k : PublicKey} :
    parsePk b = some k ↔ b.length = 1184 ∧ k.rho = slice b 0 32 ∧ unpackVec b 32 = some k.t := by
  obtain ⟨rho, t⟩ := k
  rw [parsePk]
  by_cases hlen : b.length = 1184
  · rw [if_neg (not_not_intro hlen), Option.map_eq_some_iff]
    simp [hlen, eq_comm, and_comm]
  · simp [hlen]

/-- A public key's layout parses to its parts (R263, R267). -/
theorem parsePk_pkBytes {rho : Bytes} {t : List Elem} (hrho : rho.length = 32) (ht : IsVec t) :
    parsePk (pkBytes rho t) = some ⟨rho, t⟩ := by
  have hlen : (pkBytes rho t).length = 1184 := by
    rw [pkBytes, List.length_append, hrho, pack12_flatMap_length ht.length]
  refine parsePk_eq_some_iff.2 ⟨hlen, (slice_append_left hrho _).symm, (unpackVec_eq_some_iff (by omega)).2 ⟨ht, ?_⟩⟩
  rw [pkBytes, slice_append_right hrho _ 0, slice, List.drop_zero, List.take_of_length_le (pack12_flatMap_length ht.length).le]

/-- A public key's parts, where they stand (R263). -/
theorem parsePk_layout {b : Bytes} {k : PublicKey} (h : parsePk b = some k) : k.rho = b.take 32 ∧ k.t.flatMap pack12 = b.drop 32 := by
  obtain ⟨hlen, hrho, ht⟩ := parsePk_eq_some_iff.1 h
  have hrest : slice b 32 1152 = b.drop 32 := List.take_of_length_le (by rw [List.length_drop]; omega)
  exact ⟨hrho, hrest ▸ ((unpackVec_eq_some_iff (by omega)).1 ht).2⟩

/-- Only one byte string parses to a public key (R263). -/
theorem parsePk_inj {a b : Bytes} {k : PublicKey} (ha : parsePk a = some k) (hb : parsePk b = some k) : a = b := by
  obtain ⟨hrhoa, hta⟩ := parsePk_layout ha
  obtain ⟨hrhob, htb⟩ := parsePk_layout hb
  rw [← List.take_append_drop 32 a, ← hrhoa, ← hta, hrhob, htb, List.take_append_drop]

theorem parsePk_isVec {b : Bytes} {k : PublicKey} (h : parsePk b = some k) : IsVec k.t := by
  obtain ⟨hlen, -, ht⟩ := parsePk_eq_some_iff.1 h
  exact ((unpackVec_eq_some_iff (by omega)).1 ht).1

theorem parsePk_isSome_iff (b : Bytes) : (parsePk b).isSome = true ↔
    b.length = 1184 ∧ ∀ i < 3, ∀ v ∈ unpack 12 (slice b (32 + 384 * i) 384), v < 3329 := by
  rw [← unpackVec_isSome_iff, Option.isSome_iff_exists, Option.isSome_iff_exists]
  constructor
  · rintro ⟨k, hk⟩
    obtain ⟨hlen, -, ht⟩ := parsePk_eq_some_iff.1 hk
    exact ⟨hlen, k.t, ht⟩
  · rintro ⟨hlen, t, ht⟩
    exact ⟨⟨slice b 0 32, t⟩, parsePk_eq_some_iff.2 ⟨hlen, rfl, ht⟩⟩

theorem parseSk_eq_some_iff {b : Bytes} {k : SecretKey} :
    parseSk b = some k ↔ b.length = 2400 ∧ unpackVec b 0 = some k.s ∧ parsePk (slice b 1152 1184) = some k.pk ∧
      k.h = slice b 2336 32 ∧ k.z = slice b 2368 32 := by
  obtain ⟨s, pk, h, z⟩ := k
  rw [parseSk]
  cases unpackVec b 0 <;> cases parsePk (slice b 1152 1184) <;> simp [eq_comm]

theorem parseSk_isVec {b : Bytes} {k : SecretKey} (h : parseSk b = some k) : IsVec k.s := by
  obtain ⟨hlen, hs, -⟩ := parseSk_eq_some_iff.1 h
  exact ((unpackVec_eq_some_iff (by omega)).1 hs).1

theorem parseSk_s_layout {b : Bytes} {k : SecretKey} (h : parseSk b = some k) : k.s.flatMap pack12 = b.take 1152 := by
  obtain ⟨hlen, hs, -⟩ := parseSk_eq_some_iff.1 h
  exact ((unpackVec_eq_some_iff (by omega)).1 hs).2

theorem parseSk_isSome_iff (b : Bytes) : (parseSk b).isSome = true ↔ b.length = 2400 ∧
    (∀ i < 3, ∀ v ∈ unpack 12 (slice b (384 * i) 384), v < 3329) ∧ (parsePk (slice b 1152 1184)).isSome = true := by
  have hvec := unpackVec_isSome_iff (b := b) (off := 0)
  simp only [Nat.zero_add] at hvec
  rw [← hvec]
  simp only [Option.isSome_iff_exists]
  constructor
  · rintro ⟨k, hk⟩
    obtain ⟨hlen, hs, hpk, -⟩ := parseSk_eq_some_iff.1 hk
    exact ⟨hlen, ⟨k.s, hs⟩, k.pk, hpk⟩
  · rintro ⟨hlen, ⟨s, hs⟩, pk, hpk⟩
    exact ⟨⟨s, pk, slice b 2336 32, slice b 2368 32⟩, parseSk_eq_some_iff.2 ⟨hlen, hs, hpk, rfl, rfl⟩⟩

/-- A secret key's layout parses to its parts (R263, R269). -/
theorem parseSk_skBytes {s : List Elem} {pk h z : Bytes} {k : PublicKey} (hs : IsVec s) (hpk : parsePk pk = some k)
    (hh : h.length = 32) (hz : z.length = 32) : parseSk (skBytes s pk h z) = some ⟨s, k, h, z⟩ := by
  have hs1152 := pack12_flatMap_length hs.length
  obtain ⟨hpk1184, -, -⟩ := parsePk_eq_some_iff.1 hpk
  have hlen : (skBytes s pk h z).length = 2400 := by
    simp only [skBytes, List.length_append]
    omega
  have hcut : skBytes s pk h z = s.flatMap pack12 ++ (pk ++ (h ++ (z ++ []))) := by
    simp only [skBytes, List.append_assoc, List.append_nil]
  refine parseSk_eq_some_iff.2 ⟨hlen, (unpackVec_eq_some_iff (by omega)).2 ⟨hs, ?_⟩, ?_, ?_, ?_⟩ <;> rw [hcut]
  · rw [slice_append_left hs1152]
  · rw [slice_append_right hs1152 _ 0, slice_append_left hpk1184, hpk]
  · rw [slice_append_right hs1152 _ 1184, slice_append_right hpk1184 _ 0, slice_append_left hh]
  · rw [slice_append_right hs1152 _ 1216, slice_append_right hpk1184 _ 32, slice_append_right hh _ 0, slice_append_left hz]

end Sys2Proof.Machine
end

section
/-! SUPPORT. The lattice equations of the KEM in the coefficient domain (R216, R260 to R262): MatVec, MatTVec and Dot are sums of ring
products, and what KeyGen_internal computes; with it the statement about keys. -/

namespace Sys2Proof.Machine

/-! ## Sums of products (R203, R260) -/

theorem elemAdd_elemZero {f : Elem} (hf : IsElem f) : elemAdd elemZero f = f := by
  have hlen := (elemAdd_isElem (f := elemZero) List.length_replicate hf.length).length
  refine List.ext_getElem (hlen.trans hf.length.symm) fun i _ hi => ?_
  simp only [elemAdd, elemZero, List.getElem_zipWith, List.getElem_replicate, zero_add]
  exact reduce_of_centred (hf.centred _ (List.getElem_mem hi))

theorem intt_elemAdd {f g : Elem} (hf : IsElem f) (hg : IsElem g) : intt (elemAdd f g) = elemAdd (intt f) (intt g) := by
  obtain ⟨-, -, hlinear⟩ := nttRoundTrip
  exact (hlinear f g hf hg).1

theorem map_range_three {α : Type} (f : Nat → α) : (List.range 3).map f = [f 0, f 1, f 2] := rfl

theorem dotNtt_three (a b c a' b' c' : Elem) : dotNtt [a, b, c] [a', b', c'] =
    elemAdd (elemAdd (elemAdd elemZero (elemMul a a')) (elemMul b b')) (elemMul c c') := rfl

/-- The inverse transform of a sum of three products of transforms is the sum of the ring products. -/
theorem intt_dotNtt {f g : Nat → Elem} (hf : ∀ k < 3, IsElem (f k)) (hg : ∀ k < 3, IsElem (g k)) :
    intt (dotNtt ((List.range 3).map fun k => ntt (f k)) ((List.range 3).map fun k => ntt (g k))) = ringDot f g := by
  have hmul : ∀ k < 3, IsElem (elemMul (ntt (f k)) (ntt (g k))) := fun k hk =>
    elemMul_isElem (ntt_isElem (hf k hk).length).length (ntt_isElem (hg k hk).length).length
  have h0 := hmul 0 (by decide)
  have h1 := hmul 1 (by decide)
  have h2 := hmul 2 (by decide)
  have h01 := elemAdd_isElem h0.length h1.length
  rw [map_range_three, map_range_three, dotNtt_three, elemAdd_elemZero h0, intt_elemAdd h01 h2, intt_elemAdd h0 h1]
  rfl

theorem ringMul_isElem {f g : Elem} (hf : IsElem f) (hg : IsElem g) : IsElem (ringMul f g) :=
  intt_isElem (elemMul_isElem (ntt_isElem hf.length).length (ntt_isElem hg.length).length).length

theorem ringDot_isElem {f g : Nat → Elem} (hf : ∀ k < 3, IsElem (f k)) (hg : ∀ k < 3, IsElem (g k)) : IsElem (ringDot f g) := by
  have hmul : ∀ k < 3, (ringMul (f k) (g k)).length = 256 := fun k hk => (ringMul_isElem (hf k hk) (hg k hk)).length
  exact elemAdd_isElem (elemAdd_isElem (hmul 0 (by decide)) (hmul 1 (by decide))).length (hmul 2 (by decide))

theorem vecNtt_eq {v : List Elem} (hv : v.length = 3) : vecNtt v = (List.range 3).map fun k => ntt (v.getD k []) := by
  obtain ⟨a, b, c, rfl⟩ := List.length_eq_three.1 hv
  rfl

theorem dot_vecNtt {a b : List Elem} (ha : IsVec a) (hb : IsVec b) :
    dot (vecNtt a) (vecNtt b) = ringDot (fun k => a.getD k []) fun k => b.getD k [] := by
  rw [vecNtt_eq ha.length, vecNtt_eq hb.length]
  exact intt_dotNtt (fun _ => ha.getD) fun _ => hb.getD

/-! ## The matrix (R216) -/

/-- The entries A[i][j] = Rej(ρ, i, j) of the matrix of a seed, in the coefficient domain (R216). -/
def IsMatrixOf (P : Config.Params) (fuel : Nat) (rho : Bytes) (A : Nat → Nat → Elem) : Prop :=
  ∀ i < 3, ∀ j < 3, rej P fuel rho i j = some (A i j)

/-- Â, the transforms of the entries (R216). -/
def nttMatrix (A : Nat → Nat → Elem) : List (List Elem) := (List.range 3).map fun i => (List.range 3).map fun j => ntt (A i j)

theorem IsMatrixOf.isElem {P : Config.Params} {fuel : Nat} {rho : Bytes} {A : Nat → Nat → Elem} (hA : IsMatrixOf P fuel rho A)
    {i j : Nat} (hi : i < 3) (hj : j < 3) : IsElem (A i j) := rej_isElem (hA i hi j hj)

/-- ExpandA answers with the transforms of the entries that Rej yields. -/
theorem expandA_eq_some {P : Config.Params} {fuel : Nat} {rho : Bytes} {a : List (List Elem)} (h : expandA P fuel rho = some a) :
    ∃ A, IsMatrixOf P fuel rho A ∧ a = nttMatrix A := by
  have hrows := allSome_isSome_iff.1 (Option.isSome_iff_exists.2 ⟨a, h⟩)
  have hmat : IsMatrixOf P fuel rho fun i j => (rej P fuel rho i j).getD [] := fun i hi j hj => by
    have hrow := hrows _ (List.mem_map_of_mem (List.mem_range.2 hi))
    have hentry := allSome_isSome_iff.1 hrow _ (List.mem_map_of_mem (List.mem_range.2 hj))
    rw [Option.isSome_map] at hentry
    obtain ⟨f, hf⟩ := Option.isSome_iff_exists.1 hentry
    exact hf.trans (congrArg (fun o => some (o.getD [])) hf.symm)
  refine ⟨_, hmat, Option.some_injective _ (h.symm.trans ?_)⟩
  refine allSome_eq_some_iff.2 ((List.map_congr_left fun i hi => ?_).trans (List.map_map ..).symm)
  refine allSome_eq_some_iff.2 ((List.map_congr_left fun j hj => ?_).trans (List.map_map ..).symm)
  rw [hmat i (List.mem_range.1 hi) j (List.mem_range.1 hj)]
  rfl

/-- A·v + e for a matrix given by its entries (R260). -/
def matMulAdd (A : Nat → Nat → Elem) (v e : List Elem) : List Elem :=
  (List.range 3).map fun i => elemAdd (ringDot (A i) fun j => v.getD j []) (e.getD i [])

theorem getD_matMulAdd (A : Nat → Nat → Elem) (v e : List Elem) {i : Nat} (hi : i < 3) :
    (matMulAdd A v e).getD i [] = elemAdd (ringDot (A i) fun j => v.getD j []) (e.getD i []) := getD_of_eq_map_range rfl hi

theorem vecAdd_map_range (f : Nat → Elem) {e : List Elem} (he : e.length = 3) :
    vecAdd ((List.range 3).map f) e = (List.range 3).map fun i => elemAdd (f i) (e.getD i []) := by
  obtain ⟨a, b, c, rfl⟩ := List.length_eq_three.1 he
  rfl

section
variable {A : Nat → Nat → Elem} {v e : List Elem}

theorem matMulAdd_isVec (hA : ∀ i < 3, ∀ j < 3, IsElem (A i j)) (hv : IsVec v) (he : IsVec e) : IsVec (matMulAdd A v e) := by
  refine ⟨rfl, fun f hf => ?_⟩
  obtain ⟨i, hi, rfl⟩ := List.mem_map.1 hf
  have hi3 := List.mem_range.1 hi
  exact elemAdd_isElem (ringDot_isElem (hA i hi3) fun _ => hv.getD).length (he.getD hi3).length

theorem vecAdd_matVec (hA : ∀ i < 3, ∀ j < 3, IsElem (A i j)) (hv : IsVec v) (he : e.length = 3) :
    vecAdd (matVec (nttMatrix A) (vecNtt v)) e = matMulAdd A v e := by
  rw [matVec, nttMatrix, List.map_map, vecAdd_map_range _ he, vecNtt_eq hv.length]
  refine List.map_congr_left fun i hi => ?_
  rw [Function.comp_apply, intt_dotNtt (hA i (List.mem_range.1 hi)) fun _ => hv.getD]

theorem vecAdd_matTVec (hA : ∀ i < 3, ∀ j < 3, IsElem (A i j)) (hv : IsVec v) (he : e.length = 3) :
    vecAdd (matTVec (nttMatrix A) (vecNtt v)) e = matMulAdd (fun j i => A i j) v e := by
  rw [matTVec, vecAdd_map_range _ he, vecNtt_eq hv.length]
  refine List.map_congr_left fun j hj => ?_
  have hj3 := List.mem_range.1 hj
  have hcol : (nttMatrix A).map (fun row => row.getD j elemZero) = (List.range 3).map fun i => ntt (A i j) := by
    rw [nttMatrix, List.map_map]
    exact List.map_congr_left fun i _ => getD_of_eq_map_range rfl hj3
  rw [hcol, intt_dotNtt (fun i hi => hA i hi j hj3) fun _ => hv.getD]

end

/-! ## KeyGen_internal (R261) -/

theorem cbdVec_isVec (str : Bytes) (off : Nat) : IsVec (cbdVec str off 3) :=
  ⟨cbdVec_length str off 3, fun f hf => by obtain ⟨i, -, rfl⟩ := List.mem_map.1 hf; exact cbd_isElem _⟩

/-- A generated key pair has the layouts of ρ and t = A·s + e and of s. -/
theorem keygenInternal_eq_some {P : Config.Params} {fuel : Nat} {d z pk sk : Bytes}
    (h : keygenInternal P fuel d z = some (pk, sk)) :
    let g := (P.hashG d).toList
    let s := cbdVec (P.noiseStream (g.drop 32) 768).toList 0 3
    let e := cbdVec (P.noiseStream (g.drop 32) 768).toList 384 3
    ∃ A, IsMatrixOf P fuel (g.take 32) A ∧ pk = pkBytes (g.take 32) (matMulAdd A s e) ∧ sk = skBytes s pk (hashPk P pk) z := by
  intro g s e
  have hnoise : slice (P.hashG d).toList 32 32 = g.drop 32 := List.take_of_length_le (by simp)
  simp only [keygenInternal, keygenWork, KeygenWork.keys, Option.map_map, Option.map_eq_some_iff, Function.comp_apply,
    Prod.mk.injEq, hnoise] at h
  obtain ⟨a, ha, rfl, rfl⟩ := h
  obtain ⟨A, hA, rfl⟩ := expandA_eq_some ha
  have ht : vecAdd (matVec (nttMatrix A) (vecNtt s)) e = matMulAdd A s e :=
    vecAdd_matVec (fun _ hi _ => hA.isElem hi) (cbdVec_isVec _ 0) (cbdVec_length _ 384 3)
  rw [ht]
  exact ⟨A, hA, rfl, rfl⟩

/-- A generated key pair parses to ρ and t = A·s + e, and to s, the public key, its hash and z (R267, R269). -/
theorem keygenInternal_parses {P : Config.Params} {fuel : Nat} {d z pk sk : Bytes} (hz : z.length = 32)
    (h : keygenInternal P fuel d z = some (pk, sk)) :
    let g := (P.hashG d).toList
    let s := cbdVec (P.noiseStream (g.drop 32) 768).toList 0 3
    let e := cbdVec (P.noiseStream (g.drop 32) 768).toList 384 3
    ∃ A, IsMatrixOf P fuel (g.take 32) A ∧ parsePk pk = some ⟨g.take 32, matMulAdd A s e⟩ ∧
      parseSk sk = some ⟨s, ⟨g.take 32, matMulAdd A s e⟩, hashPk P pk, z⟩ := by
  intro g s e
  obtain ⟨A, hA, hpkb, hskb⟩ := keygenInternal_eq_some h
  have hs : IsVec s := cbdVec_isVec _ 0
  have he : IsVec e := cbdVec_isVec _ 384
  have hpk : parsePk pk = some ⟨g.take 32, matMulAdd A s e⟩ :=
    hpkb ▸ parsePk_pkBytes (by simp) (matMulAdd_isVec (fun _ hi _ => hA.isElem hi) hs he)
  exact ⟨A, hA, hpk, hskb ▸ parseSk_skBytes hs hpk (hashPk_length P pk) hz⟩

/-- Settles O52: the parses invert the layouts, and a generated key pair is a pair of layouts. -/
theorem keyParsing : Obligations.KeyParsing := by
  refine ⟨parsePk_isSome_iff, fun b => ⟨parseSk_isSome_iff b, fun k hk => ?_⟩, fun P fuel d z pk sk hz h => ?_⟩
  · obtain ⟨-, -, hpk, hh, hkz⟩ := parseSk_eq_some_iff.1 hk
    exact ⟨parseSk_s_layout hk, hpk, hh, hkz⟩
  · obtain ⟨hpklen, hsklen⟩ := keygen_lengths hz h
    obtain ⟨A, hA, hpk, hsk⟩ := keygenInternal_parses hz h
    obtain ⟨hrho, ht⟩ := parsePk_layout hpk
    obtain ⟨-, -, hpart, -⟩ := parseSk_eq_some_iff.1 hsk
    exact ⟨hpklen, hsklen, parsePk_inj hpart hpk, hrho.symm, _, _, hpk, hrho, ht, hsk, parseSk_s_layout hsk, rfl, A, hA,
      fun _ => getD_matMulAdd A _ _⟩

end Sys2Proof.Machine
end

section
/-! SUPPORT. Encaps_internal and Decaps_internal in the coefficient domain, and when decoding gives the message back (R239, R262, R264,
R272). -/

namespace Sys2Proof.Machine

/-! ## Encaps_internal (R262) -/

/-- Encapsulation compresses u = Aᵗ·r + e1 and v = tᵗ·r + e2 + μ. -/
theorem encapsInternal_eq_some {P : Config.Params} {fuel : Nat} {k : PublicKey} {m h ct ss : Bytes} (ht : IsVec k.t)
    (henc : encapsInternal P fuel k m h = some (ct, ss)) :
    let str := (P.noiseStream (m ++ h) 896).toList
    let r := cbdVec str 0 3
    let tr := ringDot (fun i => k.t.getD i []) fun i => r.getD i []
    ∃ A, IsMatrixOf P fuel k.rho A ∧
      ct = ctBytes (matMulAdd (fun j i => A i j) r (cbdVec str 384 3))
        (elemAdd (elemAdd tr (cbd (slice str 768 128))) (decompress m 1)) ∧
      ss = kdf P (m ++ h ++ ct) := by
  intro str r tr
  simp only [encapsInternal, encapsWork, EncapsWork.output, Option.map_map, Option.map_eq_some_iff, Function.comp_apply,
    Prod.mk.injEq] at henc
  obtain ⟨a, ha, rfl, rfl⟩ := henc
  obtain ⟨A, hA, rfl⟩ := expandA_eq_some ha
  have hr : IsVec r := cbdVec_isVec str 0
  rw [vecAdd_matTVec (fun _ hi _ => hA.isElem hi) hr (cbdVec_length str 384 3), dot_vecNtt ht hr]
  exact ⟨A, hA, rfl, rfl⟩

/-! ## Decoding (R239, R264) -/

theorem decodeMessage_eq {k : SecretKey} (hs : IsVec k.s) (ct : Bytes) :
    decodeMessage k ct = compress (elemSub (decompress (slice ct 960 128) 4)
      (ringDot (fun i => k.s.getD i []) fun j => decompress (slice ct (320 * j) 320) 10)) 1 := by
  have hu : ∀ j < 3, IsElem (decompress (slice ct (320 * j) 320) 10) := fun j _ => decompress_isElem _ 10
  rw [decodeMessage, decodeWork, dot, vecNtt_eq hs.length, vecNtt, List.map_map, Function.comp_def,
    intt_dotNtt (fun _ => hs.getD) hu]

theorem compressCoeff_lt (d : Nat) (x : Int) : compressCoeff d x < 2 ^ d := Nat.mod_lt _ (Nat.two_pow_pos d)

/-- A byte string is what a list of values packs to exactly when it unpacks to them (R233). -/
theorem pack_eq_iff {d : Nat} {v : List Nat} {b : Bytes} (hl : v.length = 256) (hv : ∀ x ∈ v, x < 2 ^ d)
    (hb : b.length = 32 * d) : pack d v = b ↔ v = unpack d b :=
  ⟨fun h => h ▸ (unpack_pack hl hv).symm, fun h => h ▸ pack_unpack hb⟩

/-- Bit p of a byte string (R12). -/
def bitAt (b : Bytes) (p : Nat) : Bool := (b.getD (p / 8) 0).getLsbD (p % 8)

theorem bits_eq_map_bitAt (b : Bytes) : bits b = (List.range (8 * b.length)).map (bitAt b) := by
  have hb : b = (List.range b.length).map fun i => b.getD i 0 := List.ext_getElem (by simp) fun i hi _ => by
    rw [List.getElem_map, List.getElem_range, List.getD_eq_getElem _ _ hi]
  conv_lhs => rw [hb]
  exact bits_map_range _ _

theorem unpack_one {m : Bytes} (hm : m.length = 32) : unpack 1 m = (List.range 256).map fun i => (bitAt m i).toNat := by
  rw [unpack, bits_eq_map_bitAt, hm]
  show (pieces 1 256 ((List.range (1 * 256)).map (bitAt m))).map bitsNat = _
  rw [pieces_map_range, List.map_map]
  exact List.map_congr_left fun i _ => by simp [bitsNat]

theorem getD_decompress_one {m : Bytes} (hm : m.length = 32) {i : Nat} (hi : i < 256) :
    (decompress m 1).getD i 0 = if bitAt m i then -1664 else 0 := by
  have hvalue : ∀ b : Bool, decompressCoeff 1 b.toNat = if b then -1664 else 0 := by decide
  rw [decompress, unpack_one hm, List.map_map, getD_of_eq_map_range rfl hi, Function.comp_apply, hvalue]

/-- A coefficient compresses to a bit exactly when it is near that bit's decompressed value (R239). -/
theorem compressCoeff_one_eq_iff {x : Int} (hx : Centred x) (b : Bool) : compressCoeff 1 x = b.toNat ↔
    -832 ≤ reduce (x - if b then -1664 else 0) ∧ reduce (x - if b then -1664 else 0) ≤ if b then 831 else 832 := by
  obtain ⟨hlo, hhi⟩ := hx
  cases b with
  | false =>
    simp only [Bool.false_eq_true, if_false, sub_zero, reduce_of_centred ⟨hlo, hhi⟩, compressCoeff, canon, Config.q, Bool.toNat_false]
    omega
  | true =>
    obtain ⟨hdlo, hdhi⟩ := reduce_centred (x - -1664)
    have hmod := reduce_emod (x - -1664)
    simp only [if_true, compressCoeff, canon, Config.q, Bool.toNat_true]
    omega

theorem map_eq_map_range_iff {α β : Type} {l : List α} {n : Nat} (hl : l.length = n) (f : α → β) (g : Nat → β) (d : α) :
    l.map f = (List.range n).map g ↔ ∀ i < n, f (l.getD i d) = g i := by
  subst hl
  rw [List.ext_getElem_iff]
  simp +contextual [List.getD_eq_getElem?_getD]

/-- Decoding w gives m exactly when w is near μ in every coefficient (R239, R272). -/
theorem compress_one_eq_iff {w : Elem} {m : Bytes} (hw : IsElem w) (hm : m.length = 32) : compress w 1 = m ↔ ∀ i < 256,
    -832 ≤ reduce (w.getD i 0 - (decompress m 1).getD i 0) ∧
    reduce (w.getD i 0 - (decompress m 1).getD i 0) ≤ if bitAt m i then 831 else 832 := by
  have hlt : ∀ v ∈ w.map (compressCoeff 1), v < 2 ^ 1 := List.forall_mem_map.2 fun x _ => compressCoeff_lt 1 x
  rw [compress, pack_eq_iff (by rw [List.length_map, hw.length]) hlt hm, unpack_one hm, map_eq_map_range_iff hw.length _ _ 0]
  refine forall₂_congr fun i hi => ?_
  rw [getD_decompress_one hm hi]
  exact compressCoeff_one_eq_iff (hw.centred_getD hi) _

/-! ## Decaps_internal (R264, R265) -/

theorem ctSelect_eq (b : Bool) {x y : Bytes} (h : x.length = y.length) : ctSelect b x y = if b then x else y := by
  have hkeep : ∀ v : Byte, v &&& 255#8 = v := fun _ => BitVec.and_allOnes
  cases b <;> exact List.ext_getElem (by simp [h]) fun i _ _ => by simp [ctSelect, hkeep]

/-- Decapsulation selects between its two candidates by whether encapsulating the decoded message again gives the ciphertext. -/
theorem decapsInternal_eq_some {P : Config.Params} {fuel : Nat} {sk : SecretKey} {ct ct' ss' : Bytes} (hct : ct.length = 1088)
    (henc : encapsInternal P fuel sk.pk (decodeMessage sk ct) sk.h = some (ct', ss')) : decapsInternal P fuel sk ct =
      some (if ct' = ct then kdf P (decodeMessage sk ct ++ sk.h ++ ct) else kdf P (sk.z ++ ct)) := by
  obtain ⟨hct', -⟩ := encaps_lengths henc
  obtain ⟨w, hw, hout⟩ := Option.map_eq_some_iff.1 henc
  have heq : allEqual ct ct' = true ↔ ct' = ct := (allEqual_iff (hct.trans hct'.symm)).trans eq_comm
  simp only [decapsInternal, decapsWork, hw, Option.map_some, hout, ctSelect_eq _ ((kdf_length P _).trans (kdf_length P _).symm), heq]

/-- Settles O54: the equations of both directions, and decapsulation encapsulates the recovered message again. -/
theorem honestDecapsulation : Obligations.HonestDecapsulation := by
  refine ⟨fun P fuel b m h ct ss k hk henc => ?_, fun b m ct k hk hm => ?_,
    fun P fuel d z m pk sk ct ss k v hz hkeys hk hv henc hdec => ?_⟩
  · intro str r
    obtain ⟨A, hA, hct, hss⟩ := encapsInternal_eq_some (parsePk_isVec hk) henc
    exact ⟨A, _, _, hA, fun _ _ => rfl, rfl, by rw [hct, ctBytes]; simp [matMulAdd, map_range_three, str, r], hss⟩
  · intro w
    have hs := parseSk_isVec hk
    have hdot := ringDot_isElem (fun _ => hs.getD) fun j _ => decompress_isElem (slice ct (320 * j) 320) 10
    have hw : IsElem w := elemSub_isElem (decompress_isElem _ 4).length hdot.length
    have hdec : decodeMessage k ct = compress w 1 := decodeMessage_eq hs ct
    exact ⟨hdec, hdec ▸ compress_one_eq_iff hw hm⟩
  · obtain ⟨A, -, hpk, hsk⟩ := keygenInternal_parses hz hkeys
    obtain rfl := Option.some_injective _ (hk.symm.trans hpk)
    obtain rfl := Option.some_injective _ (hv.symm.trans hsk)
    obtain ⟨hct, -⟩ := encaps_lengths henc
    obtain ⟨-, -, -, hss⟩ := encapsInternal_eq_some (parsePk_isVec hk) henc
    rw [decapsInternal_eq_some hct (hdec ▸ henc), if_pos rfl, hdec, hss]

end Sys2Proof.Machine
end

section
/-! SUPPORT. The scalar codec, the packing of bits and the message encoding (R230 to R234, R239). -/

namespace Sys2Proof.Machine

/-! ## The scalar maps before they wrap (R230) -/

/-- Compress_d(x) before it wraps to 0 at 2^d: the number of the multiple of q / 2^d nearest to Canon(x). -/
def nearestStep (d : Nat) (x : Int) : Nat := (canon x * 2 ^ d * 2 + Config.q) / (2 * Config.q)

/-- Decompress_d(y) before it is reduced: the integer nearest to y·q / 2^d, rounding half up. -/
def stepValue (d y : Nat) : Nat := (y * Config.q * 2 + 2 ^ d) / 2 ^ (d + 1)

theorem compressCoeff_eq (d : Nat) (x : Int) : compressCoeff d x = nearestStep d x % 2 ^ d := rfl

theorem decompressCoeff_eq (d y : Nat) : decompressCoeff d y = reduce (stepValue d y) := rfl

/-- The nearest step is the one at most half a step away; q is odd, so there is no second one. -/
theorem nearestStep_eq_iff (d : Nat) (x : Int) (y : Nat) : nearestStep d x = y ↔
    y * 3329 * 2 ≤ 2 ^ d * canon x * 2 + 3329 ∧ 2 ^ d * canon x * 2 < y * 3329 * 2 + 3329 := by
  rw [nearestStep, Config.q, Nat.mul_comm (canon x)]
  omega

theorem stepValue_eq_iff (d y v : Nat) : stepValue d y = v ↔
    2 ^ d * v * 2 ≤ y * 3329 * 2 + 2 ^ d ∧ y * 3329 * 2 < 2 ^ d * v * 2 + 2 ^ d := by
  have hpos : 0 < 2 ^ (d + 1) := Nat.two_pow_pos _
  rw [stepValue, Config.q, Nat.div_eq_iff hpos, Nat.pow_succ, show v * (2 ^ d * 2) = 2 ^ d * v * 2 by ring]
  rw [Nat.pow_succ] at hpos
  omega

theorem nearestStep_le (d : Nat) (x : Int) : nearestStep d x ≤ 2 ^ d := by
  have hcanon := Nat.mul_le_mul_left (2 ^ d) (Nat.le_of_lt_succ (canon_lt x))
  obtain ⟨hlo, -⟩ := (nearestStep_eq_iff d x _).1 rfl
  omega

/-- The step numbers 0 and 2^d stand for the same residue, so the wrap of Compress_d does not matter to Decompress_d. -/
theorem decompressCoeff_mod {d y : Nat} (hy : y ≤ 2 ^ d) : decompressCoeff d (y % 2 ^ d) = decompressCoeff d y := by
  have hpos : 0 < 2 ^ d := Nat.two_pow_pos d
  rcases Nat.lt_or_eq_of_le hy with hlt | rfl
  · rw [Nat.mod_eq_of_lt hlt]
  · have hzero : stepValue d 0 = 0 := (stepValue_eq_iff d 0 0).2 (by omega)
    have hfull : stepValue d (2 ^ d) = 3329 := (stepValue_eq_iff d _ _).2 (by omega)
    rw [Nat.mod_self, decompressCoeff_eq, decompressCoeff_eq, hzero, hfull]
    decide

/-! ## The round trips of a coefficient (R232) -/

theorem abs_reduce_le (x : Int) : |reduce x| ≤ |x| := by
  obtain ⟨hlo, hhi⟩ := reduce_centred x
  have hmod := reduce_emod x
  have hself := le_abs_self x
  have hneg := neg_abs_le x
  rw [abs_le]
  omega

theorem canon_emod (x : Int) : (canon x : Int) % 3329 = x % 3329 := by simp only [canon, Config.q]; omega

/-- The error of a round trip, at every depth: half a step of each of the two roundings. -/
theorem codecError_le (d : Nat) (x : Int) :
    2 ^ (d + 1) * |reduce (decompressCoeff d (compressCoeff d x) - x)| ≤ 3329 + 2 ^ d := by
  set v := stepValue d (nearestStep d x) with hv
  have herr : reduce (decompressCoeff d (compressCoeff d x) - x) = reduce ((v : Int) - canon x) := by
    rw [compressCoeff_eq, decompressCoeff_mod (nearestStep_le d x), decompressCoeff_eq, ← hv, reduce_eq_reduce,
      Int.sub_emod, reduce_emod, ← canon_emod x, ← Int.sub_emod]
  have hstep := (nearestStep_eq_iff d x _).1 rfl
  have hvalue := (stepValue_eq_iff d _ v).1 hv.symm
  have hnear : |2 ^ (d + 1) * ((v : Int) - canon x)| ≤ 3329 + 2 ^ d := by
    rw [show (2 : Int) ^ (d + 1) * (v - canon x) = 2 * ((2 ^ d * v : Nat) - (2 ^ d * canon x : Nat)) by push_cast; ring, abs_le]
    have hcast : ((2 ^ d : Nat) : Int) = 2 ^ d := by norm_cast
    omega
  calc 2 ^ (d + 1) * |reduce (decompressCoeff d (compressCoeff d x) - x)|
      ≤ 2 ^ (d + 1) * |(v : Int) - canon x| := by
        rw [herr]
        exact mul_le_mul_of_nonneg_left (abs_reduce_le _) (by positivity)
    _ = |2 ^ (d + 1) * ((v : Int) - canon x)| := by rw [abs_mul, abs_pow, abs_two]
    _ ≤ 3329 + 2 ^ d := hnear

/-- Compress_d undoes Decompress_d as long as a step, q / 2^d, is more than 1. -/
theorem compressCoeff_decompressCoeff {d y : Nat} (hd : 2 ^ d < 3329) (hy : y < 2 ^ d) :
    compressCoeff d (decompressCoeff d y) = y := by
  obtain ⟨hlo, hhi⟩ := (stepValue_eq_iff d y _).1 rfl
  have hlt : stepValue d y < 3329 := by
    refine Nat.lt_of_mul_lt_mul_left (a := 2 ^ d) ?_
    omega
  have hstep : nearestStep d (decompressCoeff d y) = y := by
    rw [nearestStep_eq_iff, decompressCoeff_eq, canon_reduce hlt]
    omega
  rw [compressCoeff_eq, hstep, Nat.mod_eq_of_lt hy]

/-- Settles O41: the error bound at each depth, with the coefficients 832, 104 and 5 attaining it. -/
theorem codecRoundTripError : Obligations.CodecRoundTripError := by
  have hdepth : ∀ p ∈ [((1 : Nat), (832 : Int)), (4, 104), (10, 2)],
      2 ^ p.1 < 3329 ∧ (3329 + 2 ^ p.1 : Int) < 2 ^ (p.1 + 1) * (p.2 + 1) ∧
        ∃ x : Int, Centred x ∧ |reduce (decompressCoeff p.1 (compressCoeff p.1 x) - x)| = p.2 := by
    simp only [List.forall_mem_cons]
    exact ⟨⟨by decide, by decide, 832, by decide⟩, ⟨by decide, by decide, 104, by decide⟩,
      ⟨by decide, by decide, 5, by decide⟩, nofun⟩
  intro p hp
  obtain ⟨hd, hbound, hattained⟩ := hdepth p hp
  refine ⟨fun x _ => ?_, hattained, fun y => compressCoeff_decompressCoeff hd⟩
  exact Int.lt_add_one_iff.1 (lt_of_mul_lt_mul_left ((codecError_le p.1 x).trans_lt hbound) (by positivity))

/-! ## The bits of packed values (R233) -/

theorem bitsNat_lt : ∀ l : List Bool, bitsNat l < 2 ^ l.length
  | [] => by decide
  | b :: l => by
    have hb := Bool.toNat_lt b
    have hl := bitsNat_lt l
    rw [bitsNat, List.length_cons, Nat.pow_succ]
    omega

/-- The values of a byte string, each the number of its d bits. -/
theorem unpack_eq_map_bitAt {d : Nat} {b : Bytes} (hb : b.length = 32 * d) :
    unpack d b = (List.range 256).map fun i => bitsNat ((List.range d).map fun t => bitAt b (d * i + t)) := by
  rw [unpack, bits_eq_map_bitAt, hb, show 8 * (32 * d) = d * 256 by omega, pieces_map_range, List.map_map]
  rfl

theorem unpack_lt {d : Nat} {b : Bytes} (hb : b.length = 32 * d) {x : Nat} (hx : x ∈ unpack d b) : x < 2 ^ d := by
  rw [unpack_eq_map_bitAt hb] at hx
  obtain ⟨i, -, rfl⟩ := List.mem_map.1 hx
  simpa using bitsNat_lt ((List.range d).map fun t => bitAt b (d * i + t))

theorem testBit_unpack {d : Nat} {b : Bytes} (hb : b.length = 32 * d) {i t : Nat} (hi : i < 256) (ht : t < d) :
    ((unpack d b).getD i 0).testBit t = bitAt b (d * i + t) := by
  rw [getD_of_eq_map_range (unpack_eq_map_bitAt hb) hi, bitsNat_testBit, getD_of_eq_map_range rfl ht]

theorem bitAt_pack {d : Nat} {v : List Nat} (hl : v.length = 256) (hv : ∀ x ∈ v, x < 2 ^ d) {i t : Nat} (hi : i < 256)
    (ht : t < d) : bitAt (pack d v) (d * i + t) = (v.getD i 0).testBit t := by
  rw [← testBit_unpack (pack_length d v) hi ht, unpack_pack hl hv]

/-- Settles O42: both directions of the bijection, and the bits of a packed string. -/
theorem packingIsABijection : Obligations.PackingIsABijection :=
  ⟨fun d v hl hv => ⟨pack_length d v, unpack_pack hl hv, fun _ hi _ ht => bitAt_pack hl hv hi ht⟩,
    fun _ _ hb => ⟨fun _ => unpack_lt hb, pack_unpack hb⟩⟩

/-! ## Pack12 (R234) -/

/-- Settles O43: the round trip, and that a string parses exactly when all its values are below q. -/
theorem pack12RoundTrip : Obligations.Pack12RoundTrip := by
  refine ⟨fun f hf => ⟨pack12_length f, unpack12_pack12 hf⟩, fun b _ => ?_⟩
  rw [← Option.not_isSome_iff_eq_none, unpack12_isSome_iff]
  simp only [not_forall, not_lt, exists_prop]

/-! ## The message encoding (R239) -/

theorem compressCoeff_one_eq_one_iff (x : Int) : compressCoeff 1 x = 1 ↔ 833 ≤ x % 3329 ∧ x % 3329 ≤ 2496 := by
  simp only [compressCoeff, canon, Config.q]
  omega

/-- One bit per coefficient: the one it compresses to. -/
theorem bitAt_compress_one {w : Elem} (hw : IsElem w) {i : Nat} (hi : i < 256) :
    bitAt (compress w 1) i = decide (compressCoeff 1 (w.getD i 0) = 1) := by
  have hlt : ∀ v ∈ w.map (compressCoeff 1), v < 2 ^ 1 := List.forall_mem_map.2 fun x _ => compressCoeff_lt 1 x
  have hbit := bitAt_pack (t := 0) (by rw [List.length_map, hw.length]) hlt hi Nat.one_pos
  have hget : (w.map (compressCoeff 1)).getD i 0 = compressCoeff 1 (w.getD i 0) := by
    simp [List.getD_eq_getElem?_getD, hw.length, hi]
  rw [Nat.one_mul, Nat.add_zero, hget, Nat.testBit_zero, Nat.mod_eq_of_lt (b := 2) (compressCoeff_lt 1 _)] at hbit
  exact hbit

theorem compress_decompress_one {m : Bytes} (hm : m.length = 32) : compress (decompress m 1) 1 = m := by
  refine (compress_one_eq_iff (decompress_isElem m 1) hm).2 fun i _ => ?_
  rw [sub_self, reduce_zero]
  split <;> decide

/-- Settles O44: the coefficient of each bit, the round trip, and the bit of each coefficient. -/
theorem messageEncoding : Obligations.MessageEncoding := by
  refine ⟨fun m hm => ⟨compress_decompress_one hm, fun i hi => getD_decompress_one hm hi⟩, fun w hw i hi => ?_⟩
  exact (bitAt_compress_one hw hi).trans (decide_eq_decide.2 (compressCoeff_one_eq_one_iff _))

end Sys2Proof.Machine
end

section
/-! SUPPORT. KEM_DECAPS and implicit rejection (R264, R265, R270, R273, R344). -/

namespace Sys2Proof.Machine

/-- Settles O51: the checks, the parse, and whether the streams have yielded their values. -/
theorem kemDecapsWritesSecret : Obligations.KemDecapsWritesSecret := by
  intro s
  simp only [exec, execKemDecaps_eq, guarded_eq, State.checked_region, State.checked_length, State.checked_nil, ← ite_or]
  refine exists_next_ite (fun _ => failed_raise s _) fun _ => exists_next_ite (fun _ => failed_raise s _) fun _ => ?_
  cases parseSk (s.readMem (s.arg 0) 2400) with
  | none => exact ⟨_, rfl, failed_raise s _⟩
  | some sk =>
    dsimp only
    cases hk : decapsInternal Config.params s.groups sk (s.readMem (s.arg 2) 1088) with
    | none => exact ⟨_, rfl, waits_keepSampling s _⟩
    | some ss =>
      exact ⟨_, rfl, ended_complete (by constructor <;> rfl) _, rfl, rfl, rfl, rfl, rfl, rfl, decaps_length hk,
        s.writeMem_byte (s.arg 4) ss⟩

/-- Settles O53: the selection between the two candidates by equality of the ciphertexts. -/
theorem implicitRejection : Obligations.ImplicitRejection :=
  fun _ _ _ _ _ _ hct henc => decapsInternal_eq_some hct henc

end Sys2Proof.Machine
end

section
/-! SUPPORT. SIG_VERIFY (R307), what an error leaves (R342) and the clearing of the signing key (R304). -/

namespace Sys2Proof.Machine

/-! ## SIG_VERIFY -/

/-- Settles O57: the checks, then RESULT0 as the only change. -/
theorem sigVerifyReports : Obligations.SigVerifyReports := by
  intro s
  simp only [exec, execSigVerify, guarded_eq, State.checked_region, State.checked_length, State.checked_nil, ← ite_or]
  exact exists_next_ite (fun _ => failed_raise s _) fun _ => exists_next_ite (fun _ => failed_raise s _) fun _ =>
    ⟨_, rfl, ended_complete (by constructor <;> rfl) _, rfl, fun _ => rfl, rfl, rfl, rfl, rfl, rfl⟩

/-! ## Cleared regions (R304) -/

theorem written_zeros (addr len : Nat) (old : Nat → Byte) (a : Nat) :
    written addr (zeros len) old a = if addr ≤ a ∧ a < addr + len then 0 else old a := by
  simp only [written, zeros_length, zeros_getD]

/-- A byte of a region that was cleared before an output was written reads 0, unless the output reaches it. -/
theorem written_over_cleared {addr len out a : Nat} (b : Bytes) (old : Nat → Byte) (ha : addr ≤ a ∧ a < addr + len) :
    written out b (written addr (zeros len) old) a = 0 ∨ out ≤ a ∧ a < out + b.length := by
  by_cases h : out ≤ a ∧ a < out + b.length
  · exact .inr h
  · rw [written, if_neg h, written_zeros, if_pos ha]
    exact .inl rfl

/-! ## Errors (R342) -/

/-- What stands before an error differs from the state before the command in cleared bytes of the signing key only. -/
theorem Untouched.byte_changed {i : Instr} {s u : State} (h : Untouched i s u) {a : Nat} (hne : u.byte a ≠ s.byte a) :
    u.byte a = 0 ∧ ∃ addr len, signingKey i s = some (addr, len) ∧ addr ≤ a ∧ a < addr + len := by
  rcases h.dmem with hd | ⟨addr, len, hkey, hd⟩
  · exact absurd (congrArg (Memory.read · a) hd) hne
  · have hbyte : u.byte a = written addr (zeros len) s.byte a := by
      rw [State.byte, hd]
      exact s.writeMem_byte addr (zeros len) a
    rw [hbyte, written_zeros] at hne ⊢
    split at hne
    · next hin => exact ⟨if_pos hin, addr, len, hkey, hin⟩
    · exact absurd rfl hne

/-- Settles O8: a command that is over with an error is completed from a state with no more than its signing key cleared. -/
theorem errorsArePrecise : Obligations.ErrorsArePrecise := by
  intro i s t hexec hbusy hover herr
  obtain ⟨u, hu, hl⟩ := exec_leaves i s
  obtain rfl := Host.Outcome.next.inj (hu.symm.trans hexec)
  cases hl with
  | waits => exact absurd (hover.symm.trans hbusy) Bool.false_ne_true
  | ends u c hwithin hunt =>
    obtain ⟨hpr, hflags, -⟩ := hunt herr
    exact ⟨hwithin.ended c, hpr, ⟨hflags.eq, hflags.kst, hflags.result0, hflags.result1⟩,
      fun a ha => (hunt herr).byte_changed ha⟩

/-! ## The signing key (R304) -/

/-- Every byte of a key region reads 0, but for the bytes of an output that a command ending with OK wrote. -/
def KeyZero (t : State) (addr len out n : Nat) : Prop :=
  ∀ a, addr ≤ a → a < addr + len → t.byte a = 0 ∨ t.err = .ok ∧ out ≤ a ∧ a < out + n

theorem FailedCleared.keyZero {s t : State} {c : Code} {addr len : Nat} (h : FailedCleared s t c addr len) (out n : Nat) :
    KeyZero t addr len out n := fun a h1 h2 => .inl <| by
  rw [h.bytes a, written_zeros, if_pos ⟨h1, h2⟩]

theorem keyZero_of_output {t : State} {addr len out n : Nat} {b : Bytes} {old : Nat → Byte} (hok : t.err = .ok)
    (hn : b.length = n) (hbytes : ∀ a, t.byte a = written out b (written addr (zeros len) old) a) :
    KeyZero t addr len out n := fun a h1 h2 => by
  rw [hbytes a, ← hn]
  exact (written_over_cleared b old ⟨h1, h2⟩).imp_right fun h => ⟨hok, h⟩

/-- SIG_SIGN clears its key region however it ends, once it is in bounds (R306). -/
theorem sigSign_clears {s t : State} {seeded : Bool} (hexec : exec (.sigSign seeded) s = .next t) :
    if OutOf (s.arg 0) (s.arg 1) then BytesKept s t else KeyZero t (s.arg 0) (s.arg 1) (s.arg 4) sigLen := by
  obtain ⟨u, hu, h⟩ := sigSignSignsAndClears s seeded
  obtain rfl := Host.Outcome.next.inj (hu.symm.trans hexec)
  split at h
  · next hout => rw [if_pos hout]; exact h.bytes
  · next hin =>
    rw [if_neg hin]
    split at h
    · exact h.keyZero _ _
    · split at h
      · exact h.keyZero _ _
      · dsimp only at h
        split at h
        · exact h.keyZero _ _
        · obtain ⟨honly, hlen, -, hbytes⟩ := h
          exact keyZero_of_output honly.ended.err hlen hbytes

/-- BLOB_BUILD with K = 1 clears its key region however it ends, once the regions before it are in bounds and it is too (R325). -/
theorem blobBuild_clears {s t : State} {seeded : Bool} (hbefore : ¬ (OutOf (s.arg 0) (s.arg 1) ∨ OutOf (s.arg 2) (s.arg 3)))
    (hexec : exec (.blobBuild seeded true) s = .next t) (hover : t.busy ≠ s.busy) :
    if OutOf (s.arg 4) (s.arg 5) then BytesKept s t
    else KeyZero t (s.arg 4) (s.arg 5) (s.arg 6) (1116 + s.arg 1 + sigLen) := by
  obtain ⟨u, hu, h⟩ := blobBuildFrames s seeded true
  obtain rfl := Host.Outcome.next.inj (hu.symm.trans hexec)
  simp only [if_neg hbefore, true_and, if_true] at h
  split at h
  · next hout => rw [if_pos hout]; exact h.bytes
  · next hin =>
    rw [if_neg hin]
    split at h
    · exact h.keyZero _ _
    · split at h
      · exact h.keyZero _ _
      · split at h
        · split at h
          · exact absurd h.busy hover
          · obtain ⟨hended, -, -, -, -, -, -, hlen, hbytes⟩ := h
            exact keyZero_of_output hended.err hlen hbytes
        · exact h.keyZero _ _

/-- Settles O9: the two commands that sign. -/
theorem signingKeyIsCleared : Obligations.SigningKeyIsCleared := by
  intro i s t addr len hkey hbefore hexec hbusy hover
  unfold signingKey at hkey
  split at hkey
  · cases hkey
    exact sigSign_clears hexec
  · cases hkey
    have hin : ¬ (OutOf (s.arg 0) (s.arg 1) ∨ OutOf (s.arg 2) (s.arg 3)) := by
      simpa [beforeKey] using hbefore
    exact blobBuild_clears hin hexec (by simp [hbusy, hover])
  · cases hkey

end Sys2Proof.Machine
end

section
/-! SUPPORT. The blob round trip (R320 to R322, R327). -/

namespace Sys2Proof.Machine

/-- Where the AEAD opens, its payload is what is looked at (R326). -/
theorem openSealed_of_opened {P : Config.Params} {signed : Bool} {off : Nat} {ss blob payload : Bytes}
    (h : (P.aeadOpen ss (slice blob 1088 12) [] (blob.drop 1100)).map Vector.toList = some payload) :
    openSealed P signed off ss blob = openPayload P signed off payload := by
  obtain ⟨p, hp, rfl⟩ := Option.map_eq_some_iff.1 h
  rw [openSealed, hp]

/-- A built blob splits into its three parts, so that AEAD-CORRECT gives its payload back (R320, R321). -/
theorem openSealed_blobBytes {P : Config.Params} {signed : Bool} {off : Nat} {ct ss nonce payload : Bytes} (haead : AeadCorrect P)
    (hct : ct.length = 1088) (hn : nonce.length = 12) :
    openSealed P signed off ss (blobBytes P ct ss nonce payload) = openPayload P signed off payload := by
  have hnonce : slice (blobBytes P ct ss nonce payload) 1088 12 = nonce := by simp [blobBytes, slice, hct, hn]
  have hrest : (blobBytes P ct ss nonce payload).drop 1100 = (P.aeadSeal ss nonce [] payload).toList :=
    List.drop_left' (by simp [hct, hn])
  refine openSealed_of_opened ?_
  rw [hnonce, hrest]
  exact haead ss nonce [] payload

/-- A report with its signature at the end is what is verified (R322). -/
theorem openPayload_signed {P : Config.Params} {off : Nat} {report sig : Bytes} (hsig : sig.length = P.sigLen.toNat)
    (hoff : off + P.sigVkLen.toNat ≤ report.length)
    (hvalid : P.sigVerify (slice report off P.sigVkLen.toNat) report sig = true) :
    openPayload P true off (report ++ sig) = .ok report := by
  have hreport : slice (report ++ sig) 0 ((report ++ sig).length - P.sigLen.toNat) = report := by simp [slice, ← hsig]
  have hlong : ¬ (report ++ sig).length < P.sigLen.toNat := by simp [← hsig]
  simp only [openPayload, if_true, if_neg hlong, hreport, if_neg hoff.not_gt, List.drop_left, hvalid]

/-- Settles O60: decapsulation gives the sealing key, the AEAD the payload, and the signature in it is valid. -/
theorem blobRoundTrip : Obligations.BlobRoundTrip := by
  intro P fuel off d z m nonce seed report rnd pk sk blob payload k v haead hsigc hz hn hkeys hk hv hvk hoff hpay hblob hdec
  obtain ⟨-, -, hhonest⟩ := honestDecapsulation
  obtain ⟨⟨ct, ss⟩, henc, rfl⟩ := Option.map_eq_some_iff.1 hblob
  obtain ⟨hct, -⟩ := encaps_lengths henc
  have htake : (blobBytes P ct ss nonce payload).take 1088 = ct := by simp [blobBytes, hct]
  have hdecaps : decapsInternal P fuel v ct = some ss := hhonest P fuel d z m pk sk ct ss k v hz hkeys hk hv henc (htake ▸ hdec)
  obtain ⟨sig, hsign, hvalid⟩ := hsigc seed report rnd
  obtain rfl : report ++ sig = payload := by simpa [blobPayload, hsign] using hpay
  have hct' : slice (blobBytes P ct ss nonce (report ++ sig)) 0 Config.ctLen = ct := htake
  rw [openBlob, hct', hdecaps, Option.map_some, openSealed_blobBytes haead hct hn,
    openPayload_signed (signMessage_length hsign) hoff (hvk ▸ hvalid)]

end Sys2Proof.Machine
end

section
/-! SUPPORT. BLOB_OPEN (R322, R326). -/

namespace Sys2Proof.Machine

/-- What opening a blob ends in: its error, or the report and its length written, with RESULT1 set where a signature was verified
(R326). -/
def State.reported (s : State) (signed : Bool) : Except Code Bytes → State
  | .error c => s.raise c
  | .ok report =>
    (((s.writeMem (s.arg 4) report).setResult0 (BitVec.ofNat 32 report.length)).setResult1 (if signed then 1 else 0)).complete .ok

theorem opened_reported (s : State) (signed : Bool) (report : Bytes) :
    Opened s (s.reported signed (.ok report)) (s.arg 4) report (if signed then 1 else 0) :=
  ⟨ended_complete (by constructor <;> rfl) _, rfl, s.writeMem_byte (s.arg 4) report, rfl, rfl, rfl, rfl, rfl⟩

theorem slice_zero {α : Type} (l : List α) (n : Nat) : slice l 0 n = l.take n := rfl

/-- A part of the front of a list is a part of the list. -/
theorem slice_take {α : Type} (l : List α) {off n len : Nat} (h : off + n ≤ len) : slice (l.take len) off n = slice l off n := by
  rw [slice, List.drop_take, List.take_take, Nat.min_eq_left (by omega), slice]

/-- The trailing signature is split off, and both lengths are checked before it is verified (R322, R326). -/
theorem openPayload_true (P : Config.Params) (off : Nat) (payload : Bytes) :
    openPayload P true off payload =
      if payload.length < P.sigLen.toNat ∨ payload.length - P.sigLen.toNat < off + P.sigVkLen.toNat then .error .format
      else if P.sigVerify (slice payload off P.sigVkLen.toNat) (payload.take (payload.length - P.sigLen.toNat))
          (payload.drop (payload.length - P.sigLen.toNat)) then
        .ok (payload.take (payload.length - P.sigLen.toNat))
      else .error .sigInv := by
  have hlen : (payload.take (payload.length - P.sigLen.toNat)).length = payload.length - P.sigLen.toNat :=
    List.length_take_of_le (Nat.sub_le ..)
  simp only [openPayload, if_true, slice_zero, hlen, ite_or]
  refine ite_congr rfl (fun _ => rfl) fun _ => ite_congr rfl (fun _ => rfl) fun hoff => ?_
  rw [slice_take payload (Nat.le_of_not_lt hoff)]

/-- Where the AEAD refuses, the error is AUTH (R326). -/
theorem openSealed_of_refused {P : Config.Params} {signed : Bool} {off : Nat} {ss blob : Bytes}
    (h : (P.aeadOpen ss (slice blob 1088 12) [] (blob.drop 1100)).map Vector.toList = none) :
    openSealed P signed off ss blob = .error .auth := by
  rw [openSealed, Option.map_eq_none_iff.1 h]

/-- Settles O59: the checks, the parse, whether the streams have yielded their values, the AEAD, and where it is signed the lengths
and the signature. -/
theorem blobOpenChecks : Obligations.BlobOpenChecks := by
  intro s signed
  simp only [exec, execBlobOpen_eq, guarded_eq, State.checked_region, State.checked_length, chkBlob, State.checked_cons,
    State.checked_nil, decide_eq_true_eq, ← ite_or]
  refine exists_next_ite (fun _ => failed_raise s _) fun _ => exists_next_ite (fun _ => failed_raise s _) fun _ =>
    exists_next_ite (fun _ => failed_raise s _) fun _ => ?_
  generalize s.readMem (s.arg 0) (s.arg 1) = blob
  cases parseSk (s.readMem (s.arg 2) 2400) with
  | none => exact ⟨_, rfl, failed_raise s _⟩
  | some sk =>
    dsimp only [openBlob, slice_zero]
    cases decapsInternal Config.params s.groups sk (blob.take 1088) with
    | none => exact ⟨_, rfl, waits_keepSampling s _⟩
    | some ss =>
      change ∃ t, (.next (s.reported signed (openSealed Config.params signed (s.arg 5) ss blob)) : Result) = .next t ∧ _
      dsimp only
      cases hopen : (Config.params.aeadOpen ss (slice blob 1088 12) [] (blob.drop 1100)).map Vector.toList with
      | none =>
        rw [openSealed_of_refused hopen]
        exact ⟨_, rfl, failed_raise s _⟩
      | some payload =>
        rw [openSealed_of_opened hopen]
        cases signed with
        | false => exact ⟨_, rfl, opened_reported s false payload⟩
        | true =>
          rw [openPayload_true, apply_ite (s.reported true), apply_ite (s.reported true)]
          exact exists_next_ite (fun _ => failed_raise s _) fun _ =>
            exists_next_ite (fun _ => opened_reported s true _) fun _ => ⟨_, rfl, failed_raise s _⟩

end Sys2Proof.Machine
end
